-- ==== Sys2Proof/Word.lean ====
section
/-! DEFINITION. The words of the LZW codec block: the 32-bit host word and the 16-bit element. -/

namespace Sys2Proof

/-- A host register or one bus transfer: `REG_W` = 32 bits (R7, R61). -/
abbrev Word := BitVec 32

/-- A string element, a unit value, or an IN_MEM or OUT_MEM element: `UNIT_W` = 16 bits (R7, R11). -/
abbrev Elem := BitVec 16

/-- A string: a finite sequence of 16-bit elements (R11). -/
abbrev Str := List Elem

end Sys2Proof
end

