-- ==== Sys2Proof/Machine/Registers.lean ====
section
/-! DEFINITION. The engine's working registers as plain data, one structure per component (R31 to R35). -/

namespace Sys2Proof.Machine

/-- The legal values of `bitsPerUnit` (R7, R32, R33): 6, 15 and 16. -/
inductive Bpu where
  | six | fifteen | sixteen
  deriving DecidableEq, Repr, Inhabited

/-- Bit Writer registers (R32). -/
structure Writer where
  /-- `W_BPU` -/
  bpu : Bpu
  /-- `W_ACC`, the bits of the current partial unit, the earliest highest -/
  acc : BitVec 16
  /-- `W_CNT`, how many bits `W_ACC` holds (5 bits) -/
  cnt : Nat
  /-- `W_OUT`, the units emitted so far -/
  out : List Elem
  deriving DecidableEq, Repr, Inhabited

/-- Bit Reader registers (R33). -/
structure Reader where
  /-- `R_BPU` -/
  bpu : Bpu
  /-- `R_RESET`, the source's `resetValue` -/
  reset : BitVec 16
  /-- `R_LEN`, the declared input length in units (32 bits) -/
  len : Nat
  /-- `R_VAL`, the current unit -/
  val : BitVec 16
  /-- `R_MASK`, the one-hot bit cursor -/
  mask : BitVec 16
  /-- `R_INDEX`, the next unit to fetch (32 bits) -/
  index : Nat
  deriving DecidableEq, Repr, Inhabited

/-- Compress Engine registers (R34). The dictionary is the list of its (key, code) pairs, oldest first,
and the pending set a list without repeats (R38). -/
structure Compressor where
  /-- `C_DICT` -/
  dict : List (Str × Nat)
  /-- `C_PEND` -/
  pend : List Str
  /-- `C_PHRASE` -/
  phrase : Str
  /-- `C_NB`, `numBits` (32 bits) -/
  nb : Nat
  /-- `C_ENL`, `enlargeIn` (32 bits) -/
  enl : Nat
  /-- `C_NEXT`, the next free code (32 bits) -/
  next : Nat
  /-- `C_POS`, the next input element (32 bits) -/
  pos : Nat
  deriving DecidableEq, Repr, Inhabited

/-- Decompress Engine registers (R35). The dictionary is the list of its (code, entry) pairs, oldest
first; codes 0, 1 and 2 hold no string (R38). -/
structure Decompressor where
  /-- `D_DICT` -/
  dict : List (Nat × Str)
  /-- `D_WORD`, the previously decoded string -/
  word : Str
  /-- `D_ENTRY`, the current decoded string -/
  entry : Str
  /-- `D_NB`, `numBits` (32 bits) -/
  nb : Nat
  /-- `D_ENL`, `enlargeIn` (32 bits) -/
  enl : Nat
  /-- `D_NEXT`, `nextFreeCode` (32 bits) -/
  next : Nat
  deriving DecidableEq, Repr, Inhabited

/-- All working registers of the engine: `O_LEN` (R31) and the four components' (R32 to R35). -/
structure Engine where
  /-- `O_LEN`, the OUT_MEM elements written so far (32 bits) -/
  oLen : Nat
  w : Writer
  r : Reader
  c : Compressor
  d : Decompressor
  deriving DecidableEq, Repr, Inhabited

/-- The command latched at START: `L_OPC`, `L_NULL`, `L_LEN` (R31). -/
structure Latch where
  opc : BitVec 4
  isNull : Bool
  len : Word
  deriving DecidableEq, Repr, Inhabited

end Sys2Proof.Machine
end

