-- ==== Sys2Proof/Config.lean ====
section
/-! DEFINITION. What an instance of the block fixes (the parameters of R7), the constant ID, and the free
values: what the spec leaves open, as constants without a body. -/

namespace Sys2Proof

/-- `P_PAST_END` (R7, R127): what taking a bit past the declared input length does. -/
inductive PastEnd where
  /-- the stream is truncated and the result is NULL (the default) -/
  | null
  /-- the unit past the end reads as 0 -/
  | zero
  deriving DecidableEq, Repr

/-- `P_FLUSH_ALIGNED` (R7, R106): what the final flush does when no bits are pending. -/
inductive FlushAligned where
  /-- nothing (the default) -/
  | none
  /-- one all-zero unit is emitted -/
  | zeroUnit
  deriving DecidableEq, Repr

/-- The parameters of R7: the OPEN ones (`IN_CAP`, `OUT_CAP`, `DICT_CAP`, `BASE`) and the two named
ones. They are fixed for the instance, and no step changes them (R290). Their ranges are `Params.wf`. -/
structure Params where
  inCap : Nat
  outCap : Nat
  dictCap : Nat
  base : Word
  pastEnd : PastEnd
  flushAligned : FlushAligned
  deriving DecidableEq, Repr

/-- The instance `State.reset` names (log 7, DESIGN CHOICE, unsafe): the greatest capacities of R7's
ranges, the `BASE` of 95_test_vectors.md section 7, and the two default values of R8. -/
def Params.default : Params :=
  { inCap := 2 ^ 26, outCap := 2 ^ 26, dictCap := 2 ^ 29, base := 0x40000000#32
    pastEnd := .null, flushAligned := .none }

namespace Config

/-- `ID_VALUE` (R7, R21): "LZW" and interface revision 1. -/
def idValue : Word := 0x4C5A5701#32

/-- Free value (log 2, 3): what an element of a memory that nothing has written since its contents
were last open holds, by the memory's generation number and the element's index (R65, R290, U7, U8). -/
opaque openElem : Nat → Nat → BitVec 16

/-- Free value (log 4): what a host read of an OUT_MEM element returns while BUSY = 1, fresh for every
read (R65, U6). -/
opaque openRead : Nat → BitVec 16

/-- Free value (log 5): the engine's working registers where the spec says they are unspecified
(R43, R245, R290, U9). -/
opaque openEngine : Nat → Machine.Engine

/-- Free value (log 5): the command latches where the spec says they are unspecified (R245, R290). -/
opaque openLatch : Nat → Machine.Latch

end Config

end Sys2Proof
end

