-- ==== Sys2Proof/Syntax.lean ====
section
/-! DEFINITION. The instructions of spec/opcode_table.json as syntax (R80, R81, R85), the bus accesses and
turns that bring them to the block (R61, R72), the host statements (R86, R87), and the stream tokens (R88). -/

namespace Sys2Proof

/-- The 14 rows of the opcode table. A command row (format CMD, R80) carries its operand `IN_NULL`; its
other operands, the length and the input, are state (R82). A control row (format CTRL, R85) carries
`IRQ_EN`; START also carries bit 1 (a CLEAR in the same write) and SRESET the bits R247 says it ignores,
so that every CTRL word is exactly one instruction (log 11). -/
inductive Instr where
  | cmpB64 (inNull : Bool)
  | decB64 (inNull : Bool)
  | cmpU16 (inNull : Bool)
  | decU16 (inNull : Bool)
  | cmpUri (inNull : Bool)
  | decUri (inNull : Bool)
  | cmpU8a (inNull : Bool)
  | decU8a (inNull : Bool)
  | cmpStr (inNull : Bool)
  | decStr (inNull : Bool)
  | start (irqEn clear : Bool)
  | clear (irqEn : Bool)
  | sreset (irqEn start clear : Bool)
  | irqcfg (irqEn : Bool)
  deriving DecidableEq, Repr

/-- The two formats (R80, R85): a value of CMD run by START, and a value written to CTRL. -/
inductive Format where
  | cmd | ctrl
  deriving DecidableEq, Repr

/-- One host bus access of a 32-bit word (R61). -/
inductive Access where
  | write (addr data : Word)
  | read (addr : Word)
  deriving DecidableEq, Repr

/-- One turn of the two agents and the reset line (R15, R72, R268, R293; log 8): a host access, a moment
at which a running command may complete, or an assertion of `rst`. -/
inductive Turn where
  | host (x : Access)
  | engine
  | rst
  deriving DecidableEq, Repr

/-- The six host registers by name (R20, R86). -/
inductive HostReg where
  | id | ctrl | cmd | inLen | status | outLen
  deriving DecidableEq, Repr

/-- Host statements (R86). `WAIT DONE` polls STATUS until bit 1 is 1; `polls` is how many polls read 0
before the completion (log 19). -/
inductive Stmt where
  | wr (reg : HostReg) (v : Word)
  | wrIn (i : Nat) (v : Word)
  | rd (reg : HostReg)
  | rdOut (i : Nat)
  | waitDone (polls : Nat)
  deriving DecidableEq, Repr

/-- Pseudo-instructions of the host syntax (R87): a command with a length or with NULL, and the others.
`opc` is the command's value in the OPC column of R81. -/
inductive Pseudo where
  | run (opc : BitVec 4) (n : Word) (polls : Nat)
  | runNull (opc : BitVec 4) (polls : Nat)
  | clear
  | sreset
  | loads (s : Str)
  deriving DecidableEq, Repr

/-- The tokens of the compressed stream (R88). -/
inductive Token where
  | literal8 (x : Elem)
  | literal16 (x : Elem)
  | endOfStream
  | dictCode (k : Nat)
  deriving DecidableEq, Repr

end Sys2Proof
end

