-- ==== Sys2Proof/WellFormed.lean ====
section
/-! DEFINITION. Well-formedness: of the parameters (the ranges of R7), of an instruction, and of a host
statement against the element windows (R60, R62, R63). -/

namespace Sys2Proof

/-- The ranges of R7: `1 ≤ IN_CAP ≤ 2^26`, `1 ≤ OUT_CAP ≤ 2^26`, `4 ≤ DICT_CAP ≤ 2^29`, and `BASE` a
2^30-aligned address. -/
def Params.wf (p : Params) : Bool :=
  decide (1 ≤ p.inCap) && decide (p.inCap ≤ 2 ^ 26) &&
  decide (1 ≤ p.outCap) && decide (p.outCap ≤ 2 ^ 26) &&
  decide (4 ≤ p.dictCap) && decide (p.dictCap ≤ 2 ^ 29) &&
  decide (p.base.toNat % 2 ^ 30 = 0)

/-- Every operand field of an instruction is one bit, and both values of each are legal and have an
encoding (R80, R85), so every term of `Instr` is well formed. -/
def Instr.wf : Instr → Bool
  | .cmpB64 _ | .decB64 _ | .cmpU16 _ | .decU16 _ | .cmpUri _ => true
  | .decUri _ | .cmpU8a _ | .decU8a _ | .cmpStr _ | .decStr _ => true
  | .start _ _ | .clear _ | .sreset _ _ _ | .irqcfg _ => true

/-- A host statement names an element that exists (R62, R63); the register statements always do. -/
def Stmt.wf (p : Params) : Stmt → Bool
  | .wrIn i _ => decide (i < p.inCap)
  | .rdOut i => decide (i < p.outCap)
  | .wr _ _ | .rd _ | .waitDone _ => true

/-- A literal token's payload has the width of its kind (R88), and a dictionary code is not a control
code (R90). -/
def Token.wf : Token → Bool
  | .literal8 x => decide (x.toNat < 256)
  | .literal16 x => decide (256 ≤ x.toNat)
  | .endOfStream => true
  | .dictCode k => decide (3 ≤ k)

end Sys2Proof
end

