-- ==== Sys2Proof/Decode.lean ====
section
/-! DEFINITION. The decoder, total on every 32-bit word of either format, rejecting by name (R80 to R85),
and after it the encoder, both from the spec's encoding tables. -/

namespace Sys2Proof

/-- Why a word is no instruction: an OPC value R84 reserves (0xA to 0xF). -/
inductive Reject where
  | reservedOpcode (opc : BitVec 4)
  deriving DecidableEq, Repr

/-- The OPC field of a CMD word, bits 3:0 (R80). -/
def opcOf (w : Word) : BitVec 4 := w.extractLsb' 0 4

/-- The IN_NULL field of a CMD word, bit 4 (R80). -/
def inNullOf (w : Word) : Bool := w.getLsbD 4

/-- A CMD word (R81, R83, R84). Bits 31:5 carry no encoding. -/
def decodeCmd (w : Word) : Except Reject Instr :=
  match (opcOf w).toNat with
  | 0x0 => .ok (.cmpB64 (inNullOf w))
  | 0x1 => .ok (.decB64 (inNullOf w))
  | 0x2 => .ok (.cmpU16 (inNullOf w))
  | 0x3 => .ok (.decU16 (inNullOf w))
  | 0x4 => .ok (.cmpUri (inNullOf w))
  | 0x5 => .ok (.decUri (inNullOf w))
  | 0x6 => .ok (.cmpU8a (inNullOf w))
  | 0x7 => .ok (.decU8a (inNullOf w))
  | 0x8 => .ok (.cmpStr (inNullOf w))
  | 0x9 => .ok (.decStr (inNullOf w))
  | _ => .error (.reservedOpcode (opcOf w))

/-- A CTRL word (R85, R247): SRESET wins over everything; else START, with the CLEAR of the same word as
its operand; else CLEAR; else IRQCFG. Bits 31:9 and 7:3 are ignored (R22). -/
def decodeCtrl (w : Word) : Instr :=
  if w.getLsbD 2 then .sreset (w.getLsbD 8) (w.getLsbD 0) (w.getLsbD 1)
  else if w.getLsbD 0 then .start (w.getLsbD 8) (w.getLsbD 1)
  else if w.getLsbD 1 then .clear (w.getLsbD 8)
  else .irqcfg (w.getLsbD 8)

/-- The decoder. -/
def decode : Format → Word → Except Reject Instr
  | .cmd, w => decodeCmd w
  | .ctrl, w => .ok (decodeCtrl w)

/-- The bit `b` at position `k` of a word. -/
def bitAt (b : Bool) (k : Nat) : Word := (BitVec.ofBool b).setWidth 32 <<< k

/-- The format a row of the opcode table belongs to (R80, R85). -/
def formatOf : Instr → Format
  | .cmpB64 _ | .decB64 _ | .cmpU16 _ | .decU16 _ | .cmpUri _ => .cmd
  | .decUri _ | .cmpU8a _ | .decU8a _ | .cmpStr _ | .decStr _ => .cmd
  | .start _ _ | .clear _ | .sreset _ _ _ | .irqcfg _ => .ctrl

/-- The encoder: the word of an instruction, its reserved bits 0 (R80, R81, R85). -/
def encode : Instr → Word
  | .cmpB64 n => 0x0#32 ||| bitAt n 4
  | .decB64 n => 0x1#32 ||| bitAt n 4
  | .cmpU16 n => 0x2#32 ||| bitAt n 4
  | .decU16 n => 0x3#32 ||| bitAt n 4
  | .cmpUri n => 0x4#32 ||| bitAt n 4
  | .decUri n => 0x5#32 ||| bitAt n 4
  | .cmpU8a n => 0x6#32 ||| bitAt n 4
  | .decU8a n => 0x7#32 ||| bitAt n 4
  | .cmpStr n => 0x8#32 ||| bitAt n 4
  | .decStr n => 0x9#32 ||| bitAt n 4
  | .start e c => 0x1#32 ||| bitAt c 1 ||| bitAt e 8
  | .clear e => 0x2#32 ||| bitAt e 8
  | .sreset e st c => 0x4#32 ||| bitAt st 0 ||| bitAt c 1 ||| bitAt e 8
  | .irqcfg e => bitAt e 8

/-- The bits of a format that carry an encoding: CMD bits 4:0 (R80), CTRL bits 8 and 2:0 (R22, R85). -/
def significantBits : Format → Word
  | .cmd => 0x1F#32
  | .ctrl => 0x107#32

/-- The format of an opcode-table row that gives its word `nbits` bits in whole bytes (log 10): the
command rows' fields end at bit 3 (one byte), the control rows' at bit 8 (two bytes). Of a wider word,
bit 8 tells: only CTRL has a field there. -/
def tableFormat (nbits w : Nat) : Format :=
  if nbits ≤ 8 then .cmd
  else if nbits ≤ 16 then .ctrl
  else if w.testBit 8 then .ctrl else .cmd

/-- The instruction the decoder reads from an opcode-table word, bit 0 its least significant bit. -/
def decodeTableWord (nbits w : Nat) : Option Instr :=
  match decode (tableFormat nbits w) (BitVec.ofNat 32 w) with
  | .ok i => some i
  | .error _ => none

end Sys2Proof
end

