-- ==== Sys2Proof/Machine/State.lean ====
section
/-! DEFINITION. The state of the block as plain data (10_state.md, R7, R44), its faults and refusals, and the
state after reset (R290). -/

namespace Sys2Proof.Machine

/-- `ENG` (R31). -/
inductive EngineState where
  | idle | run
  deriving DecidableEq, Repr

/-- The values of STATUS.ERR that the block produces (R26); their codes are `Err.code`. -/
inductive Err where
  | none | illegalCmd | inLenRange | dictFull | outFull
  deriving DecidableEq, Repr

/-- The values of STATUS.NCAUSE that the block produces (R27); their codes are `NCause.code`. -/
inductive NCause where
  | none | emptyInput | truncated | badCode | oddLength
  deriving DecidableEq, Repr

/-- STATUS (R25), by field; the host reads it as `Status.word`. -/
structure Status where
  busy : Bool
  done : Bool
  resNull : Bool
  werr : Bool
  err : Err
  ncause : NCause
  deriving DecidableEq, Repr

/-- CMD (R23), by field. -/
structure Cmd where
  opc : BitVec 4
  inNull : Bool
  deriving DecidableEq, Repr

/-- An element memory (R62, R63): the elements that have been written, as (index, element) pairs with
strictly rising indices (`Mem.wf`). An unlisted element holds no value of its own; reading it gives the
free value of the memory's generation `gen` (log 1, log 2). -/
structure Mem where
  gen : Nat
  cells : List (Nat × Elem)
  deriving DecidableEq, Repr

/-- The block, its inputs and the model's own counters. -/
structure State where
  /-- the parameters of R7, fixed for the instance (R290) -/
  params : Params
  /-- CTRL.IRQ_EN (R22) -/
  irqEn : Bool
  /-- CMD (R23) -/
  cmd : Cmd
  /-- IN_LEN (R24) -/
  inLen : Word
  /-- STATUS (R25) -/
  status : Status
  /-- OUT_LEN (R28) -/
  outLen : Word
  /-- ENG (R31) -/
  eng : EngineState
  /-- L_OPC, L_NULL, L_LEN (R31) -/
  latch : Latch
  /-- O_LEN and the registers of R32 to R35 -/
  engine : Engine
  /-- IN_MEM (R62) -/
  inMem : Mem
  /-- OUT_MEM (R63) -/
  outMem : Mem
  /-- the model's: the word the last bus read returned (log 18) -/
  rdata : Word
  /-- the model's: the turns to come, oldest first (log 8) -/
  turns : List Turn
  /-- the model's: the counter the free values are drawn with (log 18) -/
  freeCtr : Nat
  deriving DecidableEq, Repr

/-- Why the machine stops. No instruction raises one: the block has no trap and no bus error (R61, R269). -/
inductive Fault where
  /-- a bus access at an address outside the block's window, which the block does not answer (R60; log 14);
  raised by the host's turn; safe: the model stops where the block goes on untouched -/
  | outsideWindow (addr : Word)
  deriving DecidableEq, Repr

/-- Why an instruction has no meaning. -/
inductive Refusal where
  /-- raised by an arm of `exec` whose instruction has no meaning yet (none at present); safe -/
  | notModelled (mnemonic : String)
  deriving DecidableEq, Repr

/-- STATUS with every field 0 (R290). -/
def Status.zero : Status :=
  { busy := false, done := false, resNull := false, werr := false, err := .none, ncause := .none }

/-- The engine's registers at reset: the spec gives no value (R290); log 6, DESIGN CHOICE, unsafe. -/
def Engine.zero : Engine :=
  { oLen := 0
    w := { bpu := .six, acc := 0#16, cnt := 0, out := [] }
    r := { bpu := .six, reset := 0#16, len := 0, val := 0#16, mask := 0#16, index := 0 }
    c := { dict := [], pend := [], phrase := [], nb := 0, enl := 0, next := 0, pos := 0 }
    d := { dict := [], word := [], entry := [], nb := 0, enl := 0, next := 0 } }

/-- The state after power-on reset of the instance with parameters `p` (R290, R292). -/
def State.resetWith (p : Params) : State :=
  { params := p, irqEn := false, cmd := { opc := 0#4, inNull := false }, inLen := 0#32
    status := Status.zero, outLen := 0#32, eng := .idle
    latch := { opc := 0#4, isNull := false, len := 0#32 }, engine := Engine.zero
    inMem := { gen := 0, cells := [] }, outMem := { gen := 1, cells := [] }
    rdata := 0#32, turns := [], freeCtr := 2 }

/-- The state after reset (R290), of the instance `Params.default` (log 7). -/
def State.reset : State := State.resetWith Params.default

end Sys2Proof.Machine
end

