-- ==== Sys2Proof/Machine/Flags.lean ====
section
/-! DEFINITION. The STATUS flags (R25 to R27): their codes, the word the host reads, and how acceptance of a
START, a dropped write, a completion and CLEAR change them; and the interrupt output (R30). -/

namespace Sys2Proof.Machine

/-- The ERR codes (R26). -/
def Err.code : Err → BitVec 4
  | .none => 0#4
  | .illegalCmd => 1#4
  | .inLenRange => 2#4
  | .dictFull => 3#4
  | .outFull => 4#4

/-- The NCAUSE codes (R27). -/
def NCause.code : NCause → BitVec 4
  | .none => 0#4
  | .emptyInput => 1#4
  | .truncated => 2#4
  | .badCode => 3#4
  | .oddLength => 4#4

/-- What a command ends with (R260): the STRING result of a length, the NULL result with its cause, or an
error. -/
inductive Result where
  | str (n : Nat)
  | null (c : NCause)
  | error (e : Err)
  deriving DecidableEq, Repr

/-- The STATUS word the host reads (R25); bits 31:12 are 0. -/
def Status.word (st : Status) : Word :=
  bitAt st.busy 0 ||| bitAt st.done 1 ||| bitAt st.resNull 2 ||| bitAt st.werr 3 |||
    (st.err.code.setWidth 32 <<< 4) ||| (st.ncause.code.setWidth 32 <<< 8)

/-- The CTRL word the host reads (R22): IRQ_EN, the pulse and reserved bits 0. -/
def ctrlWord (irqEn : Bool) : Word := bitAt irqEn 8

/-- The CMD word the host reads (R23); bits 31:5 are 0. -/
def Cmd.word (c : Cmd) : Word := c.opc.setWidth 32 ||| bitAt c.inNull 4

/-- CMD as a written word sets it (R23): bits 31:5 of the word are ignored. -/
def Cmd.ofWord (w : Word) : Cmd := { opc := opcOf w, inNull := inNullOf w }

/-- A host write was dropped because BUSY = 1 (R25, R64). -/
def Status.dropped (st : Status) : Status := { st with werr := true }

/-- START accepted (R240): BUSY set, the completion fields 0, WERR kept. -/
def Status.accepted (st : Status) : Status :=
  { busy := true, done := false, resNull := false, werr := st.werr, err := .none, ncause := .none }

/-- Completion (R262, R266): the outcome's fields, DONE set and BUSY cleared, WERR kept. -/
def Status.completed (st : Status) : Result → Status
  | .str _ => { busy := false, done := true, resNull := false, werr := st.werr, err := .none, ncause := .none }
  | .null c => { busy := false, done := true, resNull := true, werr := st.werr, err := .none, ncause := c }
  | .error e => { busy := false, done := true, resNull := false, werr := st.werr, err := e, ncause := .none }

/-- CLEAR (R243): WERR always; DONE and ERR when not BUSY. -/
def Status.cleared (st : Status) : Status :=
  if st.busy then { st with werr := false }
  else { st with werr := false, done := false, err := .none }

/-- OUT_LEN at completion (R262, R266): the length of a STRING result, else 0. -/
def Result.outLen : Result → Nat
  | .str n => n
  | .null _ => 0
  | .error _ => 0

/-- The level output `irq` (R30, R275). -/
def State.irq (s : State) : Bool := s.status.done && s.irqEn

end Sys2Proof.Machine
end

