-- ==== Sys2Proof/Machine/Operands.lean ====
section
/-! DEFINITION. The operands of a command: the adapters and their alphabets (R110, R111, R200), the
alphabet-encode and alphabet-decode functions (R109, R129 to R136), and the number of units (R201). -/

namespace Sys2Proof.Machine

/-- The five adapters (R200). -/
inductive Adapter where
  | base64 | utf16 | uri | bytes | plain
  deriving DecidableEq, Repr

/-- `bitsPerUnit` as a number. -/
def Bpu.width : Bpu → Nat
  | .six => 6
  | .fifteen => 15
  | .sixteen => 16

/-- The adapter's `bitsPerUnit`, BPU(ADP) (R200). -/
def Adapter.bpu : Adapter → Bpu
  | .base64 => .six
  | .utf16 => .fifteen
  | .uri => .six
  | .bytes => .sixteen
  | .plain => .sixteen

/-- `n` consecutive characters from `c` on. -/
def charsFrom (c n : Nat) : List Elem := (List.range n).map fun k => BitVec.ofNat 16 (c + k)

/-- Indices 0 to 62 of both alphabets: `A`-`Z`, `a`-`z`, `0`-`9`, `+` (R110, R111). -/
def tabCommon : List Elem := charsFrom 0x41 26 ++ charsFrom 0x61 26 ++ charsFrom 0x30 10 ++ [0x2B#16]

/-- The Base64 alphabet table, 65 entries (R110). -/
def b64Tab : List Elem := tabCommon ++ [0x2F#16, 0x3D#16]

/-- The URI-safe alphabet table, 65 entries (R111). -/
def uriTab : List Elem := tabCommon ++ [0x2D#16, 0x24#16]

/-- Entry `k` of an alphabet table; the tables are read at `k ≤ 64` only. -/
def tabAt (t : List Elem) (k : Nat) : Elem := t.getD k 0#16

/-- The reverse lookup `rev(T, c)` (R131): the index of `c` in the table, 0 where it has none (R130). -/
def rev (t : List Elem) (c : Elem) : Nat := if c ∈ t then t.idxOf c else 0

/-- The URI-safe decoder's space repair (R133). -/
def spaceRepair (c : Elem) : Elem := if c = 0x20#16 then 0x2B#16 else c

/-- The elements a unit value is written as, `encode_adp(u)` (R109). -/
def encodeUnit : Adapter → BitVec 16 → List Elem
  | .base64, u => [tabAt b64Tab u.toNat]
  | .uri, u => [tabAt uriTab u.toNat]
  | .utf16, u => [u + 32#16]
  | .plain, u => [u]
  | .bytes, u => [(u.extractLsb' 8 8).setWidth 16, (u.extractLsb' 0 8).setWidth 16]

/-- The value of input unit `i`, `decode_adp(i)`, over the input elements `IN` (R129 to R136). -/
def decodeUnit (adp : Adapter) (IN : Nat → Elem) (i : Nat) : BitVec 16 :=
  match adp with
  | .base64 => BitVec.ofNat 16 (rev b64Tab (IN i))
  | .uri => BitVec.ofNat 16 (rev uriTab (spaceRepair (IN i)))
  | .utf16 => (IN i - 32#16) &&& 0x7FFF#16
  | .plain => IN i
  | .bytes => ((IN (2 * i)).setWidth 8 ++ (IN (2 * i + 1)).setWidth 8 : BitVec 16)

/-- `len`, the number of Bit Reader units of a decompress command's input (R129, R201). -/
def unitCount : Adapter → Nat → Nat
  | .bytes, n => n / 2
  | .base64, n | .utf16, n | .uri, n | .plain, n => n

end Sys2Proof.Machine
end

