-- ==== Sys2Proof/Machine/Ops.lean ====
section
/-! DEFINITION. The named operations over memories and registers: the element memories (R62, R63), the
bus (R60, R61, R64 to R66), completion, which is what the block has in place of exception entry (R262, R266,
R269), its acknowledgement (R243, R270), and the resets (R245, R290). -/

namespace Sys2Proof.Machine

/-- The element a list of cells gives an index, if it lists it. -/
def cellsFind : List (Nat × Elem) → Nat → Option Elem
  | [], _ => none
  | (j, v) :: cs, i => if i = j then some v else cellsFind cs i

/-- Cells with the element at `i` set, the indices kept rising. -/
def cellsWrite : List (Nat × Elem) → Nat → Elem → List (Nat × Elem)
  | [], i, v => [(i, v)]
  | (j, u) :: cs, i, v =>
    if i < j then (i, v) :: (j, u) :: cs
    else if i = j then (i, v) :: cs
    else (j, u) :: cellsWrite cs i v

/-- The canonical form: strictly rising indices. An unlisted element has no value, so no entry equals
what an unlisted element reads as (log 2). -/
abbrev Mem.wf (m : Mem) : Prop := m.cells.Pairwise fun a b => a.1 < b.1

/-- The element at an index: the one written there, else the open value of the memory's generation
(R65, R290, U7, U8). -/
def Mem.read (m : Mem) (i : Nat) : Elem := (cellsFind m.cells i).getD (Config.openElem m.gen i)

/-- The memory with one element written. -/
def Mem.write (m : Mem) (i : Nat) (v : Elem) : Mem := { m with cells := cellsWrite m.cells i v }

/-- A memory whose every element is open, under a new generation number. -/
def Mem.opened (gen : Nat) : Mem := { gen := gen, cells := [] }

/-- A memory that keeps its elements below `n`; the others become open, under a new generation number. -/
def Mem.keepBelow (m : Mem) (n gen : Nat) : Mem :=
  { gen := gen, cells := m.cells.filter fun c => decide (c.1 < n) }

/-- The primitive `IN[i]` and a host read of IN_MEM's slot `i` (R62): a slot at or above IN_CAP reads 0. -/
def State.inElem (s : State) (i : Nat) : Elem :=
  if i < s.params.inCap then s.inMem.read i else 0#16

/-- The command's input `IN[0] .. IN[L_LEN-1]` (R62, R201). -/
def State.input (s : State) : Str := (List.range s.latch.len.toNat).map s.inElem

/-- The value of a STRING result, `OUT[0 .. OUT_LEN-1]` (R220). -/
def State.resultView (s : State) : Str := (List.range s.outLen.toNat).map s.outMem.read

/-- Free values of the engine's registers cut to the registers' widths (R31 to R35; log 5, log 15). -/
def Engine.clip (e : Engine) : Engine :=
  { oLen := e.oLen % 2 ^ 32
    w := { e.w with cnt := e.w.cnt % 2 ^ 5 }
    r := { e.r with len := e.r.len % 2 ^ 32, index := e.r.index % 2 ^ 32 }
    c := { e.c with nb := e.c.nb % 2 ^ 32, enl := e.c.enl % 2 ^ 32, next := e.c.next % 2 ^ 32,
                    pos := e.c.pos % 2 ^ 32 }
    d := { e.d with nb := e.d.nb % 2 ^ 32, enl := e.d.enl % 2 ^ 32, next := e.d.next % 2 ^ 32 } }

/-- The engine's registers where the spec leaves them unspecified (R43, R290, U9). -/
def freeEngine (ctr : Nat) : Engine := (Config.openEngine ctr).clip

/-- Completion with a result or an error, the one operation behind `finish` (R262) and `raise ERR` (R266):
OUT_LEN, the STATUS fields and ENG in one indivisible update. OUT_MEM keeps the elements of a STRING
result, and every element at or above OUT_LEN is open from here on (R65, U7); the engine's working
registers become unspecified (R43, U9). The latches stay (R31). WERR, CTRL, CMD, IN_LEN and IN_MEM are not
written. -/
def complete (res : Result) (s : State) : State :=
  { s with
    outLen := BitVec.ofNat 32 res.outLen
    status := s.status.completed res
    eng := .idle
    outMem := s.outMem.keepBelow res.outLen s.freeCtr
    engine := freeEngine s.freeCtr
    freeCtr := s.freeCtr + 1 }

/-- The acknowledgement of a completion (R243, R270): the CLEAR pulse. -/
def clearFlags (s : State) : State := { s with status := s.status.cleared }

/-- START's acceptance (R240): the command is latched, the completion fields and OUT_LEN are cleared, BUSY is
set and ENG is RUN. -/
def accept (s : State) : State :=
  { s with
    latch := { opc := s.cmd.opc, isNull := s.cmd.inNull, len := s.inLen }
    status := s.status.accepted
    outLen := 0#32
    eng := .run }

/-- The soft reset (R245): every host register 0, ENG IDLE, OUT_MEM open, the engine's registers and
latches unspecified; IN_MEM keeps its contents. -/
def softReset (s : State) : State :=
  { s with
    eng := .idle, irqEn := false, cmd := { opc := 0#4, inNull := false }, inLen := 0#32, outLen := 0#32
    status := Status.zero
    outMem := Mem.opened s.freeCtr
    latch := Config.openLatch s.freeCtr
    engine := freeEngine s.freeCtr
    freeCtr := s.freeCtr + 1 }

/-- The power-on reset asserted while the machine runs (R290, R293; log 22): the soft reset, and IN_MEM's
contents are lost. -/
def powerOn (s : State) : State :=
  { softReset s with inMem := Mem.opened (s.freeCtr + 1), freeCtr := s.freeCtr + 2 }

/-! ### The bus -/

/-- What a bus address names inside the window (R20, R60). -/
inductive Target where
  | reg (r : HostReg)
  | inSlot (i : Nat)
  | outSlot (i : Nat)
  | reserved
  deriving DecidableEq, Repr

/-- The byte offsets of the six registers (R20). -/
def regOffset : HostReg → Nat
  | .id => 0x000
  | .ctrl => 0x004
  | .cmd => 0x008
  | .inLen => 0x00C
  | .status => 0x010
  | .outLen => 0x014

/-- The target of the word at window offset `4 * w` (R20, R60, R66). -/
def targetOfWord (w : Nat) : Target :=
  if w < 0x04000000 then
    match w with
    | 0 => .reg .id
    | 1 => .reg .ctrl
    | 2 => .reg .cmd
    | 3 => .reg .inLen
    | 4 => .reg .status
    | 5 => .reg .outLen
    | _ => .reserved
  else if w < 0x08000000 then .inSlot (w - 0x04000000)
  else if w < 0x0C000000 then .outSlot (w - 0x08000000)
  else .reserved

/-- The target of a bus address, none outside the 1 GiB window (R60); address bits 1:0 are ignored
(R61). -/
def targetOf (p : Params) (addr : Word) : Option Target :=
  let off := (addr - p.base).toNat
  if off < 2 ^ 30 then some (targetOfWord (off / 4)) else none

/-- A host write to anything but CTRL (R21, R23 to R25, R28, R62 to R64, R66, R248). -/
def writeTarget (t : Target) (d : Word) (s : State) : State :=
  match t with
  | .reg .cmd =>
    if s.status.busy then { s with status := s.status.dropped } else { s with cmd := Cmd.ofWord d }
  | .reg .inLen =>
    if s.status.busy then { s with status := s.status.dropped } else { s with inLen := d }
  | .inSlot i =>
    if s.status.busy then { s with status := s.status.dropped }
    else if i < s.params.inCap then { s with inMem := s.inMem.write i (d.setWidth 16) }
    else s
  | .reg .id | .reg .ctrl | .reg .status | .reg .outLen | .outSlot _ | .reserved => s

/-- The word a host read returns (R21 to R25, R28, R62, R63, R65, R66). -/
def readValue (t : Target) (s : State) : Word :=
  match t with
  | .reg .id => Config.idValue
  | .reg .ctrl => ctrlWord s.irqEn
  | .reg .cmd => s.cmd.word
  | .reg .inLen => s.inLen
  | .reg .status => s.status.word
  | .reg .outLen => s.outLen
  | .inSlot i => (s.inElem i).setWidth 32
  | .outSlot i =>
    if i < s.params.outCap then
      (if s.status.busy then Config.openRead s.freeCtr else s.outMem.read i).setWidth 32
    else 0#32
  | .reserved => 0#32

/-- Whether a read draws a free value (R65): an OUT_MEM element while BUSY = 1. -/
def readDraws (t : Target) (s : State) : Bool :=
  match t with
  | .outSlot i => s.status.busy && decide (i < s.params.outCap)
  | .reg _ | .inSlot _ | .reserved => false

/-- A host read: it returns the word and has no side effect on the block (R71). -/
def readTarget (t : Target) (s : State) : State :=
  { s with rdata := readValue t s, freeCtr := if readDraws t s then s.freeCtr + 1 else s.freeCtr }

/-! ### What the engine writes while a command runs -/

/-- Why an engine run ends early: `return NULL with NCAUSE` or `raise ERR` (R12, R170). -/
inductive Stop where
  | null (c : NCause)
  | err (e : Err)
  deriving DecidableEq, Repr

/-- What the engine writes during a command: its registers and OUT_MEM. -/
structure Run where
  eng : Engine
  out : Mem
  deriving DecidableEq, Repr

/-- `OUT[O_LEN] <- v; O_LEN <- O_LEN + 1` (R63, R108, R173): OUT_FULL at or above OUT_CAP. -/
def putOut (p : Params) (v : Elem) (r : Run) : Except Stop Run :=
  if r.eng.oLen < p.outCap then
    .ok { eng := { r.eng with oLen := r.eng.oLen + 1 }, out := r.out.write r.eng.oLen v }
  else .error (.err .outFull)

/-- Several elements put out in order (R108, R173). -/
def putOuts (p : Params) : Str → Run → Except Stop Run
  | [], r => .ok r
  | v :: vs, r => do
    let r ← putOut p v r
    putOuts p vs r

/-- `grow()`, the code-width countdown on (ENL, NB) that both engines share (R143). -/
def grow (enl nb : Nat) : Nat × Nat :=
  if enl - 1 = 0 then (2 ^ nb, nb + 1) else (enl - 1, nb)

/-- `alloc()` and `allocD()` on the next free code (R148, R184): the code allocated, and the next one;
DICT_FULL at or above DICT_CAP. -/
def allocCode (p : Params) (next : Nat) : Except Stop (Nat × Nat) :=
  if next < p.dictCap then .ok (next, next + 1) else .error (.err .dictFull)

end Sys2Proof.Machine
end

