-- ==== Sys2Proof/Machine/BitWriter.lean ====
section
/-! DEFINITION. The Bit Writer (R100 to R113): the variable-width code emitter with alphabet-encode. -/

namespace Sys2Proof.Machine

/-- `writerInit(bpu)` (R101), with W_OUT = "" (R32). -/
def writerInit (bpu : Bpu) (r : Run) : Run :=
  { r with eng := { r.eng with oLen := 0, w := { bpu := bpu, acc := 0#16, cnt := 0, out := [] } } }

/-- `putUnit(u)` (R108): the unit's elements go to OUT_MEM; W_OUT records the unit (R32). -/
def putUnit (p : Params) (adp : Adapter) (u : BitVec 16) (r : Run) : Except Stop Run := do
  let r ← putOuts p (encodeUnit adp u) r
  pure { r with eng := { r.eng with w := { r.eng.w with out := r.eng.w.out ++ [u] } } }

/-- Shift one bit into W_ACC and put the unit out when it is full: the body of `emitBit` (R102) and of
one round of `flush` (R106). -/
def emitBit (p : Params) (adp : Adapter) (b : Bool) (r : Run) : Except Stop Run := do
  let acc := (r.eng.w.acc <<< 1) ||| (BitVec.ofBool b).setWidth 16
  if r.eng.w.cnt = r.eng.w.bpu.width - 1 then
    let r ← putUnit p adp acc r
    pure { r with eng := { r.eng with w := { r.eng.w with acc := 0#16, cnt := 0 } } }
  else
    pure { r with eng := { r.eng with w := { r.eng.w with acc := acc, cnt := r.eng.w.cnt + 1 } } }

/-- Several bits, the first first. -/
def emitBits (p : Params) (adp : Adapter) : List Bool → Run → Except Stop Run
  | [], r => .ok r
  | b :: bs, r => do
    let r ← emitBit p adp b r
    emitBits p adp bs r

/-- The `n` low bits of `v`, bit 0 first: a field's bits in stream order (R68). -/
def fieldBits (v n : Nat) : List Bool := (List.range n).map fun i => v.testBit i

/-- `emitCode(v, n)` (R104). -/
def emitCode (p : Params) (adp : Adapter) (v n : Nat) (r : Run) : Except Stop Run :=
  emitBits p adp (fieldBits v n) r

/-- A token at the current code width (R88): its code, then its payload (R105). -/
def emitToken (p : Params) (adp : Adapter) (nb : Nat) : Token → Run → Except Stop Run
  | .literal8 x, r => do
    let r ← emitCode p adp 0 nb r
    emitCode p adp x.toNat 8 r
  | .literal16 x, r => do
    let r ← emitCode p adp 1 nb r
    emitCode p adp x.toNat 16 r
  | .endOfStream, r => emitCode p adp 2 nb r
  | .dictCode k, r => emitCode p adp k nb r

/-- The loop of `flush()` (R106): zero bits until a unit is put out. Each round either ends it or raises
W_CNT, so `W_BPU` rounds are enough. -/
def flushLoop (p : Params) (adp : Adapter) : Nat → Run → Except Stop Run
  | 0, r => .ok r
  | n + 1, r => do
    let last := decide (r.eng.w.cnt = r.eng.w.bpu.width - 1)
    let r ← emitBit p adp false r
    if last then pure r else flushLoop p adp n r

/-- `flush()` (R106). -/
def flush (p : Params) (adp : Adapter) (r : Run) : Except Stop Run :=
  if r.eng.w.cnt = 0 ∧ p.flushAligned = .none then .ok r
  else flushLoop p adp r.eng.w.bpu.width r

end Sys2Proof.Machine
end

