-- ==== Sys2Proof/Machine/CompressEngine.lean ====
section
/-! DEFINITION. The Compress Engine (R140 to R152). -/

namespace Sys2Proof.Machine

/-- The code of a key in C_DICT, none where it is no key (R34, R38). -/
def codeOf : List (Str × Nat) → Str → Option Nat
  | [], _ => none
  | (k, n) :: d, s => if k = s then some n else codeOf d s

/-- A run with its Compress Engine registers replaced. -/
def Run.setC (r : Run) (c : Compressor) : Run := { r with eng := { r.eng with c := c } }

/-- `compressInit(bpu)` (R140). -/
def compressInit (bpu : Bpu) (r : Run) : Run :=
  (writerInit bpu r).setC
    { dict := [], pend := [], phrase := [], nb := 2, enl := 2, next := 3, pos := 0 }

/-- `register(c)` (R141). -/
def register (p : Params) (x : Elem) (c : Compressor) : Except Stop Compressor :=
  match codeOf c.dict [x] with
  | some _ => .ok c
  | none => do
    let (k, next) ← allocCode p c.next
    pure { c with dict := c.dict ++ [([x], k)], pend := c.pend ++ [[x]], next := next }

/-- `grow()` on (C_ENL, C_NB) (R143). -/
def Compressor.grown (c : Compressor) : Compressor :=
  { c with enl := (grow c.enl c.nb).1, nb := (grow c.enl c.nb).2 }

/-- The literal token of a character (R88, R144). -/
def literalOf (x : Elem) : Token := if x.toNat < 256 then .literal8 x else .literal16 x

/-- The token `emitPhrase()` writes (R144): the literal of a pending phrase's one character, else the
phrase's dictionary code. The phrase of a running command is a key (R36), so it has a code. -/
def phraseToken (c : Compressor) : Token :=
  if c.phrase ∈ c.pend then literalOf (c.phrase.headD 0#16)
  else .dictCode ((codeOf c.dict c.phrase).getD 0)

/-- The registers after `emitPhrase()` (R144): a pending phrase counts down twice and is no longer
pending, a dictionary code counts down once. -/
def Compressor.emitted (c : Compressor) : Compressor :=
  if c.phrase ∈ c.pend then { c.grown with pend := c.pend.erase c.phrase }.grown
  else c.grown

/-- `emitPhrase()` (R144). -/
def emitPhrase (p : Params) (adp : Adapter) (r : Run) : Except Stop Run := do
  let r' ← emitToken p adp r.eng.c.nb (phraseToken r.eng.c) r
  pure (r'.setC r.eng.c.emitted)

/-- `insertCandidate(cand, c)` (R146). -/
def insertCandidate (p : Params) (cand : Str) (x : Elem) (c : Compressor) : Except Stop Compressor := do
  let (k, next) ← allocCode p c.next
  pure { c with dict := c.dict ++ [(cand, k)], next := next, phrase := [x] }

/-- `extendOrEmit(c)` (R142). -/
def extendOrEmit (p : Params) (adp : Adapter) (x : Elem) (r : Run) : Except Stop Run :=
  let cand := r.eng.c.phrase ++ [x]
  match codeOf r.eng.c.dict cand with
  | some _ => .ok (r.setC { r.eng.c with phrase := cand })
  | none => do
    let r ← emitPhrase p adp r
    let c ← insertCandidate p cand x r.eng.c
    pure (r.setC c)

/-- One input character (R149). -/
def compressStep (p : Params) (adp : Adapter) (x : Elem) (r : Run) : Except Stop Run := do
  let c ← register p x r.eng.c
  let r ← extendOrEmit p adp x (r.setC c)
  pure (r.setC { r.eng.c with pos := r.eng.c.pos + 1 })

/-- The loop over the input (R149). -/
def compressLoop (p : Params) (adp : Adapter) : Str → Run → Except Stop Run
  | [], r => .ok r
  | x :: xs, r => do
    let r ← compressStep p adp x r
    compressLoop p adp xs r

/-- The first statement of `compressFinish()` (R147): the last phrase is emitted, unless there is none. -/
def emitLastPhrase (p : Params) (adp : Adapter) (r : Run) : Except Stop Run :=
  if r.eng.c.phrase ≠ [] then emitPhrase p adp r else .ok r

/-- `compressFinish()` (R147). -/
def compressFinish (p : Params) (adp : Adapter) (r : Run) : Except Stop Run := do
  let r ← emitLastPhrase p adp r
  let r ← emitToken p adp r.eng.c.nb .endOfStream r
  flush p adp r

/-- `compressCore(bpu)` on the input (R149). -/
def compressCore (p : Params) (adp : Adapter) (input : Str) (r : Run) : Except Stop Run := do
  let r ← compressLoop p adp input (compressInit adp.bpu r)
  compressFinish p adp r

end Sys2Proof.Machine
end

