-- ==== Sys2Proof/Machine/BitReader.lean ====
section
/-! DEFINITION. The Bit Reader (R120 to R128): the variable-width code reader. `fetch` is the adapter's
`decode_adp` over the command's input (R129). -/

namespace Sys2Proof.Machine

/-- `fetchUnit(i)` (R122): past the declared length it reads no memory and gives 0. -/
def fetchUnit (fetch : Nat → BitVec 16) (len i : Nat) : BitVec 16 :=
  if i < len then fetch i else 0#16

/-- `readerInit(bpu, len)` (R121). -/
def readerInit (fetch : Nat → BitVec 16) (bpu : Bpu) (len : Nat) : Reader :=
  { bpu := bpu
    reset := 1#16 <<< (bpu.width - 1)
    len := len
    val := fetchUnit fetch len 0
    mask := 1#16 <<< (bpu.width - 1)
    index := 1 }

/-- The Bit Reader has exhausted the declared input length (R126). -/
def Reader.exhausted (r : Reader) : Bool := decide (r.len < r.index)

/-- `readBit()` (R123, R127). -/
def readBit (p : Params) (fetch : Nat → BitVec 16) (r : Reader) : Except Stop (Bool × Reader) :=
  if r.exhausted ∧ p.pastEnd = .null then .error (.null .truncated)
  else
    let bit := decide (r.val &&& r.mask ≠ 0#16)
    let mask := r.mask >>> 1
    if mask = 0#16 then
      .ok (bit, { r with mask := r.reset, val := fetchUnit fetch r.len r.index, index := r.index + 1 })
    else .ok (bit, { r with mask := mask })

/-- The rounds `i, i+1, …` of `readBits`, `n` of them, over the bits gathered so far. -/
def readBitsFrom (p : Params) (fetch : Nat → BitVec 16) :
    Nat → Nat → Nat → Reader → Except Stop (Nat × Reader)
  | 0, _, acc, r => .ok (acc, r)
  | n + 1, i, acc, r => do
    let (b, r) ← readBit p fetch r
    readBitsFrom p fetch n (i + 1) (acc ||| (b.toNat <<< i)) r

/-- `readBits(n)` (R124): the first bit read is bit 0 of the result. -/
def readBits (p : Params) (fetch : Nat → BitVec 16) (n : Nat) (r : Reader) :
    Except Stop (Nat × Reader) :=
  readBitsFrom p fetch n 0 0 r

end Sys2Proof.Machine
end

