-- ==== Sys2Proof/Machine/DecompressEngine.lean ====
section
/-! DEFINITION. The Decompress Engine (R170 to R187). -/

namespace Sys2Proof.Machine

/-- The entry of a code in D_DICT (R35, R38). -/
def entryOf : List (Nat × Str) → Nat → Option Str
  | [], _ => none
  | (k, s) :: d, n => if k = n then some s else entryOf d n

/-- A run with its Decompress Engine registers replaced. -/
def Run.setD (r : Run) (d : Decompressor) : Run := { r with eng := { r.eng with d := d } }

/-- A run with its Bit Reader registers replaced. -/
def Run.setR (r : Run) (rd : Reader) : Run := { r with eng := { r.eng with r := rd } }

/-- `decompressInit(bpu, len)` (R171). D_WORD and D_ENTRY are written by the first token (R172); until
then the model holds "" in them. -/
def decompressInit (fetch : Nat → BitVec 16) (bpu : Bpu) (len : Nat) (r : Run) : Run :=
  { r with eng := { r.eng with
      oLen := 0
      r := readerInit fetch bpu len
      d := { dict := [], word := [], entry := [], nb := 3, enl := 4, next := 4 } } }

/-- `readBits(n)` on a run's Bit Reader (R124). -/
def runBits (p : Params) (fetch : Nat → BitVec 16) (n : Nat) (r : Run) : Except Stop (Nat × Run) := do
  let (v, rd) ← readBits p fetch n r.eng.r
  pure (v, r.setR rd)

/-- The literal payload of control code 0 (8 bits) or 1 (16 bits) (R172, R175). -/
def payload (p : Params) (fetch : Nat → BitVec 16) (code : Nat) (r : Run) : Except Stop (Elem × Run) := do
  let (x, r) ← runBits p fetch (if code = 0 then 8 else 16) r
  pure (BitVec.ofNat 16 x, r)

/-- `firstToken()` (R172): true when the run goes on, false when it returns "". -/
def firstToken (p : Params) (fetch : Nat → BitVec 16) (r : Run) : Except Stop (Bool × Run) := do
  let (t, r) ← runBits p fetch 2 r
  if t = 0 ∨ t = 1 then
    let (x, r) ← payload p fetch t r
    let r := r.setD { r.eng.d with dict := r.eng.d.dict ++ [(3, [x])], word := [x], entry := [x] }
    let r ← putOuts p [x] r
    pure (true, r)
  else pure (false, r)

/-- A new dictionary entry, its code allocated, and the countdown that follows it (R175, R179, R184):
the code and the registers. -/
def addEntry (p : Params) (e : Str) (d : Decompressor) : Except Stop (Nat × Decompressor) := do
  let (k, next) ← allocCode p d.next
  pure (k, { d with dict := d.dict ++ [(k, e)], next := next,
                    enl := (grow d.enl d.nb).1, nb := (grow d.enl d.nb).2 })

/-- A literal makes a new entry, whose code the iteration goes on with (R175). -/
def literalCode (p : Params) (fetch : Nat → BitVec 16) (code : Nat) (r : Run) :
    Except Stop (Nat × Run) := do
  if code = 0 ∨ code = 1 then
    let (x, r) ← payload p fetch code r
    let (k, d) ← addEntry p [x] r.eng.d
    pure (k, r.setD d)
  else pure (code, r)

/-- Dictionary lookup (R177, R178). Every code from 3 to D_NEXT - 1 has an entry (R37). -/
def lookupEntry (code : Nat) (d : Decompressor) : Except Stop Str :=
  if code < d.next then .ok ((entryOf d.dict code).getD [])
  else if code = d.next then .ok (d.word ++ [d.word.headD 0#16])
  else .error (.null .badCode)

/-- Emit the entry and register the next one (R179). -/
def emitEntry (p : Params) (r : Run) : Except Stop Run := do
  let r ← putOuts p r.eng.d.entry r
  let (_, d) ← addEntry p (r.eng.d.word ++ [r.eng.d.entry.headD 0#16]) r.eng.d
  pure (r.setD { d with word := r.eng.d.entry })

/-- One iteration of the loop (R174 to R179): false when the End marker was read (R176). -/
def decompressStep (p : Params) (fetch : Nat → BitVec 16) (r : Run) : Except Stop (Bool × Run) := do
  if r.eng.r.exhausted then .error (.null .truncated)
  else
    let (code, r) ← runBits p fetch r.eng.d.nb r
    if code = 2 then pure (false, r)
    else
      let (code, r) ← literalCode p fetch code r
      let entry ← lookupEntry code r.eng.d
      let r ← emitEntry p (r.setD { r.eng.d with entry := entry })
      pure (true, r)

/-- The loop (R180), with a bound on its iterations. A run never uses the bound up when it is the one of
`decompressCore` (R185; log 16). -/
def decompressLoop (p : Params) (fetch : Nat → BitVec 16) : Nat → Run → Except Stop Run
  | 0, _ => .error (.null .truncated)
  | n + 1, r => do
    let (goOn, r) ← decompressStep p fetch r
    if goOn then decompressLoop p fetch n r else pure r

/-- The greatest number of iterations of a run (R185): `floor(len · bpu / 3) + 1`. -/
def iterationBound (bpu : Bpu) (len : Nat) : Nat := len * bpu.width / 3 + 1

/-- `decompressCore(bpu, len)` (R180). -/
def decompressCore (p : Params) (fetch : Nat → BitVec 16) (bpu : Bpu) (len : Nat) (r : Run) :
    Except Stop Run := do
  let (goOn, r) ← firstToken p fetch (decompressInit fetch bpu len r)
  if goOn then decompressLoop p fetch (iterationBound bpu len) r else pure r

end Sys2Proof.Machine
end

