-- ==== Sys2Proof/Machine/Execute.lean ====
section
/-! DEFINITION. The common command procedure (R202 to R205): the null and empty contract, the engine run, the
adapter's framing, and the completion. The whole command is one indivisible transition (R6, R305; log 8). -/

namespace Sys2Proof.Machine

/-- `b64Pad()` (R203). -/
def b64Pad (p : Params) (r : Run) : Except Stop Run :=
  let m := r.eng.oLen % 4
  putOuts p (List.replicate (if m = 0 then 0 else 4 - m) 0x3D#16) r

/-- `u16Trailer()` (R204). -/
def u16Trailer (p : Params) (r : Run) : Except Stop Run := putOuts p [0x0020#16] r

/-- The adapter's framing after compression (R200, R205). -/
def compressFraming (p : Params) (adp : Adapter) (r : Run) : Except Stop Run :=
  match adp with
  | .base64 => b64Pad p r
  | .utf16 => u16Trailer p r
  | .uri | .bytes | .plain => .ok r

/-- The compress half of `execute()` for a non-NULL input (R205). -/
def runCompress (p : Params) (adp : Adapter) (input : Str) (r : Run) : Except Stop Run := do
  let r ← compressCore p adp input r
  compressFraming p adp r

/-- The decompress half of `execute()` for a non-NULL input of `n` elements (R202, R205, R217). -/
def runDecompress (p : Params) (adp : Adapter) (IN : Nat → Elem) (n : Nat) (r : Run) : Except Stop Run :=
  if n = 0 then .error (.null .emptyInput)
  else if adp = .bytes ∧ n % 2 = 1 then .error (.null .oddLength)
  else decompressCore p (decodeUnit adp IN) adp.bpu (unitCount adp n) r

/-- A command's end: `finish` or `raise ERR` for what its engine run gave (R205, R262, R266). What an
engine run that ends in NULL or an error wrote is not kept: its registers are unspecified from here on and
every OUT_MEM element is open (R65, R43). -/
def finishRun (s : State) : Except Stop Run → State
  | .ok r => complete (.str r.eng.oLen) { s with engine := r.eng, outMem := r.out }
  | .error (.null c) => complete (.null c) s
  | .error (.err e) => complete (.error e) s

/-- What a command starts its engine run from. -/
def State.run (s : State) : Run := { eng := s.engine, out := s.outMem }

/-- A command's end for the run its input would have (R202, R205, R240): a NULL input gives "" whatever
L_LEN is; a longer input than IN_CAP gives IN_LEN_RANGE before any engine runs (R267; log 12). -/
def execute (inNull : Bool) (run : Except Stop Run) (s : State) : State :=
  if inNull then complete (.str 0) s
  else if s.params.inCap < s.latch.len.toNat then complete (.error .inLenRange) s
  else finishRun s run

/-- A compress command of an adapter (R205 with DIR = 0). -/
def executeCompress (adp : Adapter) (inNull : Bool) (s : State) : State :=
  execute inNull (runCompress s.params adp s.input s.run) s

/-- A decompress command of an adapter (R205 with DIR = 1). -/
def executeDecompress (adp : Adapter) (inNull : Bool) (s : State) : State :=
  execute inNull (runDecompress s.params adp s.inElem s.latch.len.toNat s.run) s

end Sys2Proof.Machine
end

