-- ==== Sys2Proof/Machine/Compress.lean ====
section
/-! DEFINITION. The meanings of the five compress commands (R210, R212, R214, R216, R218), each over the common command procedure (R205). -/

namespace Sys2Proof.Machine

/-- `CMP_B64` (R210). -/
def execCmpB64 (inNull : Bool) (s : State) : Host.Outcome State Fault Refusal :=
  .next (executeCompress .base64 inNull s)

/-- `CMP_U16` (R212). -/
def execCmpU16 (inNull : Bool) (s : State) : Host.Outcome State Fault Refusal :=
  .next (executeCompress .utf16 inNull s)

/-- `CMP_URI` (R214). -/
def execCmpUri (inNull : Bool) (s : State) : Host.Outcome State Fault Refusal :=
  .next (executeCompress .uri inNull s)

/-- `CMP_U8A` (R216). -/
def execCmpU8a (inNull : Bool) (s : State) : Host.Outcome State Fault Refusal :=
  .next (executeCompress .bytes inNull s)

/-- `CMP_STR` (R218). -/
def execCmpStr (inNull : Bool) (s : State) : Host.Outcome State Fault Refusal :=
  .next (executeCompress .plain inNull s)

end Sys2Proof.Machine
end

