-- ==== Sys2Proof/Machine/Control.lean ====
section
/-! DEFINITION. The meanings of the four control operations (R240, R243, R245, R246), in the order R247 gives
the operations of one CTRL write. -/

namespace Sys2Proof.Machine

/-- `CTRL.IRQ_EN <- v[8]` (R246). -/
def setIrqEn (irqEn : Bool) (s : State) : State := { s with irqEn := irqEn }

/-- The `start()` of R240. A reserved OPC completes with its error at once (R84, U1); every other accepted
command, one whose input is too long included, ends at the engine's turn (R241, R305, U10; log 12). -/
def startCommand (s : State) : State :=
  if s.status.busy then { s with status := s.status.dropped }
  else if 0xA ≤ (accept s).latch.opc.toNat then complete (.error .illegalCmd) (accept s)
  else accept s

/-- `START` (R240), after the IRQ_EN write and the CLEAR of the same CTRL word (R247). -/
def execStart (irqEn clear : Bool) (s : State) : Host.Outcome State Fault Refusal :=
  .next (startCommand (if clear then clearFlags (setIrqEn irqEn s) else setIrqEn irqEn s))

/-- `CLEAR` (R243), after the IRQ_EN write (R247). -/
def execClear (irqEn : Bool) (s : State) : Host.Outcome State Fault Refusal :=
  .next (clearFlags (setIrqEn irqEn s))

/-- `SRESET` (R245); bits 0, 1 and 8 of the word are ignored (R247). -/
def execSreset (_irqEn _start _clear : Bool) (s : State) : Host.Outcome State Fault Refusal :=
  .next (softReset s)

/-- `IRQCFG` (R246). -/
def execIrqcfg (irqEn : Bool) (s : State) : Host.Outcome State Fault Refusal :=
  .next (setIrqEn irqEn s)

end Sys2Proof.Machine
end

