-- ==== Sys2Proof/Machine/Decompress.lean ====
section
/-! DEFINITION. The meanings of the five decompress commands (R211, R213, R215, R217, R219), each over the common command procedure (R205). -/

namespace Sys2Proof.Machine

/-- `DEC_B64` (R211). -/
def execDecB64 (inNull : Bool) (s : State) : Host.Outcome State Fault Refusal :=
  .next (executeDecompress .base64 inNull s)

/-- `DEC_U16` (R213). -/
def execDecU16 (inNull : Bool) (s : State) : Host.Outcome State Fault Refusal :=
  .next (executeDecompress .utf16 inNull s)

/-- `DEC_URI` (R215). -/
def execDecUri (inNull : Bool) (s : State) : Host.Outcome State Fault Refusal :=
  .next (executeDecompress .uri inNull s)

/-- `DEC_U8A` (R217). -/
def execDecU8a (inNull : Bool) (s : State) : Host.Outcome State Fault Refusal :=
  .next (executeDecompress .bytes inNull s)

/-- `DEC_STR` (R219). -/
def execDecStr (inNull : Bool) (s : State) : Host.Outcome State Fault Refusal :=
  .next (executeDecompress .plain inNull s)

end Sys2Proof.Machine
end

