-- ==== Sys2Proof/Machine/Dispatch.lean ====
section
/-! DEFINITION. The dispatch of an instruction to its meaning (R83, R85), one arm per constructor. -/

namespace Sys2Proof.Machine

def exec (i : Instr) (s : State) : Host.Outcome State Fault Refusal :=
  match i with
  | .cmpB64 inNull => Sys2Proof.Machine.execCmpB64 inNull s
  | .decB64 inNull => Sys2Proof.Machine.execDecB64 inNull s
  | .cmpU16 inNull => Sys2Proof.Machine.execCmpU16 inNull s
  | .decU16 inNull => Sys2Proof.Machine.execDecU16 inNull s
  | .cmpUri inNull => Sys2Proof.Machine.execCmpUri inNull s
  | .decUri inNull => Sys2Proof.Machine.execDecUri inNull s
  | .cmpU8a inNull => Sys2Proof.Machine.execCmpU8a inNull s
  | .decU8a inNull => Sys2Proof.Machine.execDecU8a inNull s
  | .cmpStr inNull => Sys2Proof.Machine.execCmpStr inNull s
  | .decStr inNull => Sys2Proof.Machine.execDecStr inNull s
  | .start irqEn clear => Sys2Proof.Machine.execStart irqEn clear s
  | .clear irqEn => Sys2Proof.Machine.execClear irqEn s
  | .sreset irqEn start clear => Sys2Proof.Machine.execSreset irqEn start clear s
  | .irqcfg irqEn => Sys2Proof.Machine.execIrqcfg irqEn s

end Sys2Proof.Machine
end

