-- ==== Sys2Proof/Machine/Turns.lean ====
section
/-! DEFINITION. What one turn of each agent does: the engine's (R83, R205, R241), the host's bus access (R60,
R61, R72), and the placing of an instruction where the next step takes it from. -/

namespace Sys2Proof.Machine

/-- The CMD word of a latched command (R31, R80): what the engine decodes. -/
def Latch.word (l : Latch) : Word := (Cmd.mk l.opc l.isNull).word

/-- The engine's turn: a running command runs to its completion, as one indivisible step (R6, R268); an
idle engine does nothing (R292). A reserved opcode never gets here, for START completes it (R84); it would
end with R83's error. -/
def engineTurn (s : State) : Host.Outcome State Fault Refusal :=
  match s.eng with
  | .idle => .next s
  | .run =>
    match decode .cmd s.latch.word with
    | .ok i => exec i s
    | .error _ => .next (complete (.error .illegalCmd) s)

/-- A host access (R61, R72): a CTRL write is an instruction of format CTRL (R85); any other access is a
plain register or memory access. An address outside the window is not the block's (R60; log 14). -/
def hostTurn (x : Access) (s : State) : Host.Outcome State Fault Refusal :=
  match x with
  | .write a d =>
    match targetOf s.params a with
    | none => .fault (.outsideWindow a)
    | some (.reg .ctrl) => exec (decodeCtrl d) s
    | some t => .next (writeTarget t d s)
  | .read a =>
    match targetOf s.params a with
    | none => .fault (.outsideWindow a)
    | some t => .next (readTarget t s)

/-- The bus address of a register (R20, R86). -/
def regAddr (p : Params) (r : HostReg) : Word := p.base + BitVec.ofNat 32 (regOffset r)

/-- The bus address of IN_MEM's slot `i` (R60). -/
def inAddr (p : Params) (i : Nat) : Word := p.base + 0x10000000#32 + BitVec.ofNat 32 (4 * i)

/-- The bus address of OUT_MEM's slot `i` (R60). -/
def outAddr (p : Params) (i : Nat) : Word := p.base + 0x20000000#32 + BitVec.ofNat 32 (4 * i)

/-- The state whose next step runs the CTRL word `w`: the host's write of it is the next turn. -/
def placeCtrl (w : Word) (s : State) : State :=
  { s with turns := .host (.write (regAddr s.params .ctrl) w) :: s.turns }

/-- The state whose next step runs the CMD word `w`: CMD holds it, START has been accepted, and the next
turn is the engine's. -/
def placeCmd (w : Word) (s : State) : State :=
  { accept { s with cmd := Cmd.ofWord w } with turns := .engine :: s.turns }

end Sys2Proof.Machine
end

