-- ==== Sys2Proof/Machine/Step.lean ====
section
/-! DEFINITION. One step of the block: the next turn (R15, R72, R268, R293). -/

namespace Sys2Proof.Machine

/-- One step takes the next turn. With no turn left the host is silent and the turn is the engine's, so
every BUSY period is finite (R305; log 8). -/
def step (s : State) : Host.Outcome State Fault Refusal :=
  match s.turns with
  | [] => engineTurn s
  | .engine :: ts => engineTurn { s with turns := ts }
  | .host x :: ts => hostTurn x { s with turns := ts }
  | .rst :: ts => .next (powerOn { s with turns := ts })

/-- `s` with an opcode-table word placed where the next step takes its instruction from (log 9, log 10). -/
def State.withFetchWord (s : State) (nbits w : Nat) : State :=
  match tableFormat nbits w with
  | .cmd => placeCmd (BitVec.ofNat 32 w) s
  | .ctrl => placeCtrl (BitVec.ofNat 32 w) s

end Sys2Proof.Machine
end

