-- ==== Sys2Proof/Machine/HostProgram.lean ====
section
/-! DEFINITION. Host programs (R86, R87): each statement as the turns it stands for, each pseudo-instruction as
its statements. -/

namespace Sys2Proof.Machine

/-- A statement's turns (R86). `WAIT DONE` is the polls that read DONE = 0, then the completion, then the
poll that reads DONE = 1 (log 19). -/
def stmtTurns (p : Params) : Stmt → List Turn
  | .wr r v => [.host (.write (regAddr p r) v)]
  | .wrIn i v => [.host (.write (inAddr p i) v)]
  | .rd r => [.host (.read (regAddr p r))]
  | .rdOut i => [.host (.read (outAddr p i))]
  | .waitDone n =>
    List.replicate n (.host (.read (regAddr p .status))) ++
      [.engine, .host (.read (regAddr p .status))]

/-- `LOADS s` from element `i` on (R87). -/
def loadStmts : Nat → Str → List Stmt
  | _, [] => []
  | i, x :: xs => .wrIn i (x.setWidth 32) :: loadStmts (i + 1) xs

/-- A pseudo-instruction's expansion (R87). -/
def expand : Pseudo → List Stmt
  | .run opc n polls => [.wr .cmd (opc.setWidth 32), .wr .inLen n, .wr .ctrl 0x1#32, .waitDone polls]
  | .runNull opc polls => [.wr .cmd (opc.setWidth 32 ||| 0x10#32), .wr .ctrl 0x1#32, .waitDone polls]
  | .clear => [.wr .ctrl 0x2#32]
  | .sreset => [.wr .ctrl 0x4#32]
  | .loads s => loadStmts 0 s

/-- A program's turns, in order. -/
def programTurns (p : Params) (prog : List Stmt) : List Turn := prog.flatMap (stmtTurns p)

/-- The state with a host program's turns to come. -/
def State.withProgram (s : State) (prog : List Stmt) : State :=
  { s with turns := programTurns s.params prog }

end Sys2Proof.Machine
end

