-- ==== Sys2Proof/Safety.lean ====
section
/-! DEFINITION. The terms claims are made in: the invariant of the machine (R29, R31, R36, R37, R112, R182),
the outcomes of a command (R260), and what a command or an access leaves alone. -/

namespace Sys2Proof.Machine

/-! ### The machine's invariant -/

/-- The STATUS invariants (R29), with CLEAR's exception: after a CLEAR, RES_NULL = 1 no longer means
DONE = 1. -/
def StatusInv (st : Status) (outLen : Word) : Prop :=
  (st.busy = true → st.done = false ∧ st.resNull = false ∧ st.err = .none ∧ st.ncause = .none ∧ outLen = 0#32) ∧
  (st.resNull = true → st.err = .none ∧ st.ncause ≠ .none ∧ outLen = 0#32) ∧
  (st.err ≠ .none → st.done = true ∧ st.resNull = false ∧ st.ncause = .none ∧ outLen = 0#32) ∧
  (st.ncause ≠ .none → st.resNull = true)

/-- Every engine register is within the width R31 to R35 give it (log 15). -/
def Engine.fits (e : Engine) : Prop :=
  e.oLen < 2 ^ 32 ∧ e.w.cnt < 2 ^ 5 ∧ e.r.len < 2 ^ 32 ∧ e.r.index < 2 ^ 32 ∧
  e.c.nb < 2 ^ 32 ∧ e.c.enl < 2 ^ 32 ∧ e.c.next < 2 ^ 32 ∧ e.c.pos < 2 ^ 32 ∧
  e.d.nb < 2 ^ 32 ∧ e.d.enl < 2 ^ 32 ∧ e.d.next < 2 ^ 32

/-- Every listed element of a memory lies below its capacity (R62, R63). -/
def Mem.below (m : Mem) (cap : Nat) : Prop := ∀ c ∈ m.cells, c.1 < cap

/-- The invariant of the machine. -/
structure Inv (s : State) : Prop where
  /-- the parameters are in the ranges of R7 -/
  params : s.params.wf = true
  /-- the STATUS invariants (R29) -/
  status : StatusInv s.status s.outLen
  /-- ENG is RUN exactly when STATUS.BUSY = 1 (R31) -/
  engRun : s.eng = .run ↔ s.status.busy = true
  /-- a running command is legal (R84, R240) -/
  latch : s.eng = .run → s.latch.opc.toNat < 0xA
  /-- the engine's registers keep their widths -/
  widths : s.engine.fits
  /-- a result is no longer than OUT_MEM (R63) -/
  outLen : s.outLen.toNat ≤ s.params.outCap
  /-- IN_MEM is canonical and inside its capacity -/
  inMem : s.inMem.wf ∧ s.inMem.below s.params.inCap
  /-- OUT_MEM is canonical and inside its capacity -/
  outMem : s.outMem.wf ∧ s.outMem.below s.params.outCap
  /-- the generation numbers in use have been drawn already (log 2) -/
  fresh : s.inMem.gen < s.freeCtr ∧ s.outMem.gen < s.freeCtr

/-! ### Commands and their outcomes -/

/-- The compress command of an adapter (R81). -/
def compressOf : Adapter → Bool → Instr
  | .base64, n => .cmpB64 n
  | .utf16, n => .cmpU16 n
  | .uri, n => .cmpUri n
  | .bytes, n => .cmpU8a n
  | .plain, n => .cmpStr n

/-- The decompress command of an adapter (R81). -/
def decompressOf : Adapter → Bool → Instr
  | .base64, n => .decB64 n
  | .utf16, n => .decU16 n
  | .uri, n => .decUri n
  | .bytes, n => .decU8a n
  | .plain, n => .decStr n

/-- The STATUS fields of a completion, WERR aside (R260). -/
def completedWith (t : State) (resNull : Bool) (err : Err) (ncause : NCause) : Prop :=
  t.status.busy = false ∧ t.status.done = true ∧ t.status.resNull = resNull ∧ t.status.err = err ∧
    t.status.ncause = ncause ∧ t.eng = .idle

/-- The STRING outcome with the elements `v` (R220, R260). -/
def endsString (t : State) (v : Str) : Prop :=
  completedWith t false .none .none ∧ t.outLen.toNat = v.length ∧ t.resultView = v

/-- The NULL outcome with its cause (R260). -/
def endsNull (t : State) (c : NCause) : Prop := completedWith t true .none c ∧ t.outLen = 0#32

/-- The ERROR outcome with its code (R260). -/
def endsError (t : State) (e : Err) : Prop := completedWith t false e .none ∧ t.outLen = 0#32

/-- What no command changes: the parameters, CTRL, CMD, IN_LEN, WERR, every element of IN_MEM, and the
model's own inputs (R62, R262). That the latches stay too is log 20 (R31, against R43 and U9). -/
def commandFrame (s t : State) : Prop :=
  t.params = s.params ∧ t.irqEn = s.irqEn ∧ t.cmd = s.cmd ∧ t.inLen = s.inLen ∧
  t.status.werr = s.status.werr ∧ t.latch = s.latch ∧ (∀ i, t.inMem.read i = s.inMem.read i) ∧
  t.rdata = s.rdata ∧ t.turns = s.turns

/-- The command's input is the sequence `v`, which fits IN_MEM (R62, R201). -/
def hasInput (s : State) (v : Str) : Prop :=
  s.latch.len.toNat = v.length ∧ v.length ≤ s.params.inCap ∧ ∀ i (h : i < v.length), s.inElem i = v[i]

/-- A compress result without its framing and its last unit (R109, R200, R203, R204). -/
def withoutLastUnit (adp : Adapter) (v : Str) : Str :=
  match adp with
  | .base64 => (v.filter (· ≠ 0x3D#16)).dropLast
  | .utf16 | .bytes => v.dropLast.dropLast
  | .uri | .plain => v.dropLast

/-- Two states that agree on everything R206 lets a command depend on: the parameters it names and the
input. -/
def sameInput (s t : State) : Prop :=
  s.params.inCap = t.params.inCap ∧ s.params.outCap = t.params.outCap ∧
  s.params.dictCap = t.params.dictCap ∧ s.params.pastEnd = t.params.pastEnd ∧
  s.params.flushAligned = t.params.flushAligned ∧ s.latch.len = t.latch.len ∧
  ∀ i, i < s.latch.len.toNat → s.inElem i = t.inElem i

/-- OUT_MEM elements that are enough for a compress command on `n` characters (R209): at most `46·n + 30`
stream bits, one unit more for a flush, two elements a unit for the byte array, and the framing. -/
def outNeeded (adp : Adapter) (n : Nat) : Nat :=
  (match adp with
    | .bytes => 2
    | .base64 | .utf16 | .uri | .plain => 1) * ((46 * n + 30) / adp.bpu.width + 1) + 3

/-! ### The engines -/

/-- The Bit Reader stands at stream bit `j` of the units `fetch` (R125). -/
def readerAt (fetch : Nat → BitVec 16) (bpu : Bpu) (len j : Nat) : Reader :=
  { bpu := bpu
    reset := 1#16 <<< (bpu.width - 1)
    len := len
    val := fetchUnit fetch len (j / bpu.width)
    mask := 1#16 <<< (bpu.width - 1 - j % bpu.width)
    index := 1 + j / bpu.width }

/-- The writer invariant (R112). -/
def Writer.inv (w : Writer) : Prop :=
  w.cnt ≤ w.bpu.width - 1 ∧ w.acc.toNat < 2 ^ w.cnt ∧ ∀ u ∈ w.out, u.toNat < 2 ^ w.bpu.width

/-- The compress dictionary invariants (R36), with R150's pending set and R34's code range: the codes are
3, 4, … in the order of the entries, no key occurs twice, the key set is closed under dropping the last
element, pending keys are one-element keys, and the phrase is "" or a key. -/
def Compressor.inv (c : Compressor) : Prop :=
  c.dict.map Prod.snd = (List.range (c.next - 3)).map (· + 3) ∧ 3 ≤ c.next ∧
  (c.dict.map Prod.fst).Nodup ∧ (∀ s ∈ c.dict.map Prod.fst, s ≠ []) ∧
  (∀ s ∈ c.dict.map Prod.fst, 2 ≤ s.length → s.dropLast ∈ c.dict.map Prod.fst) ∧
  (∀ s ∈ c.pend, s.length = 1 ∧ s ∈ c.dict.map Prod.fst) ∧
  (c.phrase = [] ∨ c.phrase ∈ c.dict.map Prod.fst)

/-- The decompress dictionary invariants (R37) and the countdown invariant (R182): the codes are 3, 4, …
in the order of the entries, no entry is empty, a longer entry extends an earlier one by one element, D_WORD
is an entry, and `D_ENL = 2^D_NB - D_NEXT ≥ 1`. -/
def Decompressor.inv (d : Decompressor) : Prop :=
  d.dict.map Prod.fst = (List.range (d.next - 3)).map (· + 3) ∧ 4 ≤ d.next ∧
  (∀ s ∈ d.dict.map Prod.snd, s ≠ []) ∧
  (∀ e ∈ d.dict, 2 ≤ e.2.length → ∃ b ∈ d.dict, b.1 < e.1 ∧ ∃ x, e.2 = b.2 ++ [x]) ∧
  d.word ∈ d.dict.map Prod.snd ∧
  d.enl + d.next = 2 ^ d.nb ∧ 1 ≤ d.enl ∧ 3 ≤ d.nb

end Sys2Proof.Machine
end

