-- ==== Sys2Proof/Certificates/Slice0/Obligations.lean ====
section
/-! DEFINITION. The statements for the provers. Each docstring names the rule of spec/ it formalises; a clause
that rests on the model's own choice names its log entry. -/

open Sys2Proof Sys2Proof.Machine

/-! ### Encoding and the step -/

/-- Decode and encode agree (R80 to R85): decoding an instruction's word gives it back, and a word decodes
to an instruction exactly when its format is the instruction's and its significant bits are the
instruction's word. -/
def Obligations.DecodeEncodeAgree : Prop :=
  (∀ i : Instr, decode (formatOf i) (encode i) = .ok i) ∧
  ∀ (f : Format) (w : Word) (i : Instr),
    decode f w = .ok i ↔ formatOf i = f ∧ encode i = w &&& significantBits f

/-- R83, R84: a CMD word is rejected exactly when its OPC field is reserved (0xA to 0xF); every CTRL word
is an instruction. -/
def Obligations.ReservedOpcodesRejected : Prop :=
  (∀ w : Word, (∃ e, decode .cmd w = .error e) ↔ 0xA ≤ w.toNat % 16) ∧
  ∀ w : Word, ∃ i, decode .ctrl w = .ok i

/-- R81, R85: words written out from the encoding tables decode to the instructions they stand for. -/
def Obligations.SpecWordsDecode : Prop :=
  decode .cmd 0x00000000#32 = .ok (.cmpB64 false) ∧ decode .cmd 0x00000011#32 = .ok (.decB64 true) ∧
  decode .cmd 0x00000009#32 = .ok (.decStr false) ∧ decode .ctrl 0x00000101#32 = .ok (.start true false) ∧
  decode .ctrl 0x00000003#32 = .ok (.start false true) ∧ decode .ctrl 0x00000102#32 = .ok (.clear true) ∧
  decode .ctrl 0x00000007#32 = .ok (.sreset false true true) ∧
  decode .ctrl 0x00000100#32 = .ok (.irqcfg true)

/-- A step runs the decoded instruction (R83, R85): the latched command at the engine's turn (also the turn
of a silent host; log 8), and the written CTRL word at the host's. The step removes its turn and adds
nothing else. -/
def Obligations.StepRunsDecodedInstruction : Prop :=
  ∀ (s : State) (i : Instr) (ts : List Turn),
    (s.eng = .run → decode .cmd s.latch.word = .ok i → s.turns = .engine :: ts →
      step s = exec i { s with turns := ts }) ∧
    (s.eng = .run → decode .cmd s.latch.word = .ok i → s.turns = [] → step s = exec i s) ∧
    (∀ a d, s.turns = .host (.write a d) :: ts → targetOf s.params a = some (.reg .ctrl) →
      decode .ctrl d = .ok i → step s = exec i { s with turns := ts })

/-- The word placed by `withFetchWord` is the instruction the very next step runs (log 9, log 10): a CTRL
word in the state itself, a CMD word in the state in which it has been written to CMD and accepted. -/
def Obligations.PlacedWordRunsNext : Prop :=
  ∀ (s : State) (nbits w : Nat) (i : Instr), s.params.wf = true → decodeTableWord nbits w = some i →
    step (s.withFetchWord nbits w) = exec i
      (match formatOf i with
        | .ctrl => s
        | .cmd => accept { s with cmd := Cmd.ofWord (BitVec.ofNat 32 w) })

/-! ### The bus, the host registers and the memories -/

/-- R21: ID reads as its constant in every state, and a write to it is ignored. -/
def Obligations.IdIsConstant : Prop :=
  ∀ (s : State) (d : Word) (ts : List Turn), s.params.wf = true →
    step { s with turns := .host (.read (s.params.base + 0x000#32)) :: ts } =
      .next { s with turns := ts, rdata := 0x4C5A5701#32 } ∧
    step { s with turns := .host (.write (s.params.base + 0x000#32) d) :: ts } = .next { s with turns := ts }

/-- R22 to R25, R28, R71: what a read of CTRL, CMD, IN_LEN, STATUS and OUT_LEN returns, with every reserved
and pulse bit 0, and that it changes nothing else. -/
def Obligations.RegisterReads : Prop :=
  ∀ (s : State) (ts : List Turn), s.params.wf = true →
    (∀ off v, (off, v) ∈ [
        (0x004, 256 * s.irqEn.toNat),
        (0x008, s.cmd.opc.toNat + 16 * s.cmd.inNull.toNat),
        (0x00C, s.inLen.toNat),
        (0x010, s.status.busy.toNat + 2 * s.status.done.toNat + 4 * s.status.resNull.toNat +
          8 * s.status.werr.toNat + 16 * s.status.err.code.toNat + 256 * s.status.ncause.code.toNat),
        (0x014, s.outLen.toNat)] →
      step { s with turns := .host (.read (s.params.base + BitVec.ofNat 32 off)) :: ts } =
        .next { s with turns := ts, rdata := BitVec.ofNat 32 v })

/-- R64: while BUSY = 1 a host write to CMD, to IN_LEN or to any slot of the IN_MEM window (log 13 for the
slots at or above IN_CAP) is dropped and sets WERR; nothing else changes. -/
def Obligations.BusyWritesDropped : Prop :=
  ∀ (s : State) (d : Word) (i : Nat) (ts : List Turn), s.params.wf = true → s.status.busy = true →
    i < 2 ^ 26 →
    ∀ a ∈ [s.params.base + 0x008#32, s.params.base + 0x00C#32,
           s.params.base + 0x10000000#32 + BitVec.ofNat 32 (4 * i)],
      step { s with turns := .host (.write a d) :: ts } =
        .next { s with turns := ts, status := { s.status with werr := true } }

/-- R23, R24: while BUSY = 0 a write to CMD stores bits 3:0 and 4 and a write to IN_LEN the whole word;
nothing else changes. -/
def Obligations.IdleRegisterWrites : Prop :=
  ∀ (s : State) (d : Word) (ts : List Turn), s.params.wf = true → s.status.busy = false →
    step { s with turns := .host (.write (s.params.base + 0x008#32) d) :: ts } =
      .next { s with turns := ts, cmd := { opc := BitVec.ofNat 4 d.toNat, inNull := d.toNat.testBit 4 } } ∧
    step { s with turns := .host (.write (s.params.base + 0x00C#32) d) :: ts } =
      .next { s with turns := ts, inLen := d }

/-- R62: while BUSY = 0 a host write to the slot of element `i` stores bits 15:0 of the data below IN_CAP
and is ignored at or above it. A host read of the slot then returns the element zero-extended, or 0. Every
other element of IN_MEM, and everything else, is as it was. -/
def Obligations.InMemWriteThenRead : Prop :=
  ∀ (s : State) (d : Word) (i : Nat) (ts : List Turn), s.params.wf = true → s.status.busy = false →
    i < 2 ^ 26 →
    let a := s.params.base + 0x10000000#32 + BitVec.ofNat 32 (4 * i)
    ∃ t u, step { s with turns := .host (.write a d) :: .host (.read a) :: ts } = .next t ∧
      step t = .next u ∧
      u.rdata = (if i < s.params.inCap then BitVec.ofNat 32 (d.toNat % 2 ^ 16) else 0#32) ∧
      (∀ j, j ≠ i ∨ s.params.inCap ≤ i → u.inMem.read j = s.inMem.read j) ∧
      u = { s with turns := ts, rdata := u.rdata, inMem := u.inMem }

/-- R63, R65: a host read of the slot of element `i` of OUT_MEM returns the element zero-extended while
BUSY = 0, a value the model leaves open, drawn afresh, while BUSY = 1, and 0 at or above OUT_CAP; a host
write to the window is ignored and does not set WERR. -/
def Obligations.OutMemWindow : Prop :=
  ∀ (s : State) (d : Word) (i : Nat) (ts : List Turn), s.params.wf = true → i < 2 ^ 26 →
    let a := s.params.base + 0x20000000#32 + BitVec.ofNat 32 (4 * i)
    step { s with turns := .host (.write a d) :: ts } = .next { s with turns := ts } ∧
    (s.params.outCap ≤ i → step { s with turns := .host (.read a) :: ts } =
      .next { s with turns := ts, rdata := 0#32 }) ∧
    (i < s.params.outCap → s.status.busy = false → step { s with turns := .host (.read a) :: ts } =
      .next { s with turns := ts, rdata := (s.outMem.read i).setWidth 32 }) ∧
    (i < s.params.outCap → s.status.busy = true → step { s with turns := .host (.read a) :: ts } =
      .next { s with turns := ts, rdata := (Config.openRead s.freeCtr).setWidth 32,
                     freeCtr := s.freeCtr + 1 })

/-- R66: reserved space reads 0 and ignores writes, and a write there does not set WERR. -/
def Obligations.ReservedSpaceInert : Prop :=
  ∀ (s : State) (a d : Word) (ts : List Turn), s.params.wf = true →
    (0x018 ≤ (a - s.params.base).toNat ∧ (a - s.params.base).toNat ≤ 0x0FFFFFFF ∨
      0x30000000 ≤ (a - s.params.base).toNat ∧ (a - s.params.base).toNat ≤ 0x3FFFFFFF) →
    step { s with turns := .host (.write a d) :: ts } = .next { s with turns := ts } ∧
    step { s with turns := .host (.read a) :: ts } = .next { s with turns := ts, rdata := 0#32 }

/-- R20, R25, R28: the read-only registers STATUS and OUT_LEN ignore writes. -/
def Obligations.ReadOnlyRegistersIgnoreWrites : Prop :=
  ∀ (s : State) (d : Word) (ts : List Turn), s.params.wf = true →
    ∀ a ∈ [s.params.base + 0x010#32, s.params.base + 0x014#32],
      step { s with turns := .host (.write a d) :: ts } = .next { s with turns := ts }

/-- R61: address bits 1:0 are ignored, and every access inside the window completes. An access outside it
is not the block's, and the model stops by name there (R60; log 14). -/
def Obligations.WindowAccessesComplete : Prop :=
  ∀ (s : State) (a d : Word) (ts : List Turn), s.params.wf = true →
    targetOf s.params a = targetOf s.params (a &&& 0xFFFFFFFC#32) ∧
    ((a - s.params.base).toNat < 2 ^ 30 →
      (∃ t, step { s with turns := .host (.write a d) :: ts } = .next t) ∧
      ∃ t, step { s with turns := .host (.read a) :: ts } = .next t) ∧
    (2 ^ 30 ≤ (a - s.params.base).toNat →
      step { s with turns := .host (.write a d) :: ts } = .fault (.outsideWindow a) ∧
      step { s with turns := .host (.read a) :: ts } = .fault (.outsideWindow a))

/-! ### The Bit Writer, the Bit Reader and the alphabets -/

/-- R102, R103, R108, R112: bits emitted from `writerInit` are packed MSB-first. Bit `j` is at position
`W - 1 - j mod W` of unit `j div W`; the bits of the last, partial unit are in W_ACC; the writer invariant
holds; and OUT_MEM holds the units' elements from index 0. -/
def Obligations.WriterPacksMsbFirst : Prop :=
  ∀ (p : Params) (adp : Adapter) (bs : List Bool) (r₀ r : Run),
    emitBits p adp bs (writerInit adp.bpu r₀) = .ok r →
    let W := adp.bpu.width
    let w := r.eng.w
    w.out.length = bs.length / W ∧ w.cnt = bs.length % W ∧ w.inv ∧
    (∀ j (h : j < bs.length), bs[j] =
      if j / W < w.out.length then (w.out.getD (j / W) 0#16).getLsbD (W - 1 - j % W)
      else w.acc.getLsbD (w.cnt - 1 - j % W)) ∧
    r.eng.oLen = (w.out.flatMap (encodeUnit adp)).length ∧
    ∀ k, k < r.eng.oLen → r.out.read k = (w.out.flatMap (encodeUnit adp)).getD k 0#16

/-- R106, R107: the final flush. With no pending bit and `P_FLUSH_ALIGNED = NONE` it emits nothing; else it
puts out one unit, the pending bits at its top and zeros below, and leaves no bit pending. -/
def Obligations.FlushPadsTheLastUnit : Prop :=
  ∀ (p : Params) (adp : Adapter) (r r' : Run), r.eng.w.inv → flush p adp r = .ok r' →
    (r.eng.w.cnt = 0 → p.flushAligned = .none → r' = r) ∧
    (0 < r.eng.w.cnt ∨ p.flushAligned = .zeroUnit →
      r'.eng.w.cnt = 0 ∧ r'.eng.w.acc = 0#16 ∧
      r'.eng.w.out = r.eng.w.out ++ [r.eng.w.acc <<< (r.eng.w.bpu.width - r.eng.w.cnt)] ∧
      r'.eng.oLen = r.eng.oLen + (encodeUnit adp 0#16).length)

/-- R121, R123, R125 to R127: the reader takes bit `W - 1 - j mod W` of unit `j div W` as its `j`-th bit and
is exhausted exactly after `len · W` bits. Past the end a bit is NULL/TRUNCATED, or 0 when
`P_PAST_END = ZERO`. -/
def Obligations.ReaderTakesBitsInOrder : Prop :=
  ∀ (p : Params) (fetch : Nat → BitVec 16) (bpu : Bpu) (len j : Nat),
    readerInit fetch bpu len = readerAt fetch bpu len 0 ∧
    ((readerAt fetch bpu len j).exhausted = true ↔ len * bpu.width ≤ j) ∧
    (j < len * bpu.width → readBit p fetch (readerAt fetch bpu len j) =
      .ok ((fetch (j / bpu.width)).getLsbD (bpu.width - 1 - j % bpu.width), readerAt fetch bpu len (j + 1))) ∧
    (len * bpu.width ≤ j → p.pastEnd = .null →
      readBit p fetch (readerAt fetch bpu len j) = .error (.null .truncated)) ∧
    (len * bpu.width ≤ j → p.pastEnd = .zero →
      readBit p fetch (readerAt fetch bpu len j) = .ok (false, readerAt fetch bpu len (j + 1)))

/-- R124: `readBits(n)` takes the next `n` bits, the first as bit 0 of the result, which is below `2^n`. -/
def Obligations.ReadBitsFirstBitLowest : Prop :=
  ∀ (p : Params) (fetch : Nat → BitVec 16) (bpu : Bpu) (len j n : Nat), j + n ≤ len * bpu.width →
    ∃ v, readBits p fetch n (readerAt fetch bpu len j) = .ok (v, readerAt fetch bpu len (j + n)) ∧
      v < 2 ^ n ∧
      ∀ i, i < n → v.testBit i =
        (fetch ((j + i) / bpu.width)).getLsbD (bpu.width - 1 - (j + i) % bpu.width)

/-- R110, R111: the two alphabet tables, entry by entry; `=` and `$` are at index 64, no unit is encoded as
them, and they decode by position. -/
def Obligations.AlphabetTables : Prop :=
  (∀ t ∈ [b64Tab, uriTab], t.length = 65 ∧
    (∀ k, k < 26 → tabAt t k = BitVec.ofNat 16 (0x41 + k)) ∧
    (∀ k, k < 26 → tabAt t (26 + k) = BitVec.ofNat 16 (0x61 + k)) ∧
    (∀ k, k < 10 → tabAt t (52 + k) = BitVec.ofNat 16 (0x30 + k)) ∧ tabAt t 62 = 0x2B#16) ∧
  tabAt b64Tab 63 = 0x2F#16 ∧ tabAt b64Tab 64 = 0x3D#16 ∧ tabAt uriTab 63 = 0x2D#16 ∧
  tabAt uriTab 64 = 0x24#16 ∧
  (∀ u : BitVec 16, u.toNat < 64 →
    encodeUnit .base64 u ≠ [0x3D#16] ∧ encodeUnit .uri u ≠ [0x24#16]) ∧
  rev b64Tab 0x3D#16 = 64 ∧ rev uriTab 0x24#16 = 64

/-- R131 (with R130): `rev(T, c)` is the one index of `c` in the table, or 0 where the table lacks it. -/
def Obligations.ReverseLookup : Prop :=
  ∀ t ∈ [b64Tab, uriTab], ∀ c : Elem,
    (∀ k, k ≤ 64 → tabAt t k = c → rev t c = k) ∧ ((∀ k, k ≤ 64 → tabAt t k ≠ c) → rev t c = 0) ∧
    rev t c ≤ 64

/-- R129, R131, R133 to R136: the reverse lookup of Base64 and URI-safe with the space repair of the URI-safe
decoder alone, the shifted-UTF16 value as an integer difference reduced modulo 2^15, the plain element, and the
byte pair, high byte first, the elements' bits 15:8 ignored. -/
def Obligations.AlphabetDecodeValues : Prop :=
  ∀ (IN : Nat → Elem) (i : Nat),
    (decodeUnit .uri IN i).toNat = rev uriTab (if IN i = 0x20#16 then 0x2B#16 else IN i) ∧
    (decodeUnit .base64 IN i).toNat = rev b64Tab (IN i) ∧
    ((decodeUnit .utf16 IN i).toNat : Int) = ((IN i).toNat - 32 : Int) % 2 ^ 15 ∧
    decodeUnit .plain IN i = IN i ∧
    (decodeUnit .bytes IN i).toNat = (IN (2 * i)).toNat % 256 * 256 + (IN (2 * i + 1)).toNat % 256

/-- R109, R129: alphabet-decode undoes alphabet-encode for every adapter and unit value, and the encoded
elements lie in the ranges of R109. -/
def Obligations.AlphabetDecodeUndoesEncode : Prop :=
  ∀ (adp : Adapter) (u : BitVec 16), u.toNat < 2 ^ adp.bpu.width →
    (∀ (IN : Nat → Elem) (i : Nat),
      (∀ k, k < (encodeUnit adp u).length →
        IN ((encodeUnit adp u).length * i + k) = (encodeUnit adp u).getD k 0#16) →
      decodeUnit adp IN i = u) ∧
    ∀ e ∈ encodeUnit adp u,
      match adp with
      | .base64 | .uri => 0x2B ≤ e.toNat ∧ e.toNat ≤ 0x7A
      | .utf16 => 0x20 ≤ e.toNat ∧ e.toNat ≤ 0x801F
      | .bytes => e.toNat ≤ 0xFF
      | .plain => e = u

/-! ### The engines -/

/-- R143: one countdown, from an ENL that is never 0 between two calls. -/
def Obligations.GrowStep : Prop :=
  ∀ enl nb, 1 ≤ enl →
    (enl = 1 → grow enl nb = (2 ^ nb, nb + 1)) ∧ (2 ≤ enl → grow enl nb = (enl - 1, nb)) ∧
    1 ≤ (grow enl nb).1

/-- R151: after `e` countdowns from (2, 2), `ENL = 2^NB - 2 - e`, and NB = m exactly when
`2^(m-1) - 2 ≤ e < 2^m - 2`. -/
def Obligations.CountdownClosedForm : Prop :=
  ∀ e : Nat,
    let g := (fun x : Nat × Nat => grow x.1 x.2)^[e] (2, 2)
    g.1 + 2 + e = 2 ^ g.2 ∧ 2 ≤ g.2 ∧
    ∀ m, 2 ≤ m → (g.2 = m ↔ 2 ^ (m - 1) ≤ e + 2 ∧ e + 2 < 2 ^ m)

/-- R36, R145, R150, R151: after any input, the compress dictionary invariants hold, the only pending
string can be the phrase, the countdown stands at `C_ENL + C_NEXT = 2^C_NB + 1 + |C_PEND|`, C_POS counts the
input, and a dictionary code the phrase would be written as fits the code width. -/
def Obligations.CompressLoopInvariant : Prop :=
  ∀ (p : Params) (adp : Adapter) (v : Str) (r₀ r : Run),
    compressLoop p adp v (compressInit adp.bpu r₀) = .ok r →
    let c := r.eng.c
    c.inv ∧ (c.pend = [] ∨ c.pend = [c.phrase]) ∧ c.enl + c.next = 2 ^ c.nb + 1 + c.pend.length ∧
    1 ≤ c.enl ∧ 2 ≤ c.nb ∧ c.pos = v.length ∧ (v ≠ [] → c.phrase ≠ []) ∧
    ∀ k, phraseToken c = .dictCode k → k < 2 ^ c.nb

/-- R37, R182: the decompress dictionary and countdown invariants hold after the first token, and every
iteration that goes on keeps them. -/
def Obligations.DecompressLoopInvariant : Prop :=
  ∀ (p : Params) (fetch : Nat → BitVec 16) (bpu : Bpu) (len : Nat) (r r' : Run),
    (firstToken p fetch (decompressInit fetch bpu len r) = .ok (true, r') → r'.eng.d.inv) ∧
    (r.eng.d.inv → decompressStep p fetch r = .ok (true, r') → r'.eng.d.inv)

/-- R185: a run never needs more loop iterations than `floor(len · bpu / 3) + 1`; a greater bound gives the
same run (log 16). -/
def Obligations.IterationBoundSuffices : Prop :=
  ∀ (p : Params) (fetch : Nat → BitVec 16) (bpu : Bpu) (len n : Nat) (r r' : Run),
    firstToken p fetch (decompressInit fetch bpu len r) = .ok (true, r') →
    iterationBound bpu len ≤ n →
    decompressLoop p fetch n r' = decompressLoop p fetch (iterationBound bpu len) r'

/-- R177, R178: a code read in the loop that is a present slot decodes to its entry, the next free code to
the previous word and its first element, and a greater one ends the run with NULL/BAD_CODE. -/
def Obligations.UnknownCodeIsBadCode : Prop :=
  ∀ (p : Params) (fetch : Nat → BitVec 16) (r r' : Run) (code : Nat),
    r.eng.r.exhausted = false → runBits p fetch r.eng.d.nb r = .ok (code, r') → 3 ≤ code →
    (r.eng.d.next < code → decompressStep p fetch r = .error (.null .badCode)) ∧
    (code = r.eng.d.next →
      lookupEntry code r'.eng.d = .ok (r.eng.d.word ++ [r.eng.d.word.headD 0#16])) ∧
    (code < r.eng.d.next → lookupEntry code r'.eng.d = .ok ((entryOf r.eng.d.dict code).getD []))

/-- R203: the Base64 padding is the least number of `=` that makes the length a multiple of 4, put after
the characters, which stay; without room for it the command ends with OUT_FULL. The URI-safe adapter has
none. -/
def Obligations.Base64Padding : Prop :=
  ∀ (p : Params) (r : Run),
    let k := (4 - r.eng.oLen % 4) % 4
    (r.eng.oLen + k ≤ p.outCap ∨ k = 0 → ∃ r', compressFraming p .base64 r = .ok r' ∧
      r'.eng.oLen = r.eng.oLen + k ∧ r'.eng.oLen % 4 = 0 ∧
      (∀ j, r.eng.oLen ≤ j → j < r.eng.oLen + k → r'.out.read j = 0x3D#16) ∧
      ∀ j, j < r.eng.oLen ∨ r.eng.oLen + k ≤ j → r'.out.read j = r.out.read j) ∧
    (p.outCap < r.eng.oLen + k → 0 < k → compressFraming p .base64 r = .error (.err .outFull)) ∧
    compressFraming p .uri r = .ok r

/-- R204: the shifted-UTF16 trailer is one space after the characters, which stay; without room for it the
command ends with OUT_FULL. -/
def Obligations.Utf16Trailer : Prop :=
  ∀ (p : Params) (r : Run),
    (r.eng.oLen < p.outCap → ∃ r', compressFraming p .utf16 r = .ok r' ∧
      r'.eng.oLen = r.eng.oLen + 1 ∧ r'.out.read r.eng.oLen = 0x0020#16 ∧
      ∀ j, j ≠ r.eng.oLen → r'.out.read j = r.out.read j) ∧
    (p.outCap ≤ r.eng.oLen → compressFraming p .utf16 r = .error (.err .outFull))

/-! ### The ten commands -/

/-- R202, R217: the null and empty contract of all ten commands, and DEC_U8A's odd length (of an input that fits
IN_MEM), with what a completion leaves alone (R262; that it leaves the latches is log 20, R31 against R43 and
U9). -/
def Obligations.NullEmptyContract : Prop :=
  ∀ (s : State) (adp : Adapter),
    (∃ t, exec (compressOf adp true) s = .next t ∧ endsString t [] ∧ commandFrame s t) ∧
    (∃ t, exec (decompressOf adp true) s = .next t ∧ endsString t [] ∧ commandFrame s t) ∧
    (s.latch.len = 0#32 → ∃ t, exec (decompressOf adp false) s = .next t ∧ endsNull t .emptyInput ∧
      commandFrame s t) ∧
    (s.latch.len.toNat % 2 = 1 → s.latch.len.toNat ≤ s.params.inCap → ∃ t, exec (decompressOf .bytes false) s = .next t ∧
      endsNull t .oddLength ∧ commandFrame s t)

/-- R260, R261, R65: every command completes in every state, with exactly one of the three outcomes; a
compress command never with NULL; the errors are DICT_FULL, OUT_FULL, and IN_LEN_RANGE for a non-NULL input longer
than IN_CAP. It changes nothing R262 does not name (that the latches stay is log 20, R31 against R43 and U9), and
every OUT_MEM element at or above OUT_LEN is open from here on (log 3). -/
def Obligations.CommandOutcomeAndFrame : Prop :=
  ∀ (s : State) (adp : Adapter) (inNull : Bool), s.params.wf = true →
    (∃ t, exec (compressOf adp inNull) s = .next t ∧ commandFrame s t ∧
      ((∃ v, endsString t v) ∨ endsError t .dictFull ∨ endsError t .outFull ∨
        inNull = false ∧ s.params.inCap < s.latch.len.toNat ∧ endsError t .inLenRange) ∧
      ∀ j, t.outLen.toNat ≤ j → t.outMem.read j = Config.openElem s.freeCtr j) ∧
    (∃ t, exec (decompressOf adp inNull) s = .next t ∧ commandFrame s t ∧
      ((∃ v, endsString t v) ∨ (∃ c, c ≠ .none ∧ endsNull t c) ∨ endsError t .dictFull ∨
        endsError t .outFull ∨
        inNull = false ∧ s.params.inCap < s.latch.len.toNat ∧ endsError t .inLenRange) ∧
      ∀ j, t.outLen.toNat ≤ j → t.outMem.read j = Config.openElem s.freeCtr j)

/-- R148, R209 (CMP_B64, CMP_U16, CMP_URI, CMP_U8A, CMP_STR): with `DICT_CAP ≥ 2·L_LEN + 3` and OUT_MEM large
enough, a compress command of any non-NULL input that fits IN_MEM completes with a STRING result, which is not
empty. What a completion leaves alone holds too (the latches: log 20, R31 against R43 and U9). -/
def Obligations.CompressCompletes : Prop :=
  ∀ (s : State) (adp : Adapter), s.params.wf = true → s.latch.len.toNat ≤ s.params.inCap →
    2 * s.latch.len.toNat + 3 ≤ s.params.dictCap → outNeeded adp s.latch.len.toNat ≤ s.params.outCap →
    ∃ t v, exec (compressOf adp false) s = .next t ∧ endsString t v ∧ v ≠ [] ∧
      v.length ≤ outNeeded adp s.latch.len.toNat ∧ commandFrame s t

/-- R152, R202 (CMP_B64, CMP_U16, CMP_URI, CMP_U8A, CMP_STR): the empty, non-NULL input gives the End marker
alone, in each adapter's characters and framing, when OUT_MEM can hold them, and OUT_FULL when not. What a
completion leaves alone holds too (the latches: log 20, R31 against R43 and U9). -/
def Obligations.CompressEmptyInput : Prop :=
  ∀ (s : State) (adp : Adapter), s.latch.len = 0#32 →
    let v : Str := match adp with
      | .base64 => [0x51#16, 0x3D#16, 0x3D#16, 0x3D#16]
      | .utf16 => [0x2020#16, 0x0020#16]
      | .uri => [0x51#16]
      | .bytes => [0x40#16, 0x00#16]
      | .plain => [0x4000#16]
    ∃ t, exec (compressOf adp false) s = .next t ∧ commandFrame s t ∧
      (v.length ≤ s.params.outCap → endsString t v) ∧ (s.params.outCap < v.length → endsError t .outFull)

/-- R88, R105, R152 (CMP_STR): one character `x` is written as its literal at width 2 and the End marker at
width 3. Below 256 it is 13 bits in one unit, else 21 bits in two; every bit of the units is named. What a completion
leaves alone holds too (the latches: log 20, R31 against R43 and U9). -/
def Obligations.CompressOneCharacter : Prop :=
  ∀ (s : State) (x : Elem), hasInput s [x] → 4 ≤ s.params.dictCap → 2 ≤ s.params.outCap →
    ∃ t, exec (.cmpStr false) s = .next t ∧ commandFrame s t ∧
      (x.toNat < 256 → ∃ u : Elem, endsString t [u] ∧ u.getLsbD 15 = false ∧ u.getLsbD 14 = false ∧
        (∀ k, k < 8 → u.getLsbD (13 - k) = x.getLsbD k) ∧ u.toNat % 64 = 0b010000) ∧
      (256 ≤ x.toNat → ∃ u w : Elem, endsString t [u, w] ∧ u.getLsbD 15 = true ∧ u.getLsbD 14 = false ∧
        (∀ k, k < 14 → u.getLsbD (13 - k) = x.getLsbD k) ∧
        w.getLsbD 15 = x.getLsbD 14 ∧ w.getLsbD 14 = x.getLsbD 15 ∧ w.toNat % 2 ^ 14 = 0b01000000000000)

/-- R172 (DEC_B64, DEC_U16, DEC_URI, DEC_U8A, DEC_STR): an input that fits IN_MEM and whose second stream
bit is 1, that is whose first token is the End marker or 3, decodes to the empty string, whatever follows. What a
completion leaves alone holds too (the latches: log 20, R31 against R43 and U9). -/
def Obligations.DecompressEmptyStream : Prop :=
  ∀ (s : State) (adp : Adapter), 0 < s.latch.len.toNat → s.latch.len.toNat ≤ s.params.inCap →
    (adp = .bytes → s.latch.len.toNat % 2 = 0) →
    (decodeUnit adp s.inElem 0).getLsbD (adp.bpu.width - 2) = true →
    ∃ t, exec (decompressOf adp false) s = .next t ∧ endsString t [] ∧ commandFrame s t

/-- R186, the round trip, with R184's capacity (DEC_B64, DEC_U16, DEC_URI, DEC_U8A, DEC_STR and the compress
commands): whatever a compress command gave as its result, the decompress command of the same adapter and
parameters on it, if it fits IN_MEM, completes and gives the input back when OUT_MEM can hold it, and OUT_FULL,
its only error, when not. What a completion leaves alone holds too (the latches: log 20, R31 against R43 and
U9). -/
def Obligations.RoundTrip : Prop :=
  ∀ (adp : Adapter) (s₁ s₂ t₁ : State) (v : Str), s₁.params.wf = true → s₂.params = s₁.params →
    hasInput s₁ v → exec (compressOf adp false) s₁ = .next t₁ → t₁.status.err = .none →
    hasInput s₂ t₁.resultView →
    ∃ t₂, exec (decompressOf adp false) s₂ = .next t₂ ∧ commandFrame s₂ t₂ ∧
      (v.length ≤ s₂.params.outCap → endsString t₂ v) ∧
      (s₂.params.outCap < v.length → endsError t₂ .outFull)

/-- R177, R187 (DEC_STR): the one unit that holds the literal of a character `x` below 256, the code 4, which
is then the next free code, and the End marker decodes to `x` three times. What a completion leaves alone holds
too (the latches: log 20, R31 against R43 and U9). -/
def Obligations.DecompressSelfReference : Prop :=
  ∀ (s : State) (x u : Elem), hasInput s [u] → x.toNat < 256 → 5 ≤ s.params.dictCap →
    3 ≤ s.params.outCap → u.getLsbD 15 = false → u.getLsbD 14 = false →
    (∀ k, k < 8 → u.getLsbD (13 - k) = x.getLsbD k) → u.toNat % 64 = 0b001010 →
    ∃ t, exec (.decStr false) s = .next t ∧ endsString t [x, x, x] ∧ commandFrame s t

/-- R113, R127, all five adapters: with the default parameters, a compress result without its framing and its last
unit decodes to NULL/TRUNCATED, or to NULL/EMPTY_INPUT when nothing is left, unless the decompress command raises an
error, which it does not when OUT_MEM can hold the uncut input. (A byte array cut by one byte is odd:
NullEmptyContract.) -/
def Obligations.TruncationDetected : Prop :=
  ∀ (adp : Adapter) (s₁ s₂ t₁ : State) (v : Str), s₁.params.wf = true → s₂.params = s₁.params →
    s₁.params.pastEnd = .null → s₁.params.flushAligned = .none →
    hasInput s₁ v → exec (compressOf adp false) s₁ = .next t₁ → t₁.status.err = .none →
    let w := withoutLastUnit adp t₁.resultView
    hasInput s₂ w →
    ∃ t₂, exec (decompressOf adp false) s₂ = .next t₂ ∧
      (t₂.status.err = .none → endsNull t₂ (if w = [] then .emptyInput else .truncated)) ∧
      (v.length ≤ s₂.params.outCap → t₂.status.err = .none)

/-- R206: a command's result depends only on the input and the parameters R206 names, not on any earlier
command, on CTRL.IRQ_EN, or on OUT_MEM and the engine's registers before it. -/
def Obligations.CommandsAreFunctions : Prop :=
  ∀ (s₁ s₂ : State) (adp : Adapter) (inNull : Bool) (i : Instr), s₁.params.wf = true →
    sameInput s₁ s₂ → i = compressOf adp inNull ∨ i = decompressOf adp inNull →
    ∃ t₁ t₂, exec i s₁ = .next t₁ ∧ exec i s₂ = .next t₂ ∧ t₁.status.resNull = t₂.status.resNull ∧
      t₁.status.err = t₂.status.err ∧ t₁.status.ncause = t₂.status.ncause ∧ t₁.outLen = t₂.outLen ∧
      t₁.resultView = t₂.resultView

/-- R208 (a): when neither command raises an error, CMP_U8A's bytes are CMP_STR's elements, high byte
first. -/
def Obligations.ByteArrayIsPlainStringSplit : Prop :=
  ∀ (s t₁ t₂ : State), s.params.wf = true → exec (.cmpU8a false) s = .next t₁ →
    exec (.cmpStr false) s = .next t₂ → t₁.status.err = .none → t₂.status.err = .none →
    t₁.resultView = t₂.resultView.flatMap fun u =>
      [BitVec.ofNat 16 (u.toNat / 256), BitVec.ofNat 16 (u.toNat % 256)]

/-- R208 (b), (d): when neither command raises an error, CMP_B64's length is a multiple of 4, and without its
`=` padding, with `/` replaced by `-`, it is CMP_URI's result. -/
def Obligations.Base64AndUriSafeAgree : Prop :=
  ∀ (s t₁ t₂ : State), s.params.wf = true → exec (.cmpB64 false) s = .next t₁ →
    exec (.cmpUri false) s = .next t₂ → t₁.status.err = .none → t₂.status.err = .none →
    t₁.resultView.length % 4 = 0 ∧
    (t₁.resultView.filter (· ≠ 0x3D#16)).map (fun e => if e = 0x2F#16 then 0x2D#16 else e) = t₂.resultView

/-- R208 (c): a CMP_U16 result ends with a space, and its other elements are in 0x0020 to 0x801F. -/
def Obligations.Utf16ElementRange : Prop :=
  ∀ (s t : State), s.params.wf = true → exec (.cmpU16 false) s = .next t → t.status.err = .none →
    ∃ v : Str, t.resultView = v ++ [0x0020#16] ∧ ∀ e ∈ v, 0x0020 ≤ e.toNat ∧ e.toNat ≤ 0x801F

/-! ### Completion, control operations and reset -/

/-- R262, R266: the two completions write OUT_LEN, the outcome fields, DONE, BUSY and ENG, and neither WERR
nor CTRL. -/
def Obligations.CompletionWrites : Prop :=
  ∀ (s : State),
    (∀ n, n < 2 ^ 32 → completedWith (complete (.str n) s) false .none .none ∧
      (complete (.str n) s).outLen.toNat = n) ∧
    (∀ c, endsNull (complete (.null c) s) c) ∧ (∀ e, endsError (complete (.error e) s) e) ∧
    ∀ res, (complete res s).status.werr = s.status.werr ∧ (complete res s).irqEn = s.irqEn

/-- R240 while BUSY = 1: START only sets WERR (after the IRQ_EN write of the same word); the running command
goes on. -/
def Obligations.StartWhileBusyOnlySetsWerr : Prop :=
  ∀ (s : State) (irqEn clear : Bool), s.status.busy = true →
    exec (.start irqEn clear) s =
      .next { s with irqEn := irqEn, status := { s.status with werr := true } }

/-- R240 while BUSY = 0: a command with a legal OPC is latched and accepted, whatever IN_LEN is. BUSY is set, ENG
is RUN, the completion fields and OUT_LEN are 0, and WERR keeps its value but for a CLEAR in the same word. Nothing
else changes. That IN_LEN_RANGE comes later, at the engine's turn, is log 12. -/
def Obligations.StartAcceptsCommand : Prop :=
  ∀ (s : State) (irqEn clear : Bool), s.status.busy = false → s.cmd.opc.toNat < 0xA →
    exec (.start irqEn clear) s = .next { s with
      irqEn := irqEn
      latch := { opc := s.cmd.opc, isNull := s.cmd.inNull, len := s.inLen }
      status := { busy := true, done := false, resNull := false, werr := s.status.werr && !clear,
                  err := .none, ncause := .none }
      outLen := 0#32
      eng := .run }

/-- R84, R240, R267: START with a reserved OPC completes at once with ILLEGAL_CMD, whatever IN_NULL and IN_LEN are.
IN_MEM, CMD, IN_LEN and the rest of CTRL stay. -/
def Obligations.StartRefusals : Prop :=
  ∀ (s : State) (irqEn clear : Bool), s.status.busy = false → 0xA ≤ s.cmd.opc.toNat →
    ∃ t, exec (.start irqEn clear) s = .next t ∧ endsError t .illegalCmd ∧
      t.params = s.params ∧ t.irqEn = irqEn ∧ t.cmd = s.cmd ∧ t.inLen = s.inLen ∧
      t.status.werr = (s.status.werr && !clear) ∧ (∀ i, t.inMem.read i = s.inMem.read i) ∧
      t.rdata = s.rdata ∧ t.turns = s.turns

/-- R243: CLEAR always zeroes WERR, and DONE and ERR when not BUSY; RES_NULL, NCAUSE, OUT_LEN, OUT_MEM and
everything else stay; `irq` is low afterwards unless a command runs; a second CLEAR has no further effect. -/
def Obligations.ClearAcknowledges : Prop :=
  ∀ (s : State) (irqEn : Bool),
    ∃ t, exec (.clear irqEn) s = .next t ∧
      (s.status.busy = true → t = { s with irqEn := irqEn, status := { s.status with werr := false } }) ∧
      (s.status.busy = false → t = { s with irqEn := irqEn, status := { s.status with
        werr := false, done := false, err := .none } } ∧ t.irq = false) ∧
      exec (.clear irqEn) t = .next t

/-- R245: SRESET in every state. Every host register is 0, ENG IDLE, `irq` 0; every OUT_MEM element is open;
IN_MEM keeps its contents; bits 0, 1 and 8 of the word do not matter. What the engine's registers and
latches become is unspecified (log 5). -/
def Obligations.SoftResetState : Prop :=
  ∀ (s : State) (irqEn start clear : Bool),
    ∃ t, exec (.sreset irqEn start clear) s = .next t ∧ exec (.sreset false false false) s = .next t ∧
      t.eng = .idle ∧ t.irqEn = false ∧ t.cmd = { opc := 0#4, inNull := false } ∧ t.inLen = 0#32 ∧
      t.outLen = 0#32 ∧ t.status.word = 0#32 ∧ t.irq = false ∧
      (∀ i, t.outMem.read i = Config.openElem s.freeCtr i) ∧ (∀ i, t.inMem.read i = s.inMem.read i) ∧
      t.params = s.params ∧ t.rdata = s.rdata ∧ t.turns = s.turns

/-- R246: a CTRL write of a word whose bits 2:0 are 0 stores bit 8 into IRQ_EN, also while BUSY; `irq`
follows at once; nothing else changes, and bits 31:9 and 7:3 are ignored. -/
def Obligations.IrqEnWrite : Prop :=
  ∀ (s : State) (v : Word), v.toNat % 8 = 0 →
    ∃ t, exec (decodeCtrl v) s = .next t ∧ t = { s with irqEn := v.toNat.testBit 8 } ∧
      t.irq = (s.status.done && v.toNat.testBit 8) ∧
      exec (.irqcfg (v.toNat.testBit 8)) s = .next t

/-- R247: the operations of one CTRL write, in order. SRESET wins over everything; otherwise IRQ_EN, then
CLEAR, then START. -/
def Obligations.CtrlWriteOrder : Prop :=
  ∀ (s : State) (v : Word),
    (v.toNat.testBit 2 = true → exec (decodeCtrl v) s = exec (.sreset false false false) s) ∧
    (v.toNat.testBit 2 = false →
      ∃ s₁ s₂, exec (.irqcfg (v.toNat.testBit 8)) s = .next s₁ ∧
        (if v.toNat.testBit 1 = true then exec (.clear s₁.irqEn) s₁ = .next s₂ else s₂ = s₁) ∧
        exec (decodeCtrl v) s =
          (if v.toNat.testBit 0 = true then exec (.start s₂.irqEn false) s₂ else .next s₂))

/-- R30: `irq` is DONE & IRQ_EN in every state, and 0 after reset. -/
def Obligations.IrqLevel : Prop :=
  (∀ s : State, s.irq = true ↔ s.status.done = true ∧ s.irqEn = true) ∧ State.reset.irq = false

/-- R242, R273: the state machine of (BUSY, DONE). In every step BUSY rises only by the host's CTRL write of
a word with bit 0 = 1 and bit 2 = 0 while BUSY = 0; BUSY falls only at the engine's turn, by an SRESET
write, or by rst; and (1, 1) never occurs. -/
def Obligations.BusyStateMachine : Prop :=
  ∀ s t : State, Inv s → step s = .next t →
    ¬(t.status.busy = true ∧ t.status.done = true) ∧
    (s.status.busy = false → t.status.busy = true → ∃ a d ts, s.turns = .host (.write a d) :: ts ∧
      targetOf s.params a = some (.reg .ctrl) ∧ d.toNat.testBit 0 = true ∧ d.toNat.testBit 2 = false) ∧
    (s.status.busy = true → t.status.busy = false →
      (s.turns = [] ∨ ∃ ts, s.turns = .engine :: ts) ∧ t.status.done = true ∨
      t.status.done = false ∧ ((∃ ts, s.turns = .rst :: ts) ∨
        ∃ a d ts, s.turns = .host (.write a d) :: ts ∧ targetOf s.params a = some (.reg .ctrl) ∧
          d.toNat.testBit 2 = true))

/-- R25: WERR rises only by a host write while BUSY = 1, to CMD, IN_LEN, the IN_MEM window, or CTRL with
bit 0 = 1. -/
def Obligations.WerrRisesOnlyWhileBusy : Prop :=
  ∀ s t : State, step s = .next t → s.status.werr = false → t.status.werr = true →
    s.status.busy = true ∧ ∃ a d ts, s.turns = .host (.write a d) :: ts ∧
      (targetOf s.params a = some (.reg .cmd) ∨ targetOf s.params a = some (.reg .inLen) ∨
        (∃ i, targetOf s.params a = some (.inSlot i)) ∨
        targetOf s.params a = some (.reg .ctrl) ∧ d.toNat.testBit 0 = true)

/-- R62, R64, R295: an element of IN_MEM changes only by a host write to its own slot while BUSY = 0, or by
the power-on reset; no command and no control operation changes one. -/
def Obligations.InMemChangesOnlyByHostWrite : Prop :=
  ∀ (s t : State) (i : Nat), step s = .next t → t.inMem.read i ≠ s.inMem.read i →
    (∃ a d ts, s.turns = .host (.write a d) :: ts ∧ targetOf s.params a = some (.inSlot i) ∧
      s.status.busy = false ∧ i < s.params.inCap) ∨
    ∃ ts, s.turns = .rst :: ts

/-- R292: after reset the block is idle, its interrupt is masked, and without a turn of the host it does
nothing. -/
def Obligations.IdleAfterReset : Prop :=
  ∀ p : Params, (State.resetWith p).eng = .idle ∧ (State.resetWith p).status.word = 0#32 ∧
    (State.resetWith p).irqEn = false ∧ step (State.resetWith p) = .next (State.resetWith p) ∧
    State.reset = State.resetWith Params.default

/-- R293, R290: rst in any state abandons a running command, with no completion, no DONE and no `irq`; the
host registers are as after reset, and every element of both memories is open (log 22). -/
def Obligations.PowerOnReset : Prop :=
  ∀ (s : State) (ts : List Turn), ∃ t, step { s with turns := .rst :: ts } = .next t ∧
    t.eng = .idle ∧ t.status = State.reset.status ∧ t.irq = false ∧ t.irqEn = State.reset.irqEn ∧
    t.cmd = State.reset.cmd ∧ t.inLen = State.reset.inLen ∧ t.outLen = State.reset.outLen ∧
    (∀ i, t.outMem.read i = Config.openElem s.freeCtr i) ∧
    (∀ i, t.inMem.read i = Config.openElem (s.freeCtr + 1) i) ∧ t.params = s.params ∧ t.turns = ts

/-! ### The invariant -/

/-- The invariant holds after reset, for every instance whose parameters are in their ranges. -/
def Obligations.ResetSatisfiesInvariant : Prop :=
  (∀ p : Params, p.wf = true → Inv (State.resetWith p)) ∧ Inv State.reset

/-- Every step keeps the invariant (R29, R31, R62, R63 and the register widths): from every state that
meets it, not only from those a run reaches. -/
def Obligations.StepKeepsInvariant : Prop :=
  ∀ s t : State, Inv s → step s = .next t → Inv t

/-! ### The input length -/

/-- R240, R267: every command whose non-NULL input is longer than IN_CAP ends with IN_LEN_RANGE, before any other
outcome; a running one at the engine's turn, after any number of host accesses (R305, U10; log 12). What a
completion leaves alone holds too (the latches: log 20, R31 against R43 and U9). -/
def Obligations.OverlongInputIsRefused : Prop :=
  ∀ (s : State) (adp : Adapter), s.params.inCap < s.latch.len.toNat →
    (∃ t, exec (compressOf adp false) s = .next t ∧ endsError t .inLenRange ∧ commandFrame s t) ∧
    (∃ t, exec (decompressOf adp false) s = .next t ∧ endsError t .inLenRange ∧ commandFrame s t) ∧
    ∀ ts, s.turns = .engine :: ts → s.eng = .run → s.latch.opc.toNat < 0xA → s.latch.isNull = false →
      ∃ t, step s = .next t ∧ endsError t .inLenRange ∧ commandFrame { s with turns := ts } t
end

