-- ==== Sys2Proof/Laws/Bus.lean ====
section
/-! SUPPORT. What the bus addresses of registers and element slots name. -/

namespace Sys2Proof.Machine

/-- An address at a byte offset below 2^30 from BASE names the word of that offset. -/
theorem targetOf_base_add (p : Params) (off : Nat) (h : off < 2 ^ 30) :
    targetOf p (p.base + BitVec.ofNat 32 off) = some (targetOfWord (off / 4)) := by
  have hs : p.base + BitVec.ofNat 32 off - p.base = BitVec.ofNat 32 off := by
    rw [BitVec.add_comm]; simp
  have hn : (BitVec.ofNat 32 off).toNat = off := by
    simp only [BitVec.toNat_ofNat]; omega
  simp only [targetOf, hs, hn, if_pos h]

@[simp] theorem targetOf_regAddr (p : Params) (r : HostReg) : targetOf p (regAddr p r) = some (.reg r) := by
  cases r <;> exact (targetOf_base_add p _ (by decide)).trans rfl

theorem targetOfWord_inSlot {i : Nat} (h : i < 2 ^ 26) : targetOfWord (0x04000000 + i) = .inSlot i := by
  have h1 : ¬0x04000000 + i < 0x04000000 := by omega
  have h2 : 0x04000000 + i < 0x08000000 := by omega
  simp only [targetOfWord, h1, h2, if_true, if_false, Nat.add_sub_cancel_left]

theorem targetOfWord_outSlot {i : Nat} (h : i < 2 ^ 26) : targetOfWord (0x08000000 + i) = .outSlot i := by
  have h1 : ¬0x08000000 + i < 0x04000000 := by omega
  have h2 : ¬0x08000000 + i < 0x08000000 := by omega
  have h3 : 0x08000000 + i < 0x0C000000 := by omega
  simp only [targetOfWord, h1, h2, h3, if_true, if_false, Nat.add_sub_cancel_left]

theorem inAddr_eq (p : Params) (i : Nat) :
    inAddr p i = p.base + BitVec.ofNat 32 (0x10000000 + 4 * i) := by
  rw [inAddr, BitVec.add_assoc, ← BitVec.ofNat_add]

theorem outAddr_eq (p : Params) (i : Nat) :
    outAddr p i = p.base + BitVec.ofNat 32 (0x20000000 + 4 * i) := by
  rw [outAddr, BitVec.add_assoc, ← BitVec.ofNat_add]

theorem targetOf_inAddr (p : Params) {i : Nat} (h : i < 2 ^ 26) :
    targetOf p (inAddr p i) = some (.inSlot i) := by
  rw [inAddr_eq, targetOf_base_add p _ (by omega), ← targetOfWord_inSlot h]
  congr 2; omega

theorem targetOf_outAddr (p : Params) {i : Nat} (h : i < 2 ^ 26) :
    targetOf p (outAddr p i) = some (.outSlot i) := by
  rw [outAddr_eq, targetOf_base_add p _ (by omega), ← targetOfWord_outSlot h]
  congr 2; omega

end Sys2Proof.Machine
end

