-- ==== Sys2Proof/Laws/Memory.lean ====
section
/-! SUPPORT. The laws of the element memories: read after write, the canonical form, and the capacity bound,
for every memory operation. -/

namespace Sys2Proof.Machine

theorem cellsFind_cellsWrite_same (cs : List (Nat × Elem)) (i : Nat) (v : Elem) :
    cellsFind (cellsWrite cs i v) i = some v := by
  induction cs with
  | nil => simp [cellsWrite, cellsFind]
  | cons c cs ih =>
    obtain ⟨j, u⟩ := c
    simp only [cellsWrite]
    split
    · simp [cellsFind]
    · split
      · simp [cellsFind]
      · simp [cellsFind, *]

theorem cellsFind_cellsWrite_other (cs : List (Nat × Elem)) {i k : Nat} (v : Elem) (h : k ≠ i) :
    cellsFind (cellsWrite cs i v) k = cellsFind cs k := by
  induction cs with
  | nil => simp [cellsWrite, cellsFind, h]
  | cons c cs ih =>
    obtain ⟨j, u⟩ := c
    simp only [cellsWrite]
    split
    · simp [cellsFind, h]
    · split
      · next heq => subst heq; simp [cellsFind, h]
      · simp [cellsFind, ih]

theorem mem_cellsWrite {cs : List (Nat × Elem)} {i : Nat} {v : Elem} {c : Nat × Elem}
    (h : c ∈ cellsWrite cs i v) : c = (i, v) ∨ c ∈ cs := by
  induction cs with
  | nil => simpa [cellsWrite] using h
  | cons a cs ih =>
    obtain ⟨j, u⟩ := a
    simp only [cellsWrite] at h
    split at h
    · simpa using h
    · split at h
      · rcases List.mem_cons.mp h with h | h
        · exact .inl h
        · exact .inr (List.mem_cons_of_mem _ h)
      · rcases List.mem_cons.mp h with h | h
        · exact .inr (by simp [h])
        · exact (ih h).imp id (List.mem_cons_of_mem _)

theorem cellsFind_filter_below (cs : List (Nat × Elem)) (n i : Nat) :
    cellsFind (cs.filter fun c => decide (c.1 < n)) i = if i < n then cellsFind cs i else none := by
  induction cs with
  | nil => simp [cellsFind]
  | cons c cs ih =>
    obtain ⟨j, u⟩ := c
    by_cases hj : j < n
    · by_cases hi : i = j
      · subst hi; simp [List.filter, cellsFind, hj]
      · simp [List.filter, cellsFind, hj, hi, ih]
    · by_cases hi : i = j
      · subst hi; simp [List.filter, hj, ih]
      · simp [List.filter, cellsFind, hj, hi, ih]

@[simp] theorem Mem.read_write_same (m : Mem) (i : Nat) (v : Elem) : (m.write i v).read i = v := by
  simp [Mem.read, Mem.write, cellsFind_cellsWrite_same]

@[simp] theorem Mem.read_write_other (m : Mem) {i k : Nat} (v : Elem) (h : k ≠ i) :
    (m.write i v).read k = m.read k := by
  simp [Mem.read, Mem.write, cellsFind_cellsWrite_other _ _ h]

@[simp] theorem Mem.read_opened (gen i : Nat) : (Mem.opened gen).read i = Config.openElem gen i := rfl

theorem Mem.read_keepBelow_above (m : Mem) {n i : Nat} (gen : Nat) (h : n ≤ i) :
    (m.keepBelow n gen).read i = Config.openElem gen i := by
  simp [Mem.read, Mem.keepBelow, cellsFind_filter_below, Nat.not_lt.mpr h]

/-- An element that has been written below the cut keeps its value. -/
theorem Mem.read_keepBelow_below (m : Mem) {n i : Nat} (gen : Nat) (h : i < n)
    (hl : (cellsFind m.cells i).isSome) : (m.keepBelow n gen).read i = m.read i := by
  obtain ⟨v, hv⟩ := Option.isSome_iff_exists.mp hl
  simp [Mem.read, Mem.keepBelow, cellsFind_filter_below, h, hv]

theorem Mem.wf_write {m : Mem} (h : m.wf) (i : Nat) (v : Elem) : (m.write i v).wf := by
  obtain ⟨g, cs⟩ := m
  simp only [Mem.wf, Mem.write] at *
  induction cs with
  | nil => simp [cellsWrite]
  | cons c cs ih =>
    obtain ⟨j, u⟩ := c
    obtain ⟨h1, h2⟩ := List.pairwise_cons.mp h
    simp only [cellsWrite]
    split
    · next hij =>
      refine List.pairwise_cons.mpr ⟨fun a ha => ?_, h⟩
      rcases List.mem_cons.mp ha with rfl | ha
      · exact hij
      · exact Nat.lt_trans hij (h1 a ha)
    · split
      · next hij => subst hij; exact List.pairwise_cons.mpr ⟨h1, h2⟩
      · refine List.pairwise_cons.mpr ⟨fun a ha => ?_, ih h2⟩
        rcases mem_cellsWrite ha with rfl | ha
        · show j < i; omega
        · exact h1 a ha

theorem Mem.wf_keepBelow {m : Mem} (h : m.wf) (n gen : Nat) : (m.keepBelow n gen).wf :=
  List.Pairwise.filter _ h

theorem Mem.wf_opened (gen : Nat) : (Mem.opened gen).wf := List.Pairwise.nil

theorem Mem.wf_reset (p : Params) : (State.resetWith p).inMem.wf ∧ (State.resetWith p).outMem.wf :=
  ⟨List.Pairwise.nil, List.Pairwise.nil⟩

end Sys2Proof.Machine
end

