-- ==== Sys2Proof/Laws/State.lean ====
section
/-! SUPPORT. One lemma per field of State per update of it: the field is the update's value or the old one. -/

namespace Sys2Proof.Machine

/-! ### `complete` -/

@[simp] theorem complete_params (res : Result) (s : State) : (complete res s).params = s.params := rfl
@[simp] theorem complete_irqEn (res : Result) (s : State) : (complete res s).irqEn = s.irqEn := rfl
@[simp] theorem complete_cmd (res : Result) (s : State) : (complete res s).cmd = s.cmd := rfl
@[simp] theorem complete_inLen (res : Result) (s : State) : (complete res s).inLen = s.inLen := rfl
@[simp] theorem complete_status (res : Result) (s : State) : (complete res s).status = s.status.completed res := rfl
@[simp] theorem complete_outLen (res : Result) (s : State) : (complete res s).outLen = BitVec.ofNat 32 res.outLen := rfl
@[simp] theorem complete_eng (res : Result) (s : State) : (complete res s).eng = .idle := rfl
@[simp] theorem complete_latch (res : Result) (s : State) : (complete res s).latch = s.latch := rfl
@[simp] theorem complete_engine (res : Result) (s : State) : (complete res s).engine = freeEngine s.freeCtr := rfl
@[simp] theorem complete_inMem (res : Result) (s : State) : (complete res s).inMem = s.inMem := rfl
@[simp] theorem complete_outMem (res : Result) (s : State) : (complete res s).outMem = s.outMem.keepBelow res.outLen s.freeCtr := rfl
@[simp] theorem complete_rdata (res : Result) (s : State) : (complete res s).rdata = s.rdata := rfl
@[simp] theorem complete_turns (res : Result) (s : State) : (complete res s).turns = s.turns := rfl
@[simp] theorem complete_freeCtr (res : Result) (s : State) : (complete res s).freeCtr = s.freeCtr + 1 := rfl

/-! ### `clearFlags` -/

@[simp] theorem clearFlags_params (s : State) : (clearFlags s).params = s.params := rfl
@[simp] theorem clearFlags_irqEn (s : State) : (clearFlags s).irqEn = s.irqEn := rfl
@[simp] theorem clearFlags_cmd (s : State) : (clearFlags s).cmd = s.cmd := rfl
@[simp] theorem clearFlags_inLen (s : State) : (clearFlags s).inLen = s.inLen := rfl
@[simp] theorem clearFlags_status (s : State) : (clearFlags s).status = s.status.cleared := rfl
@[simp] theorem clearFlags_outLen (s : State) : (clearFlags s).outLen = s.outLen := rfl
@[simp] theorem clearFlags_eng (s : State) : (clearFlags s).eng = s.eng := rfl
@[simp] theorem clearFlags_latch (s : State) : (clearFlags s).latch = s.latch := rfl
@[simp] theorem clearFlags_engine (s : State) : (clearFlags s).engine = s.engine := rfl
@[simp] theorem clearFlags_inMem (s : State) : (clearFlags s).inMem = s.inMem := rfl
@[simp] theorem clearFlags_outMem (s : State) : (clearFlags s).outMem = s.outMem := rfl
@[simp] theorem clearFlags_rdata (s : State) : (clearFlags s).rdata = s.rdata := rfl
@[simp] theorem clearFlags_turns (s : State) : (clearFlags s).turns = s.turns := rfl
@[simp] theorem clearFlags_freeCtr (s : State) : (clearFlags s).freeCtr = s.freeCtr := rfl

/-! ### `accept` -/

@[simp] theorem accept_params (s : State) : (accept s).params = s.params := rfl
@[simp] theorem accept_irqEn (s : State) : (accept s).irqEn = s.irqEn := rfl
@[simp] theorem accept_cmd (s : State) : (accept s).cmd = s.cmd := rfl
@[simp] theorem accept_inLen (s : State) : (accept s).inLen = s.inLen := rfl
@[simp] theorem accept_status (s : State) : (accept s).status = s.status.accepted := rfl
@[simp] theorem accept_outLen (s : State) : (accept s).outLen = 0#32 := rfl
@[simp] theorem accept_eng (s : State) : (accept s).eng = .run := rfl
@[simp] theorem accept_latch (s : State) : (accept s).latch = { opc := s.cmd.opc, isNull := s.cmd.inNull, len := s.inLen } := rfl
@[simp] theorem accept_engine (s : State) : (accept s).engine = s.engine := rfl
@[simp] theorem accept_inMem (s : State) : (accept s).inMem = s.inMem := rfl
@[simp] theorem accept_outMem (s : State) : (accept s).outMem = s.outMem := rfl
@[simp] theorem accept_rdata (s : State) : (accept s).rdata = s.rdata := rfl
@[simp] theorem accept_turns (s : State) : (accept s).turns = s.turns := rfl
@[simp] theorem accept_freeCtr (s : State) : (accept s).freeCtr = s.freeCtr := rfl

/-! ### `softReset` -/

@[simp] theorem softReset_params (s : State) : (softReset s).params = s.params := rfl
@[simp] theorem softReset_irqEn (s : State) : (softReset s).irqEn = false := rfl
@[simp] theorem softReset_cmd (s : State) : (softReset s).cmd = { opc := 0#4, inNull := false } := rfl
@[simp] theorem softReset_inLen (s : State) : (softReset s).inLen = 0#32 := rfl
@[simp] theorem softReset_status (s : State) : (softReset s).status = Status.zero := rfl
@[simp] theorem softReset_outLen (s : State) : (softReset s).outLen = 0#32 := rfl
@[simp] theorem softReset_eng (s : State) : (softReset s).eng = .idle := rfl
@[simp] theorem softReset_latch (s : State) : (softReset s).latch = Config.openLatch s.freeCtr := rfl
@[simp] theorem softReset_engine (s : State) : (softReset s).engine = freeEngine s.freeCtr := rfl
@[simp] theorem softReset_inMem (s : State) : (softReset s).inMem = s.inMem := rfl
@[simp] theorem softReset_outMem (s : State) : (softReset s).outMem = Mem.opened s.freeCtr := rfl
@[simp] theorem softReset_rdata (s : State) : (softReset s).rdata = s.rdata := rfl
@[simp] theorem softReset_turns (s : State) : (softReset s).turns = s.turns := rfl
@[simp] theorem softReset_freeCtr (s : State) : (softReset s).freeCtr = s.freeCtr + 1 := rfl

/-! ### `powerOn` -/

@[simp] theorem powerOn_params (s : State) : (powerOn s).params = s.params := rfl
@[simp] theorem powerOn_irqEn (s : State) : (powerOn s).irqEn = false := rfl
@[simp] theorem powerOn_cmd (s : State) : (powerOn s).cmd = { opc := 0#4, inNull := false } := rfl
@[simp] theorem powerOn_inLen (s : State) : (powerOn s).inLen = 0#32 := rfl
@[simp] theorem powerOn_status (s : State) : (powerOn s).status = Status.zero := rfl
@[simp] theorem powerOn_outLen (s : State) : (powerOn s).outLen = 0#32 := rfl
@[simp] theorem powerOn_eng (s : State) : (powerOn s).eng = .idle := rfl
@[simp] theorem powerOn_latch (s : State) : (powerOn s).latch = Config.openLatch s.freeCtr := rfl
@[simp] theorem powerOn_engine (s : State) : (powerOn s).engine = freeEngine s.freeCtr := rfl
@[simp] theorem powerOn_inMem (s : State) : (powerOn s).inMem = Mem.opened (s.freeCtr + 1) := rfl
@[simp] theorem powerOn_outMem (s : State) : (powerOn s).outMem = Mem.opened s.freeCtr := rfl
@[simp] theorem powerOn_rdata (s : State) : (powerOn s).rdata = s.rdata := rfl
@[simp] theorem powerOn_turns (s : State) : (powerOn s).turns = s.turns := rfl
@[simp] theorem powerOn_freeCtr (s : State) : (powerOn s).freeCtr = s.freeCtr + 2 := rfl

/-! ### `setIrqEn` -/

@[simp] theorem setIrqEn_params (e : Bool) (s : State) : (setIrqEn e s).params = s.params := rfl
@[simp] theorem setIrqEn_irqEn (e : Bool) (s : State) : (setIrqEn e s).irqEn = e := rfl
@[simp] theorem setIrqEn_cmd (e : Bool) (s : State) : (setIrqEn e s).cmd = s.cmd := rfl
@[simp] theorem setIrqEn_inLen (e : Bool) (s : State) : (setIrqEn e s).inLen = s.inLen := rfl
@[simp] theorem setIrqEn_status (e : Bool) (s : State) : (setIrqEn e s).status = s.status := rfl
@[simp] theorem setIrqEn_outLen (e : Bool) (s : State) : (setIrqEn e s).outLen = s.outLen := rfl
@[simp] theorem setIrqEn_eng (e : Bool) (s : State) : (setIrqEn e s).eng = s.eng := rfl
@[simp] theorem setIrqEn_latch (e : Bool) (s : State) : (setIrqEn e s).latch = s.latch := rfl
@[simp] theorem setIrqEn_engine (e : Bool) (s : State) : (setIrqEn e s).engine = s.engine := rfl
@[simp] theorem setIrqEn_inMem (e : Bool) (s : State) : (setIrqEn e s).inMem = s.inMem := rfl
@[simp] theorem setIrqEn_outMem (e : Bool) (s : State) : (setIrqEn e s).outMem = s.outMem := rfl
@[simp] theorem setIrqEn_rdata (e : Bool) (s : State) : (setIrqEn e s).rdata = s.rdata := rfl
@[simp] theorem setIrqEn_turns (e : Bool) (s : State) : (setIrqEn e s).turns = s.turns := rfl
@[simp] theorem setIrqEn_freeCtr (e : Bool) (s : State) : (setIrqEn e s).freeCtr = s.freeCtr := rfl

/-! ### `readTarget` -/

@[simp] theorem readTarget_params (x : Target) (s : State) : (readTarget x s).params = s.params := rfl
@[simp] theorem readTarget_irqEn (x : Target) (s : State) : (readTarget x s).irqEn = s.irqEn := rfl
@[simp] theorem readTarget_cmd (x : Target) (s : State) : (readTarget x s).cmd = s.cmd := rfl
@[simp] theorem readTarget_inLen (x : Target) (s : State) : (readTarget x s).inLen = s.inLen := rfl
@[simp] theorem readTarget_status (x : Target) (s : State) : (readTarget x s).status = s.status := rfl
@[simp] theorem readTarget_outLen (x : Target) (s : State) : (readTarget x s).outLen = s.outLen := rfl
@[simp] theorem readTarget_eng (x : Target) (s : State) : (readTarget x s).eng = s.eng := rfl
@[simp] theorem readTarget_latch (x : Target) (s : State) : (readTarget x s).latch = s.latch := rfl
@[simp] theorem readTarget_engine (x : Target) (s : State) : (readTarget x s).engine = s.engine := rfl
@[simp] theorem readTarget_inMem (x : Target) (s : State) : (readTarget x s).inMem = s.inMem := rfl
@[simp] theorem readTarget_outMem (x : Target) (s : State) : (readTarget x s).outMem = s.outMem := rfl
@[simp] theorem readTarget_rdata (x : Target) (s : State) : (readTarget x s).rdata = readValue x s := rfl
@[simp] theorem readTarget_turns (x : Target) (s : State) : (readTarget x s).turns = s.turns := rfl
@[simp] theorem readTarget_freeCtr (x : Target) (s : State) : (readTarget x s).freeCtr = if readDraws x s then s.freeCtr + 1 else s.freeCtr := rfl

/-! ### STATUS -/

@[simp] theorem Status.dropped_busy (st : Status) : st.dropped.busy = st.busy := rfl
@[simp] theorem Status.dropped_done (st : Status) : st.dropped.done = st.done := rfl
@[simp] theorem Status.dropped_resNull (st : Status) : st.dropped.resNull = st.resNull := rfl
@[simp] theorem Status.dropped_werr (st : Status) : st.dropped.werr = true := rfl
@[simp] theorem Status.dropped_err (st : Status) : st.dropped.err = st.err := rfl
@[simp] theorem Status.dropped_ncause (st : Status) : st.dropped.ncause = st.ncause := rfl

@[simp] theorem Status.accepted_werr (st : Status) : st.accepted.werr = st.werr := rfl

@[simp] theorem Status.completed_busy (st : Status) (res : Result) : (st.completed res).busy = false := by
  cases res <;> rfl

@[simp] theorem Status.completed_done (st : Status) (res : Result) : (st.completed res).done = true := by
  cases res <;> rfl

@[simp] theorem Status.completed_werr (st : Status) (res : Result) :
    (st.completed res).werr = st.werr := by
  cases res <;> rfl

@[simp] theorem Status.cleared_busy (st : Status) : st.cleared.busy = st.busy := by
  unfold Status.cleared; split <;> rfl

@[simp] theorem Status.cleared_werr (st : Status) : st.cleared.werr = false := by
  unfold Status.cleared; split <;> rfl

@[simp] theorem Status.cleared_resNull (st : Status) : st.cleared.resNull = st.resNull := by
  unfold Status.cleared; split <;> rfl

@[simp] theorem Status.cleared_ncause (st : Status) : st.cleared.ncause = st.ncause := by
  unfold Status.cleared; split <;> rfl

/-! ### Runs -/

@[simp] theorem Run.setC_c (r : Run) (c : Compressor) : (r.setC c).eng.c = c := rfl
@[simp] theorem Run.setC_w (r : Run) (c : Compressor) : (r.setC c).eng.w = r.eng.w := rfl
@[simp] theorem Run.setC_r (r : Run) (c : Compressor) : (r.setC c).eng.r = r.eng.r := rfl
@[simp] theorem Run.setC_d (r : Run) (c : Compressor) : (r.setC c).eng.d = r.eng.d := rfl
@[simp] theorem Run.setC_oLen (r : Run) (c : Compressor) : (r.setC c).eng.oLen = r.eng.oLen := rfl
@[simp] theorem Run.setC_out (r : Run) (c : Compressor) : (r.setC c).out = r.out := rfl
@[simp] theorem Run.setD_d (r : Run) (d : Decompressor) : (r.setD d).eng.d = d := rfl
@[simp] theorem Run.setD_r (r : Run) (d : Decompressor) : (r.setD d).eng.r = r.eng.r := rfl
@[simp] theorem Run.setD_oLen (r : Run) (d : Decompressor) : (r.setD d).eng.oLen = r.eng.oLen := rfl
@[simp] theorem Run.setD_out (r : Run) (d : Decompressor) : (r.setD d).out = r.out := rfl
@[simp] theorem Run.setR_r (r : Run) (rd : Reader) : (r.setR rd).eng.r = rd := rfl
@[simp] theorem Run.setR_d (r : Run) (rd : Reader) : (r.setR rd).eng.d = r.eng.d := rfl
@[simp] theorem Run.setR_oLen (r : Run) (rd : Reader) : (r.setR rd).eng.oLen = r.eng.oLen := rfl
@[simp] theorem Run.setR_out (r : Run) (rd : Reader) : (r.setR rd).out = r.out := rfl

end Sys2Proof.Machine
end

