-- ==== Sys2Proof/Laws/Engine.lean ====
section
/-! SUPPORT. One lemma for each shared operation of the engines that says everything it can do, and the
engine runs' stops (R170, R261). -/

namespace Sys2Proof.Machine

/-! ### Peeling a run apart -/

/-- What an `Except` computation that succeeds is made of. -/
theorem bind_eq_ok {ε α β : Type} {x : Except ε α} {f : α → Except ε β} {b : β} :
    (x >>= f) = .ok b ↔ ∃ a, x = .ok a ∧ f a = .ok b := by
  cases x with
  | ok a => exact ⟨fun h => ⟨a, rfl, h⟩, fun ⟨_, h1, h2⟩ => by cases h1; exact h2⟩
  | error e => exact ⟨fun h => (nomatch h), fun ⟨_, h, _⟩ => (nomatch h)⟩

/-- What an `Except` computation that fails is made of. -/
theorem bind_eq_error {ε α β : Type} {x : Except ε α} {f : α → Except ε β} {e : ε} :
    (x >>= f) = .error e ↔ x = .error e ∨ ∃ a, x = .ok a ∧ f a = .error e := by
  cases x with
  | ok a =>
    refine ⟨fun h => .inr ⟨a, rfl, h⟩, fun h => ?_⟩
    rcases h with h | ⟨_, h1, h2⟩
    · exact nomatch h
    · cases h1; exact h2
  | error e' =>
    refine ⟨fun h => .inl (by cases h; rfl), fun h => ?_⟩
    rcases h with h | ⟨_, h, _⟩
    · cases h; rfl
    · exact nomatch h

/-! ### OUT_MEM -/

theorem putOut_eq_ok {p : Params} {v : Elem} {r r' : Run} :
    putOut p v r = .ok r' ↔ r.eng.oLen < p.outCap ∧
      r' = { eng := { r.eng with oLen := r.eng.oLen + 1 }, out := r.out.write r.eng.oLen v } := by
  unfold putOut
  split
  · next h => exact ⟨fun e => ⟨h, by cases e; rfl⟩, fun ⟨_, e⟩ => by rw [e]⟩
  · next h => exact ⟨fun e => (nomatch e), fun ⟨h', _⟩ => absurd h' h⟩

theorem putOut_eq_error {p : Params} {v : Elem} {r : Run} {e : Stop} :
    putOut p v r = .error e ↔ p.outCap ≤ r.eng.oLen ∧ e = .err .outFull := by
  unfold putOut
  split
  · next h => exact ⟨fun e => (nomatch e), fun ⟨h', _⟩ => absurd h (Nat.not_lt.mpr h')⟩
  · next h => exact ⟨fun e => ⟨Nat.not_lt.mp h, by cases e; rfl⟩, fun ⟨_, e⟩ => by rw [e]⟩

/-- A successful `putOuts` puts its elements at O_LEN and after, and changes nothing else of the run. -/
theorem putOuts_ok {p : Params} {vs : Str} {r r' : Run} (h : putOuts p vs r = .ok r') :
    r'.eng = { r.eng with oLen := r.eng.oLen + vs.length } ∧
    (∀ k, k < vs.length → r'.out.read (r.eng.oLen + k) = vs.getD k 0#16) ∧
    (∀ j, j < r.eng.oLen ∨ r.eng.oLen + vs.length ≤ j → r'.out.read j = r.out.read j) ∧
    (vs ≠ [] → r'.eng.oLen ≤ p.outCap) ∧ (r.out.wf → r'.out.wf) := by
  induction vs generalizing r with
  | nil => cases h; simp
  | cons v vs ih =>
    obtain ⟨r₁, h1, h2⟩ := bind_eq_ok.mp h
    obtain ⟨hc, rfl⟩ := putOut_eq_ok.mp h1
    obtain ⟨he, hr, ho, hl, hw⟩ := ih h2
    simp only at he hr ho hl hw
    refine ⟨?_, fun k hk => ?_, fun j hj => ?_, fun _ => ?_, fun hwf => hw (Mem.wf_write hwf _ _)⟩
    · rw [he]; simp; omega
    · cases k with
      | zero => rw [Nat.add_zero, ho _ (.inl (Nat.lt_succ_self _))]; simp
      | succ k =>
        have := hr k (by simpa using hk)
        rw [show r.eng.oLen + (k + 1) = r.eng.oLen + 1 + k by omega, this]; rfl
    · simp only [List.length_cons] at hj
      rw [ho j (by omega), Mem.read_write_other _ _ (by omega)]
    · cases vs with
      | nil => rw [he]; simpa using hc
      | cons w ws => exact hl (by simp)

theorem putOuts_stop {p : Params} {vs : Str} {r : Run} {e : Stop} (h : putOuts p vs r = .error e) :
    e = .err .outFull := by
  induction vs generalizing r with
  | nil => exact nomatch h
  | cons v vs ih =>
    rcases bind_eq_error.mp h with h | ⟨_, _, h⟩
    · exact (putOut_eq_error.mp h).2
    · exact ih h

theorem putOuts_append (p : Params) (vs ws : Str) (r : Run) :
    putOuts p (vs ++ ws) r = putOuts p vs r >>= putOuts p ws := by
  induction vs generalizing r with
  | nil => rfl
  | cons v vs ih =>
    show (putOut p v r >>= putOuts p (vs ++ ws)) = (putOut p v r >>= putOuts p vs) >>= putOuts p ws
    cases putOut p v r with
    | error e => rfl
    | ok r' => exact ih r'

/-! ### Bits -/

theorem emitBits_append (p : Params) (adp : Adapter) (as bs : List Bool) (r : Run) :
    emitBits p adp (as ++ bs) r = emitBits p adp as r >>= emitBits p adp bs := by
  induction as generalizing r with
  | nil => rfl
  | cons a as ih =>
    show (emitBit p adp a r >>= emitBits p adp (as ++ bs)) =
      (emitBit p adp a r >>= emitBits p adp as) >>= emitBits p adp bs
    cases emitBit p adp a r with
    | error e => rfl
    | ok r' => exact ih r'

/-- A token's bits in stream order: its code at the current width, then its payload (R88). -/
def tokenBits (nb : Nat) : Token → List Bool
  | .literal8 x => fieldBits 0 nb ++ fieldBits x.toNat 8
  | .literal16 x => fieldBits 1 nb ++ fieldBits x.toNat 16
  | .endOfStream => fieldBits 2 nb
  | .dictCode k => fieldBits k nb

theorem emitToken_eq_emitBits (p : Params) (adp : Adapter) (nb : Nat) (t : Token) (r : Run) :
    emitToken p adp nb t r = emitBits p adp (tokenBits nb t) r := by
  cases t with
  | literal8 x => exact (emitBits_append p adp _ _ r).symm
  | literal16 x => exact (emitBits_append p adp _ _ r).symm
  | endOfStream => rfl
  | dictCode k => rfl

@[simp] theorem fieldBits_length (v n : Nat) : (fieldBits v n).length = n := by simp [fieldBits]

theorem fieldBits_getElem (v n i : Nat) (h : i < (fieldBits v n).length) :
    (fieldBits v n)[i] = v.testBit i := by simp [fieldBits]

theorem allocCode_eq_ok {p : Params} {next k n : Nat} :
    allocCode p next = .ok (k, n) ↔ next < p.dictCap ∧ k = next ∧ n = next + 1 := by
  unfold allocCode
  split
  · next h => simp [h, eq_comm]
  · next h => simp [h]

theorem allocCode_eq_error {p : Params} {next : Nat} {e : Stop} :
    allocCode p next = .error e ↔ p.dictCap ≤ next ∧ e = .err .dictFull := by
  unfold allocCode
  split
  · next h => simp [h]
  · next h => simp [Nat.not_lt.mp h, eq_comm]

/-! ### Stops -/

/-- The stops of an engine run (R170, R261). -/
def compressStops (e : Stop) : Prop := e = .err .dictFull ∨ e = .err .outFull

/-- The stops of a decompress run (R170, R261). -/
def decompressStops (e : Stop) : Prop := compressStops e ∨ e = .null .truncated ∨ e = .null .badCode

theorem emitBit_stop {p : Params} {adp : Adapter} {b : Bool} {r : Run} {e : Stop}
    (h : emitBit p adp b r = .error e) : e = .err .outFull := by
  unfold emitBit at h
  simp only at h
  split at h
  · rcases bind_eq_error.mp h with h | ⟨_, _, h⟩
    · rcases bind_eq_error.mp h with h | ⟨_, _, h⟩
      · exact putOuts_stop h
      · exact nomatch h
    · exact nomatch h
  · exact nomatch h

theorem emitBits_stop {p : Params} {adp : Adapter} {bs : List Bool} {r : Run} {e : Stop}
    (h : emitBits p adp bs r = .error e) : e = .err .outFull := by
  induction bs generalizing r with
  | nil => exact nomatch h
  | cons b bs ih =>
    rcases bind_eq_error.mp h with h | ⟨_, _, h⟩
    · exact emitBit_stop h
    · exact ih h

theorem emitToken_stop {p : Params} {adp : Adapter} {nb : Nat} {t : Token} {r : Run} {e : Stop}
    (h : emitToken p adp nb t r = .error e) : e = .err .outFull :=
  emitBits_stop (emitToken_eq_emitBits p adp nb t r ▸ h)

theorem flushLoop_stop {p : Params} {adp : Adapter} {n : Nat} {r : Run} {e : Stop}
    (h : flushLoop p adp n r = .error e) : e = .err .outFull := by
  induction n generalizing r with
  | zero => exact nomatch h
  | succ n ih =>
    rcases bind_eq_error.mp h with h | ⟨_, _, h⟩
    · exact emitBit_stop h
    · split at h
      · exact nomatch h
      · exact ih h

theorem emitPhrase_stop {p : Params} {adp : Adapter} {r : Run} {e : Stop}
    (h : emitPhrase p adp r = .error e) : e = .err .outFull := by
  rcases bind_eq_error.mp h with h | ⟨_, _, h⟩
  · exact emitToken_stop h
  · exact nomatch h

theorem compressStep_stop {p : Params} {adp : Adapter} {x : Elem} {r : Run} {e : Stop}
    (h : compressStep p adp x r = .error e) : compressStops e := by
  rcases bind_eq_error.mp h with h | ⟨c, _, h⟩
  · unfold register at h
    split at h
    · exact nomatch h
    · rcases bind_eq_error.mp h with h | ⟨_, _, h⟩
      · exact .inl (allocCode_eq_error.mp h).2
      · exact nomatch h
  · rcases bind_eq_error.mp h with h | ⟨_, _, h⟩
    · unfold extendOrEmit at h
      simp only at h
      split at h
      · exact nomatch h
      · rcases bind_eq_error.mp h with h | ⟨r', _, h⟩
        · exact .inr (emitPhrase_stop h)
        · rcases bind_eq_error.mp h with h | ⟨_, _, h⟩
          · rcases bind_eq_error.mp h with h | ⟨_, _, h⟩
            · exact .inl (allocCode_eq_error.mp h).2
            · exact nomatch h
          · exact nomatch h
    · exact nomatch h

theorem compressLoop_stop {p : Params} {adp : Adapter} {v : Str} {r : Run} {e : Stop}
    (h : compressLoop p adp v r = .error e) : compressStops e := by
  induction v generalizing r with
  | nil => exact nomatch h
  | cons x xs ih =>
    rcases bind_eq_error.mp h with h | ⟨_, _, h⟩
    · exact compressStep_stop h
    · exact ih h

theorem compressFinish_stop {p : Params} {adp : Adapter} {r : Run} {e : Stop}
    (h : compressFinish p adp r = .error e) : e = .err .outFull := by
  rcases bind_eq_error.mp h with h | ⟨_, _, h⟩
  · unfold emitLastPhrase at h
    split at h
    · exact emitPhrase_stop h
    · exact nomatch h
  · rcases bind_eq_error.mp h with h | ⟨_, _, h⟩
    · exact emitToken_stop h
    · unfold flush at h
      split at h
      · exact nomatch h
      · exact flushLoop_stop h

theorem compressFraming_stop {p : Params} {adp : Adapter} {r : Run} {e : Stop}
    (h : compressFraming p adp r = .error e) : e = .err .outFull := by
  cases adp with
  | base64 => exact putOuts_stop h
  | utf16 => exact putOuts_stop h
  | uri => exact nomatch h
  | bytes => exact nomatch h
  | plain => exact nomatch h

/-- A compress command never ends with NULL (R261): its run stops with DICT_FULL or OUT_FULL only. -/
theorem runCompress_stop {p : Params} {adp : Adapter} {v : Str} {r : Run} {e : Stop}
    (h : runCompress p adp v r = .error e) : compressStops e := by
  rcases bind_eq_error.mp h with h | ⟨_, _, h⟩
  · rcases bind_eq_error.mp h with h | ⟨_, _, h⟩
    · exact compressLoop_stop h
    · exact .inr (compressFinish_stop h)
  · exact .inr (compressFraming_stop h)

/-- Everything `readBit` can do (R123). -/
theorem readBit_cases {p : Params} {fetch : Nat → BitVec 16} {r : Reader} {x : Except Stop (Bool × Reader)}
    (h : readBit p fetch r = x) :
    (r.exhausted = true ∧ p.pastEnd = .null ∧ x = .error (.null .truncated)) ∨
    ¬(r.exhausted = true ∧ p.pastEnd = .null) ∧ ∃ r', x = .ok (decide (r.val &&& r.mask ≠ 0#16), r') ∧
      (r.mask >>> 1 = 0#16 ∧ r' = { r with
        mask := r.reset, val := fetchUnit fetch r.len r.index, index := r.index + 1 } ∨
       r.mask >>> 1 ≠ 0#16 ∧ r' = { r with mask := r.mask >>> 1 }) := by
  subst h
  unfold readBit
  split
  · next h => exact .inl ⟨h.1, h.2, rfl⟩
  · next h =>
    refine .inr ⟨h, ?_⟩
    simp only
    split
    · next hm => exact ⟨_, rfl, .inl ⟨hm, rfl⟩⟩
    · next hm => exact ⟨_, rfl, .inr ⟨hm, rfl⟩⟩

theorem readBitsFrom_stop {p : Params} {fetch : Nat → BitVec 16} {n i acc : Nat} {r : Reader} {e : Stop}
    (h : readBitsFrom p fetch n i acc r = .error e) : e = .null .truncated := by
  induction n generalizing i acc r with
  | zero => exact nomatch h
  | succ n ih =>
    rcases bind_eq_error.mp h with h | ⟨_, _, h⟩
    · rcases readBit_cases h with ⟨_, _, h⟩ | ⟨_, _, h, _⟩
      · cases h; rfl
      · exact nomatch h
    · exact ih h

theorem runBits_stop {p : Params} {fetch : Nat → BitVec 16} {n : Nat} {r : Run} {e : Stop}
    (h : runBits p fetch n r = .error e) : e = .null .truncated := by
  rcases bind_eq_error.mp h with h | ⟨_, _, h⟩
  · exact readBitsFrom_stop h
  · exact nomatch h

theorem payload_stop {p : Params} {fetch : Nat → BitVec 16} {n : Nat} {r : Run} {e : Stop}
    (h : payload p fetch n r = .error e) : e = .null .truncated := by
  rcases bind_eq_error.mp h with h | ⟨_, _, h⟩
  · exact runBits_stop h
  · exact nomatch h

theorem addEntry_eq_ok {p : Params} {s : Str} {d d' : Decompressor} {k : Nat} :
    addEntry p s d = .ok (k, d') ↔ d.next < p.dictCap ∧ k = d.next ∧
      d' = { d with dict := d.dict ++ [(d.next, s)], next := d.next + 1,
                    enl := (grow d.enl d.nb).1, nb := (grow d.enl d.nb).2 } := by
  unfold addEntry
  rw [bind_eq_ok]
  constructor
  · rintro ⟨⟨k', n'⟩, h1, h2⟩
    obtain ⟨hc, rfl, rfl⟩ := allocCode_eq_ok.mp h1
    cases h2
    exact ⟨hc, rfl, rfl⟩
  · rintro ⟨hc, rfl, rfl⟩
    exact ⟨(d.next, d.next + 1), allocCode_eq_ok.mpr ⟨hc, rfl, rfl⟩, rfl⟩

theorem addEntry_stop {p : Params} {s : Str} {d : Decompressor} {e : Stop}
    (h : addEntry p s d = .error e) : e = .err .dictFull := by
  rcases bind_eq_error.mp h with h | ⟨_, _, h⟩
  · exact (allocCode_eq_error.mp h).2
  · exact nomatch h

theorem firstToken_stop {p : Params} {fetch : Nat → BitVec 16} {r : Run} {e : Stop}
    (h : firstToken p fetch r = .error e) : decompressStops e := by
  rcases bind_eq_error.mp h with h | ⟨⟨t, r₁⟩, _, h⟩
  · exact .inr (.inl (runBits_stop h))
  · simp only at h
    split at h
    · rcases bind_eq_error.mp h with h | ⟨⟨x, r₂⟩, _, h⟩
      · exact .inr (.inl (payload_stop h))
      · rcases bind_eq_error.mp h with h | ⟨_, _, h⟩
        · exact .inl (.inr (putOuts_stop h))
        · exact nomatch h
    · exact nomatch h

theorem literalCode_stop {p : Params} {fetch : Nat → BitVec 16} {n : Nat} {r : Run} {e : Stop}
    (h : literalCode p fetch n r = .error e) : decompressStops e := by
  unfold literalCode at h
  split at h
  · rcases bind_eq_error.mp h with h | ⟨_, _, h⟩
    · exact .inr (.inl (payload_stop h))
    · rcases bind_eq_error.mp h with h | ⟨_, _, h⟩
      · exact .inl (.inl (addEntry_stop h))
      · exact nomatch h
  · exact nomatch h

theorem lookupEntry_stop {n : Nat} {d : Decompressor} {e : Stop} (h : lookupEntry n d = .error e) :
    e = .null .badCode ∧ d.next < n := by
  unfold lookupEntry at h
  split at h
  · exact nomatch h
  · split at h
    · exact nomatch h
    · cases h; exact ⟨rfl, by omega⟩

theorem emitEntry_stop {p : Params} {r : Run} {e : Stop} (h : emitEntry p r = .error e) :
    compressStops e := by
  rcases bind_eq_error.mp h with h | ⟨_, _, h⟩
  · exact .inr (putOuts_stop h)
  · rcases bind_eq_error.mp h with h | ⟨_, _, h⟩
    · exact .inl (addEntry_stop h)
    · exact nomatch h

theorem decompressStep_stop {p : Params} {fetch : Nat → BitVec 16} {r : Run} {e : Stop}
    (h : decompressStep p fetch r = .error e) : decompressStops e := by
  unfold decompressStep at h
  split at h
  · cases h; exact .inr (.inl rfl)
  · rcases bind_eq_error.mp h with h | ⟨⟨code, r₁⟩, _, h⟩
    · exact .inr (.inl (runBits_stop h))
    · simp only at h
      split at h
      · exact nomatch h
      · rcases bind_eq_error.mp h with h | ⟨⟨code', r₂⟩, _, h⟩
        · exact literalCode_stop h
        · rcases bind_eq_error.mp h with h | ⟨_, _, h⟩
          · exact .inr (.inr (lookupEntry_stop h).1)
          · rcases bind_eq_error.mp h with h | ⟨_, _, h⟩
            · exact .inl (emitEntry_stop h)
            · exact nomatch h

theorem decompressLoop_stop {p : Params} {fetch : Nat → BitVec 16} {n : Nat} {r : Run} {e : Stop}
    (h : decompressLoop p fetch n r = .error e) : decompressStops e := by
  induction n generalizing r with
  | zero => cases h; exact .inr (.inl rfl)
  | succ n ih =>
    rcases bind_eq_error.mp h with h | ⟨⟨goOn, r₁⟩, _, h⟩
    · exact decompressStep_stop h
    · simp only at h
      split at h
      · exact ih h
      · exact nomatch h

/-- The stops of a decompress command (R261). -/
theorem runDecompress_stop {p : Params} {adp : Adapter} {IN : Nat → Elem} {n : Nat} {r : Run} {e : Stop}
    (h : runDecompress p adp IN n r = .error e) :
    decompressStops e ∨ e = .null .emptyInput ∨ e = .null .oddLength := by
  unfold runDecompress at h
  split at h
  · cases h; exact .inr (.inl rfl)
  · split at h
    · cases h; exact .inr (.inr rfl)
    · rcases bind_eq_error.mp h with h | ⟨⟨goOn, r₁⟩, _, h⟩
      · exact .inl (firstToken_stop h)
      · simp only at h
        split at h
        · exact .inl (decompressLoop_stop h)
        · exact nomatch h

/-! ### Completion -/

/-- A command's end is one completion of the state, with OUT_MEM and the engine's registers as the run
left them. -/
theorem finishRun_cases (s : State) (x : Except Stop Run) :
    (∃ r, x = .ok r ∧
      finishRun s x = complete (.str r.eng.oLen) { s with engine := r.eng, outMem := r.out }) ∨
    (∃ c, x = .error (.null c) ∧ finishRun s x = complete (.null c) s) ∨
    ∃ e, x = .error (.err e) ∧ finishRun s x = complete (.error e) s := by
  match x with
  | .ok r => exact .inl ⟨r, rfl, rfl⟩
  | .error (.null c) => exact .inr (.inl ⟨c, rfl, rfl⟩)
  | .error (.err e) => exact .inr (.inr ⟨e, rfl, rfl⟩)

end Sys2Proof.Machine
end

