-- ==== Sys2Proof/Laws/PerInstr.lean ====
section
/-! SUPPORT. Statements for all instructions, made per instruction. The family TableRow: an instruction's
word has the match of its row of spec/opcode_table.json under the row's mask. -/

namespace Sys2Proof.Laws.TableRow

/-- The (match, mask) of an instruction's row of spec/opcode_table.json. -/
def row : Instr → Word × Word
  | .cmpB64 _ => (0x00000000#32, 0x0000000F#32)
  | .decB64 _ => (0x00000001#32, 0x0000000F#32)
  | .cmpU16 _ => (0x00000002#32, 0x0000000F#32)
  | .decU16 _ => (0x00000003#32, 0x0000000F#32)
  | .cmpUri _ => (0x00000004#32, 0x0000000F#32)
  | .decUri _ => (0x00000005#32, 0x0000000F#32)
  | .cmpU8a _ => (0x00000006#32, 0x0000000F#32)
  | .decU8a _ => (0x00000007#32, 0x0000000F#32)
  | .cmpStr _ => (0x00000008#32, 0x0000000F#32)
  | .decStr _ => (0x00000009#32, 0x0000000F#32)
  | .start _ _ => (0x00000001#32, 0x00000005#32)
  | .clear _ => (0x00000002#32, 0x00000006#32)
  | .sreset _ _ _ => (0x00000004#32, 0x00000004#32)
  | .irqcfg _ => (0x00000000#32, 0x00000007#32)

/-- An instruction's word matches its row, and sets no reserved bit of its format. -/
def Statement (i : Instr) : Prop :=
  encode i &&& (row i).2 = (row i).1 ∧ encode i &&& significantBits (formatOf i) = encode i

theorem cmpB64 : ∀ n, Statement (.cmpB64 n) := by unfold Statement; decide
theorem decB64 : ∀ n, Statement (.decB64 n) := by unfold Statement; decide
theorem cmpU16 : ∀ n, Statement (.cmpU16 n) := by unfold Statement; decide
theorem decU16 : ∀ n, Statement (.decU16 n) := by unfold Statement; decide
theorem cmpUri : ∀ n, Statement (.cmpUri n) := by unfold Statement; decide
theorem decUri : ∀ n, Statement (.decUri n) := by unfold Statement; decide
theorem cmpU8a : ∀ n, Statement (.cmpU8a n) := by unfold Statement; decide
theorem decU8a : ∀ n, Statement (.decU8a n) := by unfold Statement; decide
theorem cmpStr : ∀ n, Statement (.cmpStr n) := by unfold Statement; decide
theorem decStr : ∀ n, Statement (.decStr n) := by unfold Statement; decide
theorem start : ∀ e c, Statement (.start e c) := by unfold Statement; decide
theorem clear : ∀ e, Statement (.clear e) := by unfold Statement; decide
theorem sreset : ∀ e s c, Statement (.sreset e s c) := by unfold Statement; decide
theorem irqcfg : ∀ e, Statement (.irqcfg e) := by unfold Statement; decide

end Sys2Proof.Laws.TableRow
end

