-- ==== Sys2Proof/Laws/Step.lean ====
section
/-! SUPPORT. What a step can do, once: every step that answers a next state is one of the cases of
`step_cases`, and every command is a completion. -/

namespace Sys2Proof.Machine

/-- A command ends in one of three ways: its input is NULL, or longer than IN_CAP, or its run says. -/
theorem execute_cases (inNull : Bool) (run : Except Stop Run) (s : State) :
    (inNull = true ∧ execute inNull run s = complete (.str 0) s) ∨
    (inNull = false ∧ s.params.inCap < s.latch.len.toNat ∧
      execute inNull run s = complete (.error .inLenRange) s) ∨
    (inNull = false ∧ s.latch.len.toNat ≤ s.params.inCap ∧ execute inNull run s = finishRun s run) := by
  unfold execute
  cases inNull with
  | true => exact .inl ⟨rfl, rfl⟩
  | false =>
    rcases Nat.lt_or_ge s.params.inCap s.latch.len.toNat with h | h
    · exact .inr (.inl ⟨rfl, h, by simp [h]⟩)
    · exact .inr (.inr ⟨rfl, h, by simp [Nat.not_lt.mpr h]⟩)

/-- A compress command is one completion, of the state with the engine's registers and OUT_MEM replaced;
never with NULL. -/
theorem executeCompress_cases (adp : Adapter) (inNull : Bool) (s : State) :
    (∃ r n, executeCompress adp inNull s =
      complete (.str n) { s with engine := r.eng, outMem := r.out } ∧
      (inNull = true ∧ r = s.run ∧ n = 0 ∨
       inNull = false ∧ s.latch.len.toNat ≤ s.params.inCap ∧
         runCompress s.params adp s.input s.run = .ok r ∧ n = r.eng.oLen)) ∨
    ∃ e, executeCompress adp inNull s = complete (.error e) s ∧
      (e = .dictFull ∨ e = .outFull ∨
       e = .inLenRange ∧ inNull = false ∧ s.params.inCap < s.latch.len.toNat) := by
  unfold executeCompress
  rcases execute_cases inNull (runCompress s.params adp s.input s.run) s with
    ⟨hn, he⟩ | ⟨hn, hl, he⟩ | ⟨hn, hl, he⟩ <;> rw [he]
  · exact .inl ⟨s.run, 0, rfl, .inl ⟨hn, rfl, rfl⟩⟩
  · exact .inr ⟨_, rfl, .inr (.inr ⟨rfl, hn, hl⟩)⟩
  · rcases finishRun_cases s (runCompress s.params adp s.input s.run) with
      ⟨r, hr, hf⟩ | ⟨c, hr, _⟩ | ⟨e, hr, hf⟩
    · exact .inl ⟨r, r.eng.oLen, hf, .inr ⟨hn, hl, hr, rfl⟩⟩
    · rcases runCompress_stop hr with h | h <;> exact nomatch h
    · refine .inr ⟨e, hf, ?_⟩
      rcases runCompress_stop hr with h | h <;> cases h <;> simp

/-- A decompress command is one completion, of the state with the engine's registers and OUT_MEM
replaced. -/
theorem executeDecompress_cases (adp : Adapter) (inNull : Bool) (s : State) :
    (∃ r n, executeDecompress adp inNull s =
      complete (.str n) { s with engine := r.eng, outMem := r.out } ∧
      (inNull = true ∧ r = s.run ∧ n = 0 ∨
       inNull = false ∧ s.latch.len.toNat ≤ s.params.inCap ∧
         runDecompress s.params adp s.inElem s.latch.len.toNat s.run = .ok r ∧ n = r.eng.oLen)) ∨
    (∃ c, executeDecompress adp inNull s = complete (.null c) s ∧ c ≠ .none) ∨
    ∃ e, executeDecompress adp inNull s = complete (.error e) s ∧
      (e = .dictFull ∨ e = .outFull ∨
       e = .inLenRange ∧ inNull = false ∧ s.params.inCap < s.latch.len.toNat) := by
  unfold executeDecompress
  rcases execute_cases inNull (runDecompress s.params adp s.inElem s.latch.len.toNat s.run) s with
    ⟨hn, he⟩ | ⟨hn, hl, he⟩ | ⟨hn, hl, he⟩ <;> rw [he]
  · exact .inl ⟨s.run, 0, rfl, .inl ⟨hn, rfl, rfl⟩⟩
  · exact .inr (.inr ⟨_, rfl, .inr (.inr ⟨rfl, hn, hl⟩)⟩)
  · rcases finishRun_cases s (runDecompress s.params adp s.inElem s.latch.len.toNat s.run) with
      ⟨r, hr, hf⟩ | ⟨c, hr, hf⟩ | ⟨e, hr, hf⟩
    · exact .inl ⟨r, r.eng.oLen, hf, .inr ⟨hn, hl, hr, rfl⟩⟩
    · refine .inr (.inl ⟨c, hf, ?_⟩)
      rcases runDecompress_stop hr with ((h | h) | h | h) | h | h <;> cases h <;> simp
    · refine .inr (.inr ⟨e, hf, ?_⟩)
      rcases runDecompress_stop hr with ((h | h) | h | h) | h | h <;> cases h <;> simp

/-- An instruction decoded from a CMD word is a command of one of the five adapters. -/
theorem decode_cmd_cases {w : Word} {i : Instr} (h : decode .cmd w = .ok i) (s : State) :
    ∃ adp n, exec i s = .next (executeCompress adp n s) ∨ exec i s = .next (executeDecompress adp n s) := by
  simp only [decode, decodeCmd] at h
  split at h <;> cases h
  · exact ⟨.base64, _, .inl rfl⟩
  · exact ⟨.base64, _, .inr rfl⟩
  · exact ⟨.utf16, _, .inl rfl⟩
  · exact ⟨.utf16, _, .inr rfl⟩
  · exact ⟨.uri, _, .inl rfl⟩
  · exact ⟨.uri, _, .inr rfl⟩
  · exact ⟨.bytes, _, .inl rfl⟩
  · exact ⟨.bytes, _, .inr rfl⟩
  · exact ⟨.plain, _, .inl rfl⟩
  · exact ⟨.plain, _, .inr rfl⟩

/-- What a CTRL word does (R247). -/
theorem exec_decodeCtrl (w : Word) (s : State) :
    exec (decodeCtrl w) s = .next (
      if w.getLsbD 2 then softReset s
      else if w.getLsbD 0 then
        startCommand (if w.getLsbD 1 then clearFlags (setIrqEn (w.getLsbD 8) s)
          else setIrqEn (w.getLsbD 8) s)
      else if w.getLsbD 1 then clearFlags (setIrqEn (w.getLsbD 8) s)
      else setIrqEn (w.getLsbD 8) s) := by
  unfold decodeCtrl
  split
  · rfl
  · split
    · rfl
    · split <;> rfl

/-- What `start()` can do (R240). -/
theorem startCommand_cases (s : State) :
    (s.status.busy = true ∧ startCommand s = { s with status := s.status.dropped }) ∨
    s.status.busy = false ∧
      ((0xA ≤ s.cmd.opc.toNat ∧ startCommand s = complete (.error .illegalCmd) (accept s)) ∨
       (s.cmd.opc.toNat < 0xA ∧ startCommand s = accept s)) := by
  unfold startCommand
  split
  · next h => exact .inl ⟨h, rfl⟩
  · next h =>
    refine .inr ⟨by simpa using h, ?_⟩
    split
    · next h1 => exact .inl ⟨h1, rfl⟩
    · next h1 => exact .inr ⟨Nat.not_le.mp h1, rfl⟩

/-- Everything one step that answers a next state can do: an idle engine's turn, a command, a CTRL write, a
plain write or read, or rst; `u` is the state with the turn taken off. -/
theorem step_cases {s t : State} (h : step s = .next t) :
    ∃ ts, (s.turns = [] ∧ ts = [] ∨ ∃ x, s.turns = x :: ts) ∧
    let u := { s with turns := ts }
    ((s.turns = [] ∨ s.turns = .engine :: ts) ∧
      (s.eng = .idle ∧ t = u ∨
       s.eng = .run ∧ ((∃ adp n, t = executeCompress adp n u ∨ t = executeDecompress adp n u) ∨
         t = complete (.error .illegalCmd) u))) ∨
    (∃ a d, s.turns = .host (.write a d) :: ts ∧ targetOf s.params a = some (.reg .ctrl) ∧
      exec (decodeCtrl d) u = .next t) ∨
    (∃ a d x, s.turns = .host (.write a d) :: ts ∧ targetOf s.params a = some x ∧ x ≠ .reg .ctrl ∧
      t = writeTarget x d u) ∨
    (∃ a x, s.turns = .host (.read a) :: ts ∧ targetOf s.params a = some x ∧ t = readTarget x u) ∨
    (s.turns = .rst :: ts ∧ t = powerOn u) := by
  have engine : ∀ u : State, engineTurn u = .next t →
      u.eng = .idle ∧ t = u ∨
      u.eng = .run ∧ ((∃ adp n, t = executeCompress adp n u ∨ t = executeDecompress adp n u) ∨
        t = complete (.error .illegalCmd) u) := by
    intro u hu
    unfold engineTurn at hu
    split at hu
    · next he => cases hu; exact .inl ⟨he, rfl⟩
    · next he =>
      refine .inr ⟨he, ?_⟩
      split at hu
      · next i hd =>
        obtain ⟨adp, n, hx | hx⟩ := decode_cmd_cases hd u
        · rw [hx] at hu; cases hu; exact .inl ⟨adp, n, .inl rfl⟩
        · rw [hx] at hu; cases hu; exact .inl ⟨adp, n, .inr rfl⟩
      · cases hu; exact .inr rfl
  unfold step at h
  split at h
  · next ht => exact ⟨[], .inl ⟨ht, rfl⟩, .inl ⟨.inl ht, by
      have hs : s = { s with turns := [] } := by rw [← ht]
      rw [hs] at h; exact engine _ h⟩⟩
  · next ts ht => exact ⟨ts, .inr ⟨_, ht⟩, .inl ⟨.inr ht, engine _ h⟩⟩
  · next x ts ht =>
    refine ⟨ts, .inr ⟨_, ht⟩, .inr ?_⟩
    cases x with
    | write a d =>
      simp only [hostTurn] at h
      split at h
      · exact nomatch h
      · next he => exact .inl ⟨a, d, ht, he, h⟩
      · next x hne he =>
        cases h
        exact .inr (.inl ⟨a, d, x, ht, he, fun hx => hne hx, rfl⟩)
    | read a =>
      simp only [hostTurn] at h
      split at h
      · exact nomatch h
      · next x he => cases h; exact .inr (.inr (.inl ⟨a, x, ht, he, rfl⟩))
  · next ts ht => cases h; exact ⟨ts, .inr ⟨_, ht⟩, .inr (.inr (.inr (.inr ⟨ht, rfl⟩)))⟩

end Sys2Proof.Machine
end

