-- ==== Sys2Proof/Tests/Slice0.lean ====
section
/-! SUPPORT. Tests of the model against the spec's own vectors (spec/95_test_vectors.md) and encoding tables, and
for each statement with hypotheses a witness that meets them. -/

namespace Sys2Proof.Tests

open Sys2Proof.Machine

set_option maxRecDepth 8000

/-! ### Helpers -/

/-- Parameters with small capacities. -/
def params (inCap outCap dictCap : Nat) : Params :=
  { Params.default with inCap := inCap, outCap := outCap, dictCap := dictCap }

/-- A running command's state: the input in IN_MEM, latched with its length. -/
def loaded (p : Params) (v : List Nat) : State :=
  { State.resetWith p with
    inMem := { gen := 0, cells := v.zipIdx.map fun x => (x.2, BitVec.ofNat 16 x.1) }
    latch := { opc := 0#4, isNull := false, len := BitVec.ofNat 32 v.length }
    status := Status.zero.accepted, eng := .run }

/-- The state an outcome holds. -/
def after (o : Host.Outcome State Fault Refusal) : State :=
  match o with
  | .next t => t
  | .fault _ => State.reset
  | .refused _ => State.reset

/-- An instruction on a loaded input: STATUS and the result. -/
def report (p : Params) (i : Instr) (v : List Nat) : Nat × List Nat :=
  let t := after (exec i (loaded p v))
  (t.status.word.toNat, t.resultView.map BitVec.toNat)

/-- The state after a host program and its engine turns. -/
def ran (n : Nat) (prog : List Stmt) (s : State) : State := after (core.run n (s.withProgram prog))

theorem next_of_after {o : Host.Outcome State Fault Refusal}
    (h : (match o with | .next _ => true | .fault _ => false | .refused _ => false) = true) :
    o = .next (after o) := by
  cases o with
  | next t => rfl
  | fault r => exact nomatch h
  | refused r => exact nomatch h

theorem ok_of_toBool {α : Type} {x : Except Stop α} (h : x.toBool = true) : ∃ a, x = .ok a := by
  cases x with
  | ok a => exact ⟨a, rfl⟩
  | error e => exact nomatch h

/-! ### Well-formedness: each check refuses an ill-formed term (R7, R62, R63, R88, R90) -/

theorem test_wf_default : Params.default.wf = true := by decide
theorem test_wf_inCap_zero : (params 0 1 4).wf = false := by decide
theorem test_wf_inCap_big : (params (2 ^ 26 + 1) 1 4).wf = false := by decide
theorem test_wf_outCap_zero : (params 1 0 4).wf = false := by decide
theorem test_wf_outCap_big : (params 1 (2 ^ 26 + 1) 4).wf = false := by decide
theorem test_wf_dictCap_small : (params 1 1 3).wf = false := by decide
theorem test_wf_dictCap_big : (params 1 1 (2 ^ 29 + 1)).wf = false := by decide
theorem test_wf_base_unaligned : { Params.default with base := 0x40000004#32 }.wf = false := by decide
theorem test_wf_stmt : (Stmt.wrIn 5 0#32).wf (params 5 5 4) = false ∧
    (Stmt.rdOut 5).wf (params 5 5 4) = false := by decide
theorem test_wf_token : (Token.literal8 0x100#16).wf = false ∧ (Token.literal16 0xFF#16).wf = false ∧
    (Token.dictCode 2).wf = false := by decide

/-! ### Decoding: words written out from R80, R81 and R85 -/

theorem test_decode_CMP_B64 : decode .cmd 0b00000#32 = .ok (.cmpB64 false) := by rfl
theorem test_decode_DEC_B64 : decode .cmd 0b00001#32 = .ok (.decB64 false) := by rfl
theorem test_decode_CMP_U16 : decode .cmd 0b00010#32 = .ok (.cmpU16 false) := by rfl
theorem test_decode_DEC_U16 : decode .cmd 0b10011#32 = .ok (.decU16 true) := by rfl
theorem test_decode_CMP_URI : decode .cmd 0b00100#32 = .ok (.cmpUri false) := by rfl
theorem test_decode_DEC_URI : decode .cmd 0b00101#32 = .ok (.decUri false) := by rfl
theorem test_decode_CMP_U8A : decode .cmd 0b10110#32 = .ok (.cmpU8a true) := by rfl
theorem test_decode_DEC_U8A : decode .cmd 0b00111#32 = .ok (.decU8a false) := by rfl
theorem test_decode_CMP_STR : decode .cmd 0b01000#32 = .ok (.cmpStr false) := by rfl
theorem test_decode_DEC_STR : decode .cmd 0b11001#32 = .ok (.decStr true) := by rfl
theorem test_decode_reserved : decode .cmd 0b01010#32 = .error (.reservedOpcode 0xA#4) ∧
    decode .cmd 0b11111#32 = .error (.reservedOpcode 0xF#4) := by exact ⟨rfl, rfl⟩
theorem test_decode_START : decode .ctrl 0x00000001#32 = .ok (.start false false) ∧
    decode .ctrl 0x00000103#32 = .ok (.start true true) := by exact ⟨rfl, rfl⟩
theorem test_decode_CLEAR : decode .ctrl 0x00000002#32 = .ok (.clear false) := by rfl
theorem test_decode_SRESET : decode .ctrl 0x00000004#32 = .ok (.sreset false false false) := by rfl
theorem test_decode_IRQCFG : decode .ctrl 0x00000100#32 = .ok (.irqcfg true) ∧
    decode .ctrl 0xFFFFFEF8#32 = .ok (.irqcfg false) := by exact ⟨rfl, rfl⟩
theorem test_table_words : decodeTableWord 8 1 = some (.decB64 false) ∧
    decodeTableWord 16 1 = some (.start false false) ∧ decodeTableWord 16 0x100 = some (.irqcfg true) ∧
    decodeTableWord 8 0xA = none := by decide

/-! ### The Bit Writer, the Bit Reader and growth (95, section 2) -/

theorem test_B2_B3_field_bits : fieldBits 2 3 = [false, true, false] ∧
    fieldBits 0x61 8 = [true, false, false, false, false, true, true, false] := by decide
theorem test_B8_reader :
    ((readBits Params.default (fun _ => 0x2190#16) 2 (readerInit (fun _ => 0x2190#16) .sixteen 1)).toOption.map
      fun x => (x.1, x.2.mask.toNat)) = some (0, 0x2000) := by decide
theorem test_G1_to_G4 : grow 2 2 = (1, 2) ∧ grow 1 2 = (4, 3) ∧ grow 1 3 = (8, 4) ∧ grow 1 4 = (16, 5) := by
  decide

/-! ### The ten commands (95, sections 3 to 5): STATUS and the result -/

/-- A6 -/
theorem test_CMP_B64_hello : report Params.default (.cmpB64 false)
    [0x68, 0x65, 0x6C, 0x6C, 0x6F, 0x20, 0x68, 0x65, 0x6C, 0x6C, 0x6F, 0x20, 0x68, 0x65, 0x6C, 0x6C, 0x6F] =
    (2, [0x42, 0x59, 0x55, 0x77, 0x4E, 0x6D, 0x44, 0x32, 0x41, 0x45, 0x6F, 0x54, 0x63, 0x70, 0x41, 0x3D]) := by
  decide
/-- A10, E10: the padding needs OUT[3] -/
theorem test_CMP_B64_full : report (params 8 3 8) (.cmpB64 false) [0x61] = (0x042, []) := by decide
/-- A9: `*` reads as 0 -/
theorem test_DEC_B64_star : report Params.default (.decB64 false) [0x49, 0x5A, 0x2A, 0x3D] = (2, [0x61]) := by
  decide
/-- S5 -/
theorem test_DEC_B64_cut : report Params.default (.decB64 false)
    [0x42, 0x59, 0x55, 0x77, 0x4E, 0x6D, 0x44, 0x32, 0x41, 0x45, 0x6F, 0x54, 0x63, 0x70] = (0x206, []) := by decide
/-- A15 -/
theorem test_CMP_U16_ab : report Params.default (.cmpU16 false) [0x61, 0x62] =
    (2, [0x10E1, 0x0CA0, 0x0020]) := by decide
/-- A18 -/
theorem test_DEC_U16_a : report Params.default (.decU16 false) [0x10E8, 0x0020] = (2, [0x61]) := by decide
/-- A19: the unit 0x7FE0, first token 3 -/
theorem test_DEC_U16_wrap : report Params.default (.decU16 false) [0x0000, 0x0020] = (2, []) := by decide
/-- A24 -/
theorem test_CMP_URI : report Params.default (.cmpUri false) [0x61, 0x79, 0x7A, 0x7D, 0x79, 0x7C] =
    (2, [0x49, 0x59, 0x54, 0x77, 0x58, 0x67, 0x76, 0x69, 0x41, 0x2B, 0x51]) := by decide
/-- A25: a space for `+` -/
theorem test_DEC_URI_space : report Params.default (.decUri false)
    [0x49, 0x59, 0x54, 0x77, 0x58, 0x67, 0x76, 0x69, 0x41, 0x20, 0x51] =
    (2, [0x61, 0x79, 0x7A, 0x7D, 0x79, 0x7C]) := by decide
/-- A30 -/
theorem test_CMP_U8A_ab : report Params.default (.cmpU8a false) [0x61, 0x62] =
    (2, [0x21, 0x82, 0x32, 0x00]) := by decide
/-- A35: bits 15:8 ignored -/
theorem test_DEC_U8A_high : report Params.default (.decU8a false) [0x0121, 0x0190] = (2, [0x61]) := by decide
/-- A33 -/
theorem test_DEC_U8A_odd : report Params.default (.decU8a false) [0x21, 0x90, 0x00] = (0x406, []) := by decide
/-- T8 -/
theorem test_CMP_STR_unicode : report Params.default (.cmpStr false) [0x41, 0xE9, 0x4E16, 0x754C] =
    (2, [0x2084, 0xBC68, 0x7283, 0x2AE4]) := by decide
/-- T8 with `P_FLUSH_ALIGNED = ZERO_UNIT` -/
theorem test_CMP_STR_zero_unit : report { Params.default with flushAligned := .zeroUnit } (.cmpStr false)
    [0x41, 0xE9, 0x4E16, 0x754C] = (2, [0x2084, 0xBC68, 0x7283, 0x2AE4, 0x0000]) := by decide
/-- D7: the self-reference -/
theorem test_DEC_STR_self : report Params.default (.decStr false) [0x218A] = (2, [0x61, 0x61, 0x61]) := by decide
/-- D5 -/
theorem test_DEC_STR_bad : report Params.default (.decStr false) [0x21BA] = (0x306, []) := by decide
/-- D14: the loop-top check under `P_PAST_END = ZERO` -/
theorem test_past_end_zero : report { Params.default with pastEnd := .zero } (.decStr false) [0x2180] =
    (0x206, []) := by decide
/-- E6, E7: DICT_CAP = 4 -/
theorem test_dict_full : report (params 8 8 4) (.cmpStr false) [0x61, 0x61] = (0x032, []) ∧
    report (params 8 8 4) (.decStr false) [0x2182, 0x3200] = (0x032, []) := by decide

/-! ### The control operations and the host's programs (95, sections 5.1 and 7) -/

/-- E1, E2: STATUS after START with a reserved OPC -/
theorem test_START_reserved :
    (after (exec (.start false false) { State.reset with cmd := ⟨0xA#4, false⟩ })).status.word = 0x012#32 ∧
    (after (exec (.start false false) { State.reset with cmd := ⟨0xB#4, true⟩ })).status.word = 0x012#32 := by
  decide

/-- IN_CAP = 1024; the given command and IN_LEN written. -/
def longInput (opc : BitVec 4) (inNull : Bool) (n : Word) : State :=
  { State.resetWith (params 1024 8 8) with cmd := ⟨opc, inNull⟩, inLen := n }

/-- STATUS after START, and after the engine's turn that follows. -/
def startedThenRun (s : State) : Word × Word :=
  let t := after (exec (.start false false) s)
  (t.status.word, (after (step t)).status.word)

/-- E3, E4: IN_LEN_RANGE, after a BUSY period, and not for a NULL input -/
theorem test_START_length : startedThenRun (longInput 0x8#4 false 1025#32) = (0x001#32, 0x022#32) ∧
    startedThenRun (longInput 0x9#4 true 0xFFFFFFFF#32) = (0x001#32, 0x002#32) := by decide

/-- E11, E12 -/
theorem test_CLEAR :
    (after (exec (.clear false) (after (exec (.decStr false) (loaded Params.default [0x21BA]))))).status.word =
      0x304#32 ∧
    (after (exec (.clear false) (after (exec (.start false false)
      { State.reset with cmd := ⟨0xA#4, false⟩ })))).status.word = 0#32 := by decide
/-- E13, E14 -/
theorem test_IRQCFG :
    (after (exec (.irqcfg true) (complete (.str 0) State.reset))).irq = true ∧
    ctrlWord (after (exec (.irqcfg true) (complete (.str 0) State.reset))).irqEn = 0x100#32 ∧
    (after (exec (.clear true) (complete (.str 0) State.reset))).irq = false := by decide
/-- E15 -/
theorem test_SRESET :
    (after (exec (decodeCtrl 0x7#32) (loaded Params.default [5]))).status.word = 0#32 ∧
    (after (exec (decodeCtrl 0x7#32) (loaded Params.default [5]))).inElem 0 = 5#16 := by decide

/-- What the host sees of a state: STATUS, CMD, IN_LEN, the last data read, element 0 of IN_MEM, the result. -/
def seen (t : State) : List Nat × List Nat :=
  ([t.status.word.toNat, t.cmd.word.toNat, t.inLen.toNat, t.rdata.toNat, (t.inElem 0).toNat],
    t.resultView.map BitVec.toNat)

/-- P1 to its end state -/
theorem test_P1 :
    seen (ran 24 [.wrIn 0 0x61#32, .wrIn 1 0x62#32, .wr .cmd 0x8#32, .wr .inLen 2#32, .wr .ctrl 0x1#32,
      .waitDone 1, .rd .status, .rd .outLen, .rdOut 0, .rdOut 1, .wrIn 0 0x2182#32, .wrIn 1 0x3200#32,
      .wr .cmd 0x9#32, .wr .ctrl 0x1#32, .waitDone 0, .rd .outLen, .rdOut 0, .rdOut 1] State.reset) =
    ([0x2, 0x9, 2, 0x62, 0x2182], [0x61, 0x62]) := by decide

/-- P4's program up to its START. -/
def loadAb : List Stmt :=
  [.wrIn 0 0x61#32, .wrIn 1 0x62#32, .wr .cmd 0x8#32, .wr .inLen 2#32, .wr .ctrl 0x1#32]

/-- P4, the host's write before the engine's turn. -/
theorem test_P4_dropped : seen (ran 8 (loadAb ++ [.wrIn 0 0x7A#32, .waitDone 0]) State.reset) =
    ([0x00A, 0x8, 2, 0x00A, 0x61], [0x2182, 0x3200]) := by decide

/-- P4, the host's write after it. -/
theorem test_P4_stored : seen (ran 9 (loadAb ++ [.waitDone 0, .wrIn 0 0x7A#32, .rd .status]) State.reset) =
    ([0x002, 0x8, 2, 0x002, 0x7A], [0x2182, 0x3200]) := by decide

/-- R87: a pseudo-instruction's expansion -/
theorem test_pseudo : expand (.runNull 0x1#4 0) = [.wr .cmd 0x11#32, .wr .ctrl 0x1#32, .waitDone 0] ∧
    expand (.loads [0x61#16]) = [.wrIn 0 0x61#32] := by decide

/-! ### Witnesses: for each statement with hypotheses, a state and operands that meet them -/

/-- A running command on "ab" whose next turn is the engine's. -/
def running : State := { loaded (params 4 8 16) [0x61, 0x62] with
  latch := { opc := 8#4, isNull := false, len := 2#32 }, turns := [.engine] }

theorem running_inv : Inv running where
  params := by decide
  status := by unfold StatusInv; decide
  engRun := by decide
  latch := by decide
  widths := by unfold Engine.fits; decide
  outLen := by decide
  inMem := by unfold Mem.below; decide
  outMem := by unfold Mem.below; decide
  fresh := by decide

theorem inv_turns {s : State} (h : Inv s) (ts : List Turn) : Inv { s with turns := ts } :=
  ⟨h.params, h.status, h.engRun, h.latch, h.widths, h.outLen, h.inMem, h.outMem, h.fresh⟩

/-- An idle machine with small capacities. -/
def idle : State := State.resetWith (params 4 8 16)

theorem idle_inv : Inv idle where
  params := by decide
  status := by unfold StatusInv; decide
  engRun := by decide
  latch := by decide
  widths := by unfold Engine.fits; decide
  outLen := by decide
  inMem := by unfold Mem.below; decide
  outMem := by unfold Mem.below; decide
  fresh := by decide

/-- For IdIsConstant, RegisterReads, ReadOnlyRegistersIgnoreWrites, CommandOutcomeAndFrame. -/
theorem witness_params_wf : running.params.wf = true ∧ idle.params.wf = true := by decide

/-- For StartWhileBusyOnlySetsWerr and both cases of ClearAcknowledges. -/
theorem witness_busy_and_idle : running.status.busy = true ∧ idle.status.busy = false := by decide

theorem witness_ResetSatisfiesInvariant : (params 1 1 4).wf = true := by decide

theorem witness_StepRunsDecodedInstruction :
    (running.eng = .run ∧ decode .cmd running.latch.word = .ok (.cmpStr false) ∧ running.turns = [.engine]) ∧
    (∃ s : State, s.eng = .run ∧ decode .cmd s.latch.word = .ok (.cmpStr false) ∧ s.turns = []) ∧
    targetOf State.reset.params 0x40000004#32 = some (.reg .ctrl) ∧
    decode .ctrl 0x1#32 = .ok (.start false false) :=
  ⟨⟨rfl, rfl, rfl⟩, ⟨{ running with turns := [] }, rfl, rfl, rfl⟩, by decide, rfl⟩

theorem witness_PlacedWordRunsNext : running.params.wf = true ∧
    decodeTableWord 8 0x8 = some (.cmpStr false) ∧ decodeTableWord 16 0x101 = some (.start true false) := by
  decide

theorem witness_BusyWritesDropped : running.params.wf = true ∧ running.status.busy = true ∧
    0 < 2 ^ 26 ∧ 2 ^ 26 - 1 < 2 ^ 26 := by decide

theorem witness_IdleRegisterWrites : State.reset.params.wf = true ∧ State.reset.status.busy = false := by
  decide

theorem witness_InMemWriteThenRead :
    (State.resetWith (params 4 8 16)).params.wf = true ∧
    (State.resetWith (params 4 8 16)).status.busy = false ∧ 3 < 2 ^ 26 ∧
    3 < (State.resetWith (params 4 8 16)).params.inCap ∧ (State.resetWith (params 4 8 16)).params.inCap ≤ 4 := by
  decide

theorem witness_OutMemWindow : running.params.wf = true ∧ running.params.outCap ≤ 8 ∧
    7 < running.params.outCap ∧ running.status.busy = true ∧ State.reset.status.busy = false ∧
    7 < State.reset.params.outCap := by decide

theorem witness_ReservedSpaceInert : ∀ off ∈ [0x018, 0x0FFFFFFF, 0x30000000, 0x3FFFFFFF],
    let d := (State.reset.params.base + BitVec.ofNat 32 off - State.reset.params.base).toNat
    0x018 ≤ d ∧ d ≤ 0x0FFFFFFF ∨ 0x30000000 ≤ d ∧ d ≤ 0x3FFFFFFF := by decide

theorem witness_WindowAccessesComplete :
    (0x7FFFFFFF#32 - State.reset.params.base).toNat < 2 ^ 30 ∧
    2 ^ 30 ≤ (0x80000000#32 - State.reset.params.base).toNat ∧
    2 ^ 30 ≤ (0x3FFFFFFF#32 - State.reset.params.base).toNat := by decide

/-- 17 bits with 16-bit units: one unit put out and one bit pending. -/
theorem witness_WriterPacksMsbFirst : ∃ r, emitBits Params.default .plain (List.replicate 17 true)
    (writerInit Adapter.plain.bpu running.run) = .ok r := ok_of_toBool (by decide)

/-- A fresh writer of 16-bit units: nothing to flush, or a whole unit of zeros. -/
theorem witness_FlushPadsTheLastUnit_aligned : (writerInit .sixteen running.run).eng.w.inv ∧
    (flush Params.default .plain (writerInit .sixteen running.run)).toBool = true ∧
    (flush { Params.default with flushAligned := .zeroUnit } .plain
      (writerInit .sixteen running.run)).toBool = true :=
  ⟨by simp [Writer.inv, writerInit], by decide, by decide⟩

/-- The 13 pending bits of the literal of `a` and the End marker. -/
def pendingBits : Run := { running.run with eng := { running.run.eng with
  oLen := 0, w := { bpu := .sixteen, acc := 0b1000011001#16, cnt := 13, out := [] } } }

theorem witness_FlushPadsTheLastUnit_pending : pendingBits.eng.w.inv ∧ 0 < pendingBits.eng.w.cnt ∧
    (flush Params.default .plain pendingBits).toBool = true :=
  ⟨by simp [Writer.inv, pendingBits, Bpu.width], by decide, by decide⟩

theorem witness_ReaderTakesBitsInOrder : 15 < 1 * Bpu.sixteen.width ∧ 1 * Bpu.sixteen.width ≤ 16 ∧
    Params.default.pastEnd = .null ∧ { Params.default with pastEnd := .zero }.pastEnd = .zero := by decide

theorem witness_ReadBitsFirstBitLowest : 4 + 8 ≤ 2 * Bpu.six.width := by decide

theorem witness_ReverseLookup : tabAt b64Tab 64 = 0x3D#16 ∧ ∀ k, k ≤ 64 → tabAt b64Tab k ≠ 0x2A#16 := by
  decide

theorem witness_AlphabetDecodeUndoesEncode :
    (0x3F#16).toNat < 2 ^ Adapter.base64.bpu.width ∧ (0x7FFF#16).toNat < 2 ^ Adapter.utf16.bpu.width ∧
    (∀ k, k < (encodeUnit .bytes 0x2190#16).length →
      (fun i => if i % 2 = 0 then 0x21#16 else 0x90#16) ((encodeUnit .bytes 0x2190#16).length * 3 + k) =
        (encodeUnit .bytes 0x2190#16).getD k 0#16) := by decide

theorem witness_GrowStep : 1 ≤ 1 ∧ 2 ≤ 2 := by decide

theorem witness_CompressLoopInvariant : ∃ r, compressLoop Params.default .plain [0x61#16, 0x61#16, 0x62#16]
    (compressInit Adapter.plain.bpu running.run) = .ok r := ok_of_toBool (by decide)

/-- The input [0x218A]: the literal of `a`, the code 4, the End marker. -/
def selfRef : Nat → BitVec 16 := fun _ => 0x218A#16

/-- For IterationBoundSuffices and DecompressLoopInvariant's first clause. -/
theorem witness_IterationBoundSuffices : ∃ r, firstToken Params.default selfRef
    (decompressInit selfRef .sixteen 1 running.run) = .ok (true, r) := ⟨_, rfl⟩

/-- The registers after the first token of [0x218A]. -/
def oneEntry : Decompressor :=
  { dict := [(3, [0x61#16])], word := [0x61#16], entry := [0x61#16], nb := 3, enl := 4, next := 4 }

/-- A run at the loop's head, 10 bits of the unit `u` taken. -/
def atLoop (u : BitVec 16) : Run :=
  { running.run with eng := { running.run.eng with
    oLen := 1, r := readerAt (fun _ => u) .sixteen 1 10, d := oneEntry } }

theorem witness_DecompressLoopInvariant : oneEntry.inv ∧
    ∃ r, decompressStep Params.default selfRef (atLoop 0x218A#16) = .ok (true, r) := by
  refine ⟨?_, _, rfl⟩
  refine ⟨by decide, by decide, by decide, ?_, by decide, by decide, by decide, by decide⟩
  intro e he h
  simp only [oneEntry, List.mem_singleton] at he
  subst he
  exact absurd h (by decide)

/-- Codes 4 (the next free), 3 (present) and 7 (unknown) after the literal of `a`. -/
theorem witness_UnknownCodeIsBadCode :
    (atLoop 0x218A#16).eng.r.exhausted = false ∧
    (∃ r, runBits Params.default (fun _ => 0x218A#16) 3 (atLoop 0x218A#16) = .ok (4, r)) ∧
    (∃ r, runBits Params.default (fun _ => 0x21B2#16) 3 (atLoop 0x21B2#16) = .ok (3, r)) ∧
    (∃ r, runBits Params.default (fun _ => 0x21BA#16) 3 (atLoop 0x21BA#16) = .ok (7, r)) ∧
    oneEntry.next = 4 := ⟨rfl, ⟨_, rfl⟩, ⟨_, rfl⟩, ⟨_, rfl⟩, rfl⟩

/-- One character short of room, just enough room, and no padding needed. -/
theorem witness_Base64Padding :
    let r : Run := { running.run with eng := { running.run.eng with oLen := 3 } }
    (params 4 4 8).outCap = r.eng.oLen + (4 - r.eng.oLen % 4) % 4 ∧
    (params 4 3 8).outCap < r.eng.oLen + (4 - r.eng.oLen % 4) % 4 ∧ (4 - 4 % 4) % 4 = 0 := by decide

theorem witness_Utf16Trailer : 3 < (params 4 4 8).outCap ∧ (params 4 4 8).outCap ≤ 4 := by decide

theorem witness_NullEmptyContract : (loaded Params.default []).latch.len = 0#32 ∧
    (loaded (params 1 4 4) [0x21]).latch.len.toNat % 2 = 1 ∧
    (loaded (params 1 4 4) [0x21]).latch.len.toNat ≤ (params 1 4 4).inCap := by decide

/-- One element more than IN_CAP, latched by a running command. -/
def overlong : State :=
  { running with params := params 1 8 16 }

theorem witness_OverlongInputIsRefused : overlong.params.inCap < overlong.latch.len.toNat ∧
    overlong.turns = [.engine] ∧ overlong.eng = .run ∧ overlong.latch.opc.toNat < 0xA ∧
    overlong.latch.isNull = false := by decide

theorem witness_CompressCompletes : ∀ adp ∈ [Adapter.base64, .utf16, .uri, .bytes, .plain],
    let s := loaded (params 4 64 8) [0x61, 0x4E16]
    s.params.wf = true ∧ s.latch.len.toNat ≤ s.params.inCap ∧ 2 * s.latch.len.toNat + 3 ≤ s.params.dictCap ∧
      outNeeded adp s.latch.len.toNat ≤ s.params.outCap := by decide

/-- Room for every adapter's End marker, and for none that has framing or two bytes. -/
theorem witness_CompressEmptyInput : (loaded (params 4 4 4) []).latch.len = 0#32 ∧ 4 ≤ (params 4 4 4).outCap ∧
    (loaded (params 4 1 4) []).latch.len = 0#32 ∧ (params 4 1 4).outCap < 2 := by decide

/-- The input of a loaded state. -/
theorem hasInput_of_eq {s : State} {v : Str} (h1 : s.latch.len.toNat = v.length) (h2 : s.input = v)
    (h3 : v.length ≤ s.params.inCap) : hasInput s v := by
  refine ⟨h1, h3, fun i hi => ?_⟩
  subst h2
  simp [State.input]

theorem witness_CompressOneCharacter :
    hasInput (loaded (params 4 2 4) [0xFF]) [0xFF#16] ∧ hasInput (loaded (params 4 2 4) [0x100]) [0x100#16] ∧
    4 ≤ (params 4 2 4).dictCap ∧ 2 ≤ (params 4 2 4).outCap ∧ (0xFF#16).toNat < 256 ∧ 256 ≤ (0x100#16).toNat :=
  ⟨hasInput_of_eq rfl (by decide) (by decide), hasInput_of_eq rfl (by decide) (by decide), by decide, by decide, by decide, by decide⟩

/-- "Q" in Base64 and URI-safe, and the End marker's unit for the other adapters. -/
theorem witness_DecompressEmptyStream :
    ∀ x ∈ [(Adapter.base64, [0x51]), (.uri, [0x51]), (.utf16, [0x2020]), (.bytes, [0x40, 0x00]),
      (.plain, [0x4000])],
    let s := loaded Params.default x.2
    0 < s.latch.len.toNat ∧ s.latch.len.toNat ≤ s.params.inCap ∧ (x.1 = .bytes → s.latch.len.toNat % 2 = 0) ∧
      (decodeUnit x.1 s.inElem 0).getLsbD (x.1.bpu.width - 2) = true := by decide

theorem witness_RoundTrip : ∃ t₁, exec (compressOf .plain false) (loaded (params 4 8 16) [0x61, 0x62]) = .next t₁ ∧
    hasInput (loaded (params 4 8 16) [0x61, 0x62]) [0x61#16, 0x62#16] ∧ t₁.status.err = .none ∧
    hasInput (loaded (params 4 8 16) [0x2182, 0x3200]) t₁.resultView :=
  ⟨_, next_of_after rfl, hasInput_of_eq rfl (by decide) (by decide), by decide, hasInput_of_eq (by decide) (by decide) (by decide)⟩

/-- "aaa" compresses to one element, which decompresses to three: more than OUT_CAP = 1. -/
theorem witness_RoundTrip_full :
    (∃ t₁, exec (compressOf .plain false) (loaded (params 4 1 8) [0x61, 0x61, 0x61]) = .next t₁ ∧
      t₁.status.err = .none ∧ hasInput (loaded (params 4 1 8) [0x218A]) t₁.resultView) ∧
    hasInput (loaded (params 4 1 8) [0x61, 0x61, 0x61]) [0x61#16, 0x61#16, 0x61#16] ∧
    (params 4 1 8).wf = true ∧ (params 4 8 16).wf = true :=
  ⟨⟨_, next_of_after rfl, by decide, hasInput_of_eq (by decide) (by decide) (by decide)⟩, hasInput_of_eq rfl (by decide) (by decide),
    by decide, by decide⟩

theorem witness_DecompressSelfReference : hasInput (loaded (params 4 3 5) [0x218A]) [0x218A#16] ∧
    (0x61#16).toNat < 256 ∧ 5 ≤ (params 4 3 5).dictCap ∧ 3 ≤ (params 4 3 5).outCap ∧
    (0x218A#16).getLsbD 15 = false ∧ (0x218A#16).getLsbD 14 = false ∧
    (∀ k, k < 8 → (0x218A#16).getLsbD (13 - k) = (0x61#16).getLsbD k) ∧ (0x218A#16).toNat % 64 = 0b001010 :=
  ⟨hasInput_of_eq rfl (by decide) (by decide), by decide, by decide, by decide, by decide, by decide, by decide, by decide⟩

/-- What `withoutLastUnit` leaves of the result of compressing `v`. -/
def cutResult (adp : Adapter) (v : List Nat) : List Nat :=
  (withoutLastUnit adp (after (exec (compressOf adp false) (loaded (params 8 8 16) v))).resultView).map
    BitVec.toNat

/-- "ab" compressed and cut by a unit, for every adapter. -/
theorem witness_TruncationDetected_cut (adp : Adapter) :
    ∃ t₁, exec (compressOf adp false) (loaded (params 8 8 16) [0x61, 0x62]) = .next t₁ ∧
      t₁.status.err = .none ∧ hasInput (loaded (params 8 8 16) [0x61, 0x62]) [0x61#16, 0x62#16] ∧
      hasInput (loaded (params 8 8 16) (cutResult adp [0x61, 0x62])) (withoutLastUnit adp t₁.resultView) ∧
      withoutLastUnit adp t₁.resultView ≠ [] := by
  cases adp <;> exact ⟨_, next_of_after rfl, by decide, hasInput_of_eq rfl (by decide) (by decide),
    hasInput_of_eq (by decide) (by decide) (by decide), by decide⟩

/-- The End marker alone, cut to nothing, and the statement's parameters. -/
theorem witness_TruncationDetected_empty :
    (∃ t₁, exec (compressOf .uri false) (loaded (params 8 8 16) []) = .next t₁ ∧
      t₁.status.err = .none ∧ withoutLastUnit .uri t₁.resultView = [] ∧
      hasInput (loaded (params 8 8 16) []) (withoutLastUnit .uri t₁.resultView)) ∧
    (params 8 8 16).wf = true ∧ (params 8 8 16).pastEnd = .null ∧ (params 8 8 16).flushAligned = .none :=
  ⟨⟨_, next_of_after rfl, by decide, by decide, hasInput_of_eq (by decide) (by decide) (by decide)⟩,
    by decide, by decide, by decide⟩

/-- Two states with one input, unlike in IRQ_EN, OUT_MEM and BASE. -/
theorem witness_CommandsAreFunctions :
    let s := loaded (params 4 8 16) [0x61, 0x62]
    let t := { s with irqEn := true, outMem := { gen := 1, cells := [(0, 7#16)] },
                      params := { s.params with base := 0#32 } }
    s.params.wf = true ∧ sameInput s t ∧ s ≠ t :=
  ⟨by decide, ⟨rfl, rfl, rfl, rfl, rfl, rfl, fun _ _ => rfl⟩, by decide⟩

/-- For ByteArrayIsPlainStringSplit, Base64AndUriSafeAgree and Utf16ElementRange. -/
theorem witness_results_without_error : ∀ i ∈ [Instr.cmpU8a false, .cmpStr false, .cmpB64 false, .cmpUri false,
    .cmpU16 false], ∃ t, exec i (loaded (params 4 8 16) [0x61, 0x62]) = .next t ∧ t.status.err = .none := by
  intro i hi
  fin_cases hi <;> exact ⟨_, next_of_after rfl, by decide⟩

theorem witness_StartAcceptsCommand : (longInput 9#4 false 1024#32).status.busy = false ∧
    (longInput 9#4 false 1024#32).cmd.opc.toNat < 0xA ∧
    1024 < (longInput 9#4 false 1025#32).inLen.toNat := by decide

theorem witness_StartRefusals : (longInput 0xA#4 false 5#32).status.busy = false ∧
    0xA ≤ (longInput 0xA#4 false 5#32).cmd.opc.toNat := by decide

/-- For IrqEnWrite and both cases of CtrlWriteOrder. -/
theorem witness_ctrl_words : (0xFFFFFFF8#32).toNat % 8 = 0 ∧ (0x7#32).toNat.testBit 2 = true ∧
    (0x103#32).toNat.testBit 2 = false := by decide

/-- BUSY rises at a START write, falls at the engine's turn, at an SRESET write and at rst. -/
theorem witness_BusyStateMachine :
    (∃ t, Inv running ∧ step running = .next t ∧ running.status.busy = true ∧ t.status.busy = false) ∧
    (∃ s t, Inv s ∧ step s = .next t ∧ s.status.busy = false ∧ t.status.busy = true) ∧
    (∃ t, Inv (placeCtrl 0x4#32 running) ∧ step (placeCtrl 0x4#32 running) = .next t ∧
      t.status.busy = false) ∧
    ∃ s t, Inv s ∧ s.turns = [.rst] ∧ s.status.busy = true ∧ step s = .next t ∧ t.status.busy = false :=
  ⟨⟨_, running_inv, next_of_after rfl, rfl, by decide⟩,
    ⟨placeCtrl 0x1#32 idle, _, inv_turns idle_inv _, next_of_after (by decide), by decide, by decide⟩,
    ⟨_, inv_turns running_inv _, next_of_after (by decide), by decide⟩,
    ⟨{ running with turns := [.rst] }, _, inv_turns running_inv _, rfl, rfl, rfl, rfl⟩⟩

/-- WERR after a host write of 1 while BUSY. -/
def werrAfter (a : Word) : Bool :=
  (after (step { running with turns := [.host (.write a 1#32)] })).status.werr

/-- A write to CMD, to IN_LEN, to the slot above IN_CAP and a START while BUSY. -/
theorem witness_WerrRisesOnlyWhileBusy : running.status.werr = false ∧ werrAfter 0x40000008#32 = true ∧
    werrAfter 0x4000000C#32 = true ∧ werrAfter 0x50000010#32 = true ∧ werrAfter 0x40000004#32 = true :=
  ⟨by decide, by decide, by decide, by decide, by decide⟩

theorem witness_InMemChangesOnlyByHostWrite :
    let s := { loaded (params 4 8 16) [0x61] with status := Status.zero, eng := .idle,
                                                  turns := [.host (.write 0x50000000#32 0x62#32)] }
    (after (step s)).inMem.read 0 ≠ s.inMem.read 0 := by decide

theorem witness_StepKeepsInvariant : ∃ t, Inv running ∧ step running = .next t :=
  ⟨_, running_inv, next_of_after rfl⟩

theorem witness_CompletionWrites : 2 ^ 32 - 1 < 2 ^ 32 := by decide

end Sys2Proof.Tests
end

section
/-! ### Host accesses: what one bus access does to the state (R20 to R30, R61, R71) -/

namespace Sys2Proof.Machine

theorem step_host_read (s : State) (ts : List Turn) {a : Word} {x : Target} (h : targetOf s.params a = some x) :
    step { s with turns := .host (.read a) :: ts } = .next (readTarget x { s with turns := ts }) := by
  simp only [step, hostTurn, h]

theorem step_host_write (s : State) (ts : List Turn) {a : Word} (d : Word) {x : Target}
    (h : targetOf s.params a = some x) (hx : x ≠ .reg .ctrl) :
    step { s with turns := .host (.write a d) :: ts } = .next (writeTarget x d { s with turns := ts }) := by
  simp only [step, hostTurn, h]

/-- A read of a host register returns its word and draws no free value. -/
theorem step_read_reg (s : State) (ts : List Turn) (r : HostReg) :
    step { s with turns := .host (.read (regAddr s.params r)) :: ts } =
      .next { s with turns := ts, rdata := readValue (.reg r) s } := by
  rw [step_host_read s ts (targetOf_regAddr s.params r)]
  cases r <;> rfl

/-- A write to a host register other than CTRL. -/
theorem step_write_reg (s : State) (ts : List Turn) (d : Word) (r : HostReg) (h : r ≠ .ctrl) :
    step { s with turns := .host (.write (regAddr s.params r) d) :: ts } =
      .next (writeTarget (.reg r) d { s with turns := ts }) :=
  step_host_write s ts d (targetOf_regAddr s.params r) (by simpa using h)

/-! #### Register words as sums of their fields -/

/-- A field put above the bits of a word adds its value at its place. -/
theorem ofNat_or_field {w v k : Nat} (e : BitVec w) (hv : v < 2 ^ k) (hk : k + w ≤ 32) :
    BitVec.ofNat 32 v ||| (e.setWidth 32 <<< k) = BitVec.ofNat 32 (v + 2 ^ k * e.toNat) := by
  have hpow : 2 ^ k * 2 ^ w ≤ 2 ^ 32 := by
    rw [← Nat.pow_add]; exact Nat.pow_le_pow_right (by decide) hk
  have hsum : v + 2 ^ k * e.toNat < 2 ^ k * 2 ^ w := by
    have : 2 ^ k * (e.toNat + 1) ≤ 2 ^ k * 2 ^ w := Nat.mul_le_mul_left _ e.isLt
    rw [Nat.mul_succ] at this
    omega
  have he : e.toNat < 2 ^ 32 := Nat.lt_of_lt_of_le e.isLt (Nat.pow_le_pow_right (by decide) (by omega))
  apply BitVec.eq_of_toNat_eq
  rw [BitVec.toNat_or, BitVec.toNat_shiftLeft, BitVec.toNat_setWidth, BitVec.toNat_ofNat,
    BitVec.toNat_ofNat, Nat.mod_eq_of_lt he, Nat.shiftLeft_eq, Nat.mul_comm e.toNat,
    Nat.mod_eq_of_lt (show v < 2 ^ 32 by omega),
    Nat.mod_eq_of_lt (show 2 ^ k * e.toNat < 2 ^ 32 by omega),
    Nat.mod_eq_of_lt (show v + 2 ^ k * e.toNat < 2 ^ 32 by omega),
    Nat.or_comm, ← Nat.two_pow_add_eq_or_of_lt hv, Nat.add_comm]

/-- The same for a one-bit field. -/
theorem ofNat_or_bitAt {v k : Nat} (b : Bool) (hv : v < 2 ^ k) (hk : k < 32) :
    BitVec.ofNat 32 v ||| bitAt b k = BitVec.ofNat 32 (v + 2 ^ k * b.toNat) := by
  rw [bitAt, ofNat_or_field _ hv (by omega), BitVec.toNat_ofBool]

theorem ctrlWord_eq_ofNat (irqEn : Bool) : ctrlWord irqEn = BitVec.ofNat 32 (256 * irqEn.toNat) := by
  cases irqEn <;> rfl

theorem Cmd.word_eq_ofNat (c : Cmd) : c.word = BitVec.ofNat 32 (c.opc.toNat + 16 * c.inNull.toNat) := by
  have hopc : c.opc.setWidth 32 = BitVec.ofNat 32 c.opc.toNat := BitVec.eq_of_toNat_eq (by simp)
  rw [Cmd.word, hopc, ofNat_or_bitAt _ c.opc.isLt (by decide)]
  simp only [Nat.reducePow]

theorem Status.word_eq_ofNat (st : Status) :
    st.word = BitVec.ofNat 32 (st.busy.toNat + 2 * st.done.toNat + 4 * st.resNull.toNat +
      8 * st.werr.toNat + 16 * st.err.code.toNat + 256 * st.ncause.code.toNat) := by
  have hbusy : bitAt st.busy 0 = BitVec.ofNat 32 st.busy.toNat := by cases st.busy <;> rfl
  have h1 := Bool.toNat_lt st.busy
  have h2 := Bool.toNat_lt st.done
  have h3 := Bool.toNat_lt st.resNull
  have h4 := Bool.toNat_lt st.werr
  have h5 := st.err.code.isLt
  rw [Status.word, hbusy, ofNat_or_bitAt _ (by omega) (by decide), ofNat_or_bitAt _ (by omega) (by decide),
    ofNat_or_bitAt _ (by omega) (by decide), ofNat_or_field _ (by omega) (by decide),
    ofNat_or_field _ (by omega) (by decide)]
  simp only [Nat.reducePow]

/-! #### The obligations on register accesses -/

/-- Settles O6: ID's address names ID, whose read value is the constant. -/
theorem idIsConstant : Obligations.IdIsConstant := by
  intro s d ts _
  exact ⟨step_read_reg s ts .id, step_write_reg s ts d .id (by decide)⟩

/-- Settles O7: each read returns the register's word, which is the sum of its fields. -/
theorem registerReads : Obligations.RegisterReads := by
  intro s ts _ off v h
  simp only [List.mem_cons, List.not_mem_nil, or_false, Prod.mk.injEq] at h
  rcases h with ⟨rfl, rfl⟩ | ⟨rfl, rfl⟩ | ⟨rfl, rfl⟩ | ⟨rfl, rfl⟩ | ⟨rfl, rfl⟩
  · rw [← ctrlWord_eq_ofNat]; exact step_read_reg s ts .ctrl
  · rw [← Cmd.word_eq_ofNat]; exact step_read_reg s ts .cmd
  · rw [BitVec.ofNat_toNat, BitVec.setWidth_eq]; exact step_read_reg s ts .inLen
  · rw [← Status.word_eq_ofNat]; exact step_read_reg s ts .status
  · rw [BitVec.ofNat_toNat, BitVec.setWidth_eq]; exact step_read_reg s ts .outLen

/-- Settles O9: an idle block stores the fields of the written word. -/
theorem idleRegisterWrites : Obligations.IdleRegisterWrites := by
  intro s d ts _ hidle
  constructor
  · refine (step_write_reg s ts d .cmd (by decide)).trans ?_
    simp only [writeTarget, hidle]
    rfl
  · refine (step_write_reg s ts d .inLen (by decide)).trans ?_
    simp only [writeTarget, hidle]
    rfl

/-- Settles O13: a write to STATUS or OUT_LEN leaves the state with its turn taken off. -/
theorem readOnlyRegistersIgnoreWrites : Obligations.ReadOnlyRegistersIgnoreWrites := by
  intro s d ts _ a ha
  simp only [List.mem_cons, List.not_mem_nil, or_false] at ha
  rcases ha with rfl | rfl
  · exact step_write_reg s ts d .status (by decide)
  · exact step_write_reg s ts d .outLen (by decide)

/-- Settles O52: `irq` is the conjunction of the two bits, and the reset state has neither. -/
theorem irqLevel : Obligations.IrqLevel :=
  ⟨fun s => by rw [State.irq, Bool.and_eq_true], rfl⟩

end Sys2Proof.Machine
end

section
/-! ### What a host write does, and when WERR rises (R25, R64, R248) -/

namespace Sys2Proof.Machine

/-- Everything a host write to anything but CTRL can do: while BUSY it is dropped, else it stores a register
or an element, or it changes nothing (R23, R24, R62, R64). -/
theorem writeTarget_cases (x : Target) (d : Word) (s : State) :
    (s.status.busy = true ∧ (x = .reg .cmd ∨ x = .reg .inLen ∨ ∃ i, x = .inSlot i) ∧
      writeTarget x d s = { s with status := s.status.dropped }) ∨
    (s.status.busy = false ∧
      (x = .reg .cmd ∧ writeTarget x d s = { s with cmd := Cmd.ofWord d } ∨
       x = .reg .inLen ∧ writeTarget x d s = { s with inLen := d } ∨
       ∃ i, x = .inSlot i ∧ i < s.params.inCap ∧
         writeTarget x d s = { s with inMem := s.inMem.write i (d.setWidth 16) })) ∨
    writeTarget x d s = s := by
  cases hb : s.status.busy with
  | true =>
    cases x with
    | reg r =>
      cases r with
      | cmd => exact .inl ⟨rfl, .inl rfl, if_pos hb⟩
      | inLen => exact .inl ⟨rfl, .inr (.inl rfl), if_pos hb⟩
      | id => exact .inr (.inr rfl)
      | ctrl => exact .inr (.inr rfl)
      | status => exact .inr (.inr rfl)
      | outLen => exact .inr (.inr rfl)
    | inSlot i => exact .inl ⟨rfl, .inr (.inr ⟨i, rfl⟩), if_pos hb⟩
    | outSlot i => exact .inr (.inr rfl)
    | reserved => exact .inr (.inr rfl)
  | false =>
    have hn : ¬s.status.busy = true := by simp [hb]
    cases x with
    | reg r =>
      cases r with
      | cmd => exact .inr (.inl ⟨rfl, .inl ⟨rfl, if_neg hn⟩⟩)
      | inLen => exact .inr (.inl ⟨rfl, .inr (.inl ⟨rfl, if_neg hn⟩)⟩)
      | id => exact .inr (.inr rfl)
      | ctrl => exact .inr (.inr rfl)
      | status => exact .inr (.inr rfl)
      | outLen => exact .inr (.inr rfl)
    | inSlot i =>
      by_cases hi : i < s.params.inCap
      · exact .inr (.inl ⟨rfl, .inr (.inr ⟨i, rfl, hi, (if_neg hn).trans (if_pos hi)⟩)⟩)
      · exact .inr (.inr ((if_neg hn).trans (if_neg hi)))
    | outSlot i => exact .inr (.inr rfl)
    | reserved => exact .inr (.inr rfl)

/-- A command ends in some completion of the state with the engine's registers and OUT_MEM replaced, so it
leaves WERR alone (R262, R266). -/
theorem executeCompress_werr (adp : Adapter) (inNull : Bool) (s : State) :
    (executeCompress adp inNull s).status.werr = s.status.werr := by
  rcases executeCompress_cases adp inNull s with ⟨r, n, h, _⟩ | ⟨e, h, _⟩ <;> simp [h]

theorem executeDecompress_werr (adp : Adapter) (inNull : Bool) (s : State) :
    (executeDecompress adp inNull s).status.werr = s.status.werr := by
  rcases executeDecompress_cases adp inNull s with ⟨r, n, h, _⟩ | ⟨c, h, _⟩ | ⟨e, h, _⟩ <;> simp [h]

/-- A START sets WERR only while BUSY (R240). -/
theorem startCommand_werr {s : State} (h0 : s.status.werr = false)
    (h1 : (startCommand s).status.werr = true) : s.status.busy = true := by
  rcases startCommand_cases s with ⟨hb, _⟩ | ⟨_, ⟨_, h⟩ | ⟨_, h⟩⟩
  · exact hb
  · simp [h, h0] at h1
  · simp [h, h0] at h1

/-- Everything a CTRL write can do (R247): the soft reset, or the IRQ_EN write, then the CLEAR if the word
asks for it, then the START if the word asks for it. -/
theorem ctrl_write_cases {s t : State} {d : Word} (h : exec (decodeCtrl d) s = .next t) :
    (d.getLsbD 2 = true ∧ t = softReset s) ∨
    d.getLsbD 2 = false ∧ ∃ u,
      (d.getLsbD 1 = true ∧ u = clearFlags (setIrqEn (d.getLsbD 8) s) ∨
       d.getLsbD 1 = false ∧ u = setIrqEn (d.getLsbD 8) s) ∧
      (d.getLsbD 0 = true ∧ t = startCommand u ∨ d.getLsbD 0 = false ∧ t = u) := by
  rw [exec_decodeCtrl] at h
  cases h
  cases d.getLsbD 2 with
  | true => exact .inl ⟨rfl, rfl⟩
  | false =>
    refine .inr ⟨rfl, ?_⟩
    cases d.getLsbD 1 with
    | true => exact ⟨_, .inl ⟨rfl, rfl⟩, by cases d.getLsbD 0 <;> simp⟩
    | false => exact ⟨_, .inr ⟨rfl, rfl⟩, by cases d.getLsbD 0 <;> simp⟩

/-- A CTRL write raises WERR only by a START while BUSY (R247, R248). -/
theorem ctrl_write_werr {s t : State} {d : Word} (h : exec (decodeCtrl d) s = .next t)
    (h0 : s.status.werr = false) (h1 : t.status.werr = true) :
    s.status.busy = true ∧ d.getLsbD 0 = true := by
  rcases ctrl_write_cases h with ⟨_, rfl⟩ | ⟨_, u, hu, ht⟩
  · simp [Status.zero] at h1
  · have hwerr : u.status.werr = false := by rcases hu with ⟨_, rfl⟩ | ⟨_, rfl⟩ <;> simp [h0]
    have hbusy : u.status.busy = s.status.busy := by rcases hu with ⟨_, rfl⟩ | ⟨_, rfl⟩ <;> simp
    rcases ht with ⟨hstart, rfl⟩ | ⟨_, rfl⟩
    · exact ⟨hbusy ▸ startCommand_werr hwerr h1, hstart⟩
    · simp [hwerr] at h1

/-- Settles O54, along the cases of a step: only a dropped host write and a refused START set WERR. -/
theorem werrRisesOnlyWhileBusy : Obligations.WerrRisesOnlyWhileBusy := by
  intro s t h h0 h1
  obtain ⟨ts, _, ⟨_, ht⟩ | ⟨a, d, hts, hx, ht⟩ | ⟨a, d, x, hts, hx, _, rfl⟩ | ⟨a, x, _, _, rfl⟩ | ⟨_, rfl⟩⟩ :=
    step_cases h
  · rcases ht with ⟨_, rfl⟩ | ⟨_, ⟨adp, n, rfl | rfl⟩ | rfl⟩
    · simp [h0] at h1
    · simp [executeCompress_werr, h0] at h1
    · simp [executeDecompress_werr, h0] at h1
    · simp [h0] at h1
  · obtain ⟨hbusy, hstart⟩ := ctrl_write_werr ht h0 h1
    exact ⟨hbusy, a, d, ts, hts, .inr (.inr (.inr ⟨hx, hstart⟩))⟩
  · rcases writeTarget_cases x d { s with turns := ts } with
      ⟨hbusy, hx', _⟩ | ⟨_, ⟨_, hw⟩ | ⟨_, hw⟩ | ⟨_, _, _, hw⟩⟩ | hw
    · refine ⟨hbusy, a, d, ts, hts, ?_⟩
      rcases hx' with rfl | rfl | ⟨i, rfl⟩
      · exact .inl hx
      · exact .inr (.inl hx)
      · exact .inr (.inr (.inl ⟨i, hx⟩))
    · simp [hw, h0] at h1
    · simp [hw, h0] at h1
    · simp [hw, h0] at h1
    · simp [hw, h0] at h1
  · simp [h0] at h1
  · simp [Status.zero] at h1

end Sys2Proof.Machine
end

section
/-! ### What an engine run leaves alone and keeps: the other components, and OUT_MEM's bounds (R63, R108) -/

namespace Sys2Proof.Machine

theorem Mem.below_write {m : Mem} {cap i : Nat} (h : m.below cap) (hi : i < cap) (v : Elem) :
    (m.write i v).below cap := by
  intro c hc
  rcases mem_cellsWrite hc with rfl | hc
  · exact hi
  · exact h c hc

theorem Mem.below_keepBelow {m : Mem} {cap : Nat} (h : m.below cap) (n gen : Nat) :
    (m.keepBelow n gen).below cap :=
  fun c hc => h c (List.mem_of_mem_filter hc)

theorem Mem.below_opened (gen cap : Nat) : (Mem.opened gen).below cap := fun _ hc => nomatch hc

/-- A run whose OUT_MEM is canonical and inside its capacity, and which has put out no more elements than
OUT_MEM has (R63). -/
structure Run.Bounded (p : Params) (r : Run) : Prop where
  mem : r.out.wf ∧ r.out.below p.outCap
  oLen : r.eng.oLen ≤ p.outCap

/-- `r'` is `r` after writes of the Bit Writer and to OUT_MEM alone: the Bit Reader's and the two engines'
registers stay, and OUT_MEM's bounds are kept. -/
structure Run.Wrote (p : Params) (r r' : Run) : Prop where
  compressor : r'.eng.c = r.eng.c
  reader : r'.eng.r = r.eng.r
  decompressor : r'.eng.d = r.eng.d
  bounded : r.Bounded p → r'.Bounded p

theorem Run.Wrote.refl (p : Params) (r : Run) : r.Wrote p r := ⟨rfl, rfl, rfl, id⟩

theorem Run.Wrote.trans {p : Params} {r₁ r₂ r₃ : Run} (h : r₁.Wrote p r₂) (h' : r₂.Wrote p r₃) :
    r₁.Wrote p r₃ :=
  ⟨h'.compressor.trans h.compressor, h'.reader.trans h.reader, h'.decompressor.trans h.decompressor,
    h'.bounded ∘ h.bounded⟩

/-- The Bit Writer's own registers do not enter into the relation. -/
theorem Run.Wrote.setW {p : Params} {r r' : Run} (h : r.Wrote p r') (w : Writer) :
    r.Wrote p { r' with eng := { r'.eng with w := w } } :=
  ⟨h.compressor, h.reader, h.decompressor, fun hb => ⟨(h.bounded hb).mem, (h.bounded hb).oLen⟩⟩

theorem Run.Bounded.setC {p : Params} {r : Run} (h : r.Bounded p) (c : Compressor) : (r.setC c).Bounded p :=
  ⟨h.mem, h.oLen⟩

theorem Run.Bounded.setD {p : Params} {r : Run} (h : r.Bounded p) (d : Decompressor) : (r.setD d).Bounded p :=
  ⟨h.mem, h.oLen⟩

theorem Run.Bounded.setR {p : Params} {r : Run} (h : r.Bounded p) (rd : Reader) : (r.setR rd).Bounded p :=
  ⟨h.mem, h.oLen⟩

/-! #### OUT_MEM and the Bit Writer -/

theorem putOut_wrote {p : Params} {v : Elem} {r r' : Run} (h : putOut p v r = .ok r') : r.Wrote p r' := by
  obtain ⟨hc, rfl⟩ := putOut_eq_ok.mp h
  exact ⟨rfl, rfl, rfl, fun hb => ⟨⟨Mem.wf_write hb.mem.1 _ _, Mem.below_write hb.mem.2 hc _⟩, hc⟩⟩

theorem putOuts_wrote {p : Params} {vs : Str} {r r' : Run} (h : putOuts p vs r = .ok r') : r.Wrote p r' := by
  induction vs generalizing r with
  | nil => cases h; exact .refl _ _
  | cons v vs ih =>
    obtain ⟨r₁, h1, h2⟩ := bind_eq_ok.mp h
    exact (putOut_wrote h1).trans (ih h2)

theorem emitBit_wrote {p : Params} {adp : Adapter} {b : Bool} {r r' : Run}
    (h : emitBit p adp b r = .ok r') : r.Wrote p r' := by
  unfold emitBit at h
  simp only at h
  split at h
  · obtain ⟨r₁, h1, h2⟩ := bind_eq_ok.mp h
    obtain ⟨r₂, h3, h4⟩ := bind_eq_ok.mp h1
    cases h4
    cases h2
    exact ((putOuts_wrote h3).setW _).setW _
  · cases h; exact (Run.Wrote.refl p r).setW _

theorem emitBits_wrote {p : Params} {adp : Adapter} {bs : List Bool} {r r' : Run}
    (h : emitBits p adp bs r = .ok r') : r.Wrote p r' := by
  induction bs generalizing r with
  | nil => cases h; exact .refl _ _
  | cons b bs ih =>
    obtain ⟨r₁, h1, h2⟩ := bind_eq_ok.mp h
    exact (emitBit_wrote h1).trans (ih h2)

theorem emitToken_wrote {p : Params} {adp : Adapter} {nb : Nat} {t : Token} {r r' : Run}
    (h : emitToken p adp nb t r = .ok r') : r.Wrote p r' :=
  emitBits_wrote (emitToken_eq_emitBits p adp nb t r ▸ h)

theorem flushLoop_wrote {p : Params} {adp : Adapter} {n : Nat} {r r' : Run}
    (h : flushLoop p adp n r = .ok r') : r.Wrote p r' := by
  induction n generalizing r with
  | zero => cases h; exact .refl _ _
  | succ n ih =>
    obtain ⟨r₁, h1, h2⟩ := bind_eq_ok.mp h
    split at h2
    · cases h2; exact emitBit_wrote h1
    · exact (emitBit_wrote h1).trans (ih h2)

theorem flush_wrote {p : Params} {adp : Adapter} {r r' : Run} (h : flush p adp r = .ok r') :
    r.Wrote p r' := by
  unfold flush at h
  split at h
  · cases h; exact .refl _ _
  · exact flushLoop_wrote h

theorem compressFraming_wrote {p : Params} {adp : Adapter} {r r' : Run}
    (h : compressFraming p adp r = .ok r') : r.Wrote p r' := by
  cases adp with
  | base64 => exact putOuts_wrote h
  | utf16 => exact putOuts_wrote h
  | uri => cases h; exact .refl _ _
  | bytes => cases h; exact .refl _ _
  | plain => cases h; exact .refl _ _

/-! #### The Compress Engine -/

/-- Everything `emitPhrase()` does (R144). -/
theorem emitPhrase_ok {p : Params} {adp : Adapter} {r r' : Run} (h : emitPhrase p adp r = .ok r') :
    ∃ r₁, emitToken p adp r.eng.c.nb (phraseToken r.eng.c) r = .ok r₁ ∧ r' = r₁.setC r.eng.c.emitted := by
  obtain ⟨r₁, h1, h2⟩ := bind_eq_ok.mp h
  cases h2
  exact ⟨r₁, h1, rfl⟩

/-- The registers after a new character's registration (R141). -/
def Compressor.registered (c : Compressor) (x : Elem) : Compressor :=
  { c with dict := c.dict ++ [([x], c.next)], pend := c.pend ++ [[x]], next := c.next + 1 }

/-- Everything `register(c)` does (R141). -/
theorem register_eq_ok {p : Params} {x : Elem} {c c' : Compressor} :
    register p x c = .ok c' ↔
      (∃ k, codeOf c.dict [x] = some k) ∧ c' = c ∨
      codeOf c.dict [x] = none ∧ c.next < p.dictCap ∧ c' = c.registered x := by
  unfold register
  split
  · next k hk => simp [hk, eq_comm]
  · next hk =>
    rw [bind_eq_ok]
    constructor
    · rintro ⟨⟨k, n⟩, h1, h2⟩
      obtain ⟨hc, rfl, rfl⟩ := allocCode_eq_ok.mp h1
      cases h2
      exact .inr ⟨hk, hc, rfl⟩
    · rintro (⟨⟨k, hk'⟩, _⟩ | ⟨_, hc, rfl⟩)
      · simp [hk] at hk'
      · exact ⟨(c.next, c.next + 1), allocCode_eq_ok.mpr ⟨hc, rfl, rfl⟩, rfl⟩

/-- The registers after the phrase has been emitted and the candidate inserted (R142, R146). -/
def Compressor.inserted (c : Compressor) (x : Elem) : Compressor :=
  { c.emitted with dict := c.emitted.dict ++ [(c.phrase ++ [x], c.emitted.next)]
                   next := c.emitted.next + 1, phrase := [x] }

/-- Everything one input character does (R149): it is registered; then the phrase grows by it, or the phrase
is emitted and the candidate inserted; and C_POS moves on. -/
theorem compressStep_ok {p : Params} {adp : Adapter} {x : Elem} {r r' : Run}
    (h : compressStep p adp x r = .ok r') :
    ∃ c, register p x r.eng.c = .ok c ∧
      ((∃ k, codeOf c.dict (c.phrase ++ [x]) = some k) ∧
        r' = r.setC { c with phrase := c.phrase ++ [x], pos := c.pos + 1 } ∨
       codeOf c.dict (c.phrase ++ [x]) = none ∧ c.emitted.next < p.dictCap ∧
        ∃ r₁, emitToken p adp c.nb (phraseToken c) (r.setC c) = .ok r₁ ∧
          r' = r₁.setC { c.inserted x with pos := (c.inserted x).pos + 1 }) := by
  obtain ⟨c, hreg, h1⟩ := bind_eq_ok.mp h
  obtain ⟨r₁, h2, h3⟩ := bind_eq_ok.mp h1
  cases h3
  unfold extendOrEmit at h2
  simp only [Run.setC_c] at h2
  split at h2
  · next k hk => cases h2; exact ⟨c, hreg, .inl ⟨⟨k, hk⟩, rfl⟩⟩
  · next hk =>
    obtain ⟨r₂, h4, h5⟩ := bind_eq_ok.mp h2
    obtain ⟨c', h6, h7⟩ := bind_eq_ok.mp h5
    obtain ⟨r₃, htok, rfl⟩ := emitPhrase_ok h4
    obtain ⟨⟨k, n⟩, h8, h9⟩ := bind_eq_ok.mp h6
    obtain ⟨hcap, rfl, rfl⟩ := allocCode_eq_ok.mp h8
    cases h9
    cases h7
    exact ⟨c, hreg, .inr ⟨hk, hcap, r₃, htok, rfl⟩⟩

theorem compressStep_bounded {p : Params} {adp : Adapter} {x : Elem} {r r' : Run}
    (h : compressStep p adp x r = .ok r') (hb : r.Bounded p) : r'.Bounded p := by
  obtain ⟨c, _, ⟨_, rfl⟩ | ⟨_, _, r₁, htok, rfl⟩⟩ := compressStep_ok h
  · exact hb.setC _
  · exact ((emitToken_wrote htok).bounded (hb.setC c)).setC _

theorem compressLoop_bounded {p : Params} {adp : Adapter} {v : Str} {r r' : Run}
    (h : compressLoop p adp v r = .ok r') (hb : r.Bounded p) : r'.Bounded p := by
  induction v generalizing r with
  | nil => cases h; exact hb
  | cons x xs ih =>
    obtain ⟨r₁, h1, h2⟩ := bind_eq_ok.mp h
    exact ih h2 (compressStep_bounded h1 hb)

theorem emitLastPhrase_bounded {p : Params} {adp : Adapter} {r r' : Run}
    (h : emitLastPhrase p adp r = .ok r') (hb : r.Bounded p) : r'.Bounded p := by
  unfold emitLastPhrase at h
  split at h
  · obtain ⟨r₁, htok, rfl⟩ := emitPhrase_ok h
    exact ((emitToken_wrote htok).bounded hb).setC _
  · cases h; exact hb

theorem compressFinish_bounded {p : Params} {adp : Adapter} {r r' : Run}
    (h : compressFinish p adp r = .ok r') (hb : r.Bounded p) : r'.Bounded p := by
  obtain ⟨r₁, h1, h2⟩ := bind_eq_ok.mp h
  obtain ⟨r₂, h3, h4⟩ := bind_eq_ok.mp h2
  exact ((emitToken_wrote h3).trans (flush_wrote h4)).bounded (emitLastPhrase_bounded h1 hb)

/-- A compress run starts at O_LEN = 0 (R101), so OUT_MEM's own bounds are enough. -/
theorem runCompress_bounded {p : Params} {adp : Adapter} {v : Str} {r r' : Run}
    (h : runCompress p adp v r = .ok r') (hm : r.out.wf ∧ r.out.below p.outCap) : r'.Bounded p := by
  obtain ⟨r₁, h1, h2⟩ := bind_eq_ok.mp h
  obtain ⟨r₂, h3, h4⟩ := bind_eq_ok.mp h1
  have hinit : (compressInit adp.bpu r).Bounded p := ⟨hm, Nat.zero_le _⟩
  exact (compressFraming_wrote h2).bounded (compressFinish_bounded h4 (compressLoop_bounded h3 hinit))

/-! #### The Decompress Engine -/

theorem runBits_ok {p : Params} {fetch : Nat → BitVec 16} {n v : Nat} {r r' : Run}
    (h : runBits p fetch n r = .ok (v, r')) : ∃ rd, r' = r.setR rd := by
  obtain ⟨⟨v', rd⟩, _, h2⟩ := bind_eq_ok.mp h
  cases h2
  exact ⟨rd, rfl⟩

theorem payload_ok {p : Params} {fetch : Nat → BitVec 16} {n : Nat} {x : Elem} {r r' : Run}
    (h : payload p fetch n r = .ok (x, r')) : ∃ rd, r' = r.setR rd := by
  obtain ⟨⟨v, r₁⟩, h1, h2⟩ := bind_eq_ok.mp h
  cases h2
  exact runBits_ok h1

/-- What the first token makes of the dictionary (R172): its literal is entry 3, the previous word and
the first element put out; or it ends the run. -/
theorem firstToken_ok {p : Params} {fetch : Nat → BitVec 16} {r r' : Run} {goOn : Bool}
    (h : firstToken p fetch r = .ok (goOn, r')) :
    (goOn = true ∧ ∃ x rd, putOuts p [x] ((r.setR rd).setD
        { r.eng.d with dict := r.eng.d.dict ++ [(3, [x])], word := [x], entry := [x] }) = .ok r') ∨
    goOn = false ∧ ∃ rd, r' = r.setR rd := by
  obtain ⟨⟨t, r₁⟩, h1, h2⟩ := bind_eq_ok.mp h
  obtain ⟨rd, rfl⟩ := runBits_ok h1
  simp only at h2
  split at h2
  · obtain ⟨⟨x, r₂⟩, h3, h4⟩ := bind_eq_ok.mp h2
    obtain ⟨rd', rfl⟩ := payload_ok h3
    obtain ⟨r₃, h5, h6⟩ := bind_eq_ok.mp h4
    cases h6
    exact .inl ⟨rfl, x, rd', h5⟩
  · cases h2
    exact .inr ⟨rfl, rd, rfl⟩

/-- What reading a code's literal makes of the dictionary (R175): a literal makes a new entry, whose
code the iteration goes on with; any other code stays. -/
theorem literalCode_ok {p : Params} {fetch : Nat → BitVec 16} {n k : Nat} {r r' : Run}
    (h : literalCode p fetch n r = .ok (k, r')) :
    (∃ x rd d, addEntry p [x] r.eng.d = .ok (k, d) ∧ r' = (r.setR rd).setD d) ∨
    n ≠ 0 ∧ n ≠ 1 ∧ k = n ∧ r' = r := by
  unfold literalCode at h
  split at h
  · obtain ⟨⟨x, r₁⟩, h1, h2⟩ := bind_eq_ok.mp h
    obtain ⟨rd, rfl⟩ := payload_ok h1
    obtain ⟨⟨k', d⟩, h3, h4⟩ := bind_eq_ok.mp h2
    cases h4
    exact .inl ⟨x, rd, d, h3, rfl⟩
  · next hn =>
    cases h
    exact .inr ⟨fun h0 => hn (.inl h0), fun h1 => hn (.inr h1), rfl, rfl⟩

/-- Everything `emitEntry` does (R179): the entry is put out, and the word's extension by its first element
added. -/
theorem emitEntry_ok {p : Params} {r r' : Run} (h : emitEntry p r = .ok r') :
    ∃ r₁ k d, putOuts p r.eng.d.entry r = .ok r₁ ∧
      addEntry p (r.eng.d.word ++ [r.eng.d.entry.headD 0#16]) r.eng.d = .ok (k, d) ∧
      r' = r₁.setD { d with word := r.eng.d.entry } := by
  obtain ⟨r₁, h1, h2⟩ := bind_eq_ok.mp h
  obtain ⟨⟨k, d⟩, h3, h4⟩ := bind_eq_ok.mp h2
  cases h4
  rw [(putOuts_wrote h1).decompressor] at h3 ⊢
  exact ⟨r₁, k, d, h1, h3, rfl⟩

/-- The parts of an iteration (R174 to R179): it reads the End marker, or it reads a code, perhaps makes a
literal's entry, looks the code up and emits its entry. -/
theorem decompressStep_ok {p : Params} {fetch : Nat → BitVec 16} {r r' : Run} {goOn : Bool}
    (h : decompressStep p fetch r = .ok (goOn, r')) :
    (goOn = false ∧ ∃ rd, r' = r.setR rd) ∨
    goOn = true ∧ ∃ n k rd r₁ e, n ≠ 2 ∧ literalCode p fetch n (r.setR rd) = .ok (k, r₁) ∧
      lookupEntry k r₁.eng.d = .ok e ∧ emitEntry p (r₁.setD { r₁.eng.d with entry := e }) = .ok r' := by
  unfold decompressStep at h
  split at h
  · exact nomatch h
  · obtain ⟨⟨n, r₁⟩, h1, h2⟩ := bind_eq_ok.mp h
    obtain ⟨rd, rfl⟩ := runBits_ok h1
    simp only at h2
    split at h2
    · cases h2; exact .inl ⟨rfl, rd, rfl⟩
    · next hn =>
      obtain ⟨⟨k, r₂⟩, h3, h4⟩ := bind_eq_ok.mp h2
      obtain ⟨e, h5, h6⟩ := bind_eq_ok.mp h4
      obtain ⟨r₃, h7, h8⟩ := bind_eq_ok.mp h6
      cases h8
      exact .inr ⟨rfl, n, k, rd, r₂, e, hn, h3, h5, h7⟩

theorem firstToken_bounded {p : Params} {fetch : Nat → BitVec 16} {r r' : Run} {goOn : Bool}
    (h : firstToken p fetch r = .ok (goOn, r')) (hb : r.Bounded p) : r'.Bounded p := by
  rcases firstToken_ok h with ⟨_, x, rd, h⟩ | ⟨_, rd, rfl⟩
  · exact (putOuts_wrote h).bounded ((hb.setR rd).setD _)
  · exact hb.setR rd

theorem literalCode_bounded {p : Params} {fetch : Nat → BitVec 16} {n k : Nat} {r r' : Run}
    (h : literalCode p fetch n r = .ok (k, r')) (hb : r.Bounded p) : r'.Bounded p := by
  rcases literalCode_ok h with ⟨x, rd, d, _, rfl⟩ | ⟨_, _, _, rfl⟩
  · exact (hb.setR rd).setD d
  · exact hb

theorem emitEntry_bounded {p : Params} {r r' : Run} (h : emitEntry p r = .ok r') (hb : r.Bounded p) :
    r'.Bounded p := by
  obtain ⟨r₁, k, d, h1, _, rfl⟩ := emitEntry_ok h
  exact ((putOuts_wrote h1).bounded hb).setD _

theorem decompressStep_bounded {p : Params} {fetch : Nat → BitVec 16} {r r' : Run} {goOn : Bool}
    (h : decompressStep p fetch r = .ok (goOn, r')) (hb : r.Bounded p) : r'.Bounded p := by
  rcases decompressStep_ok h with ⟨_, rd, rfl⟩ | ⟨_, n, k, rd, r₁, e, _, hlit, _, hemit⟩
  · exact hb.setR rd
  · exact emitEntry_bounded hemit ((literalCode_bounded hlit (hb.setR rd)).setD _)

theorem decompressLoop_bounded {p : Params} {fetch : Nat → BitVec 16} {n : Nat} {r r' : Run}
    (h : decompressLoop p fetch n r = .ok r') (hb : r.Bounded p) : r'.Bounded p := by
  induction n generalizing r with
  | zero => exact nomatch h
  | succ n ih =>
    obtain ⟨⟨goOn, r₁⟩, h1, h2⟩ := bind_eq_ok.mp h
    have hb₁ := decompressStep_bounded h1 hb
    cases goOn with
    | true => exact ih h2 hb₁
    | false => cases h2; exact hb₁

/-- A decompress run starts at O_LEN = 0 (R171), so OUT_MEM's own bounds are enough. -/
theorem runDecompress_bounded {p : Params} {adp : Adapter} {IN : Nat → Elem} {n : Nat} {r r' : Run}
    (h : runDecompress p adp IN n r = .ok r') (hm : r.out.wf ∧ r.out.below p.outCap) : r'.Bounded p := by
  unfold runDecompress at h
  split at h
  · exact nomatch h
  · split at h
    · exact nomatch h
    · obtain ⟨⟨goOn, r₁⟩, h1, h2⟩ := bind_eq_ok.mp h
      have hb₁ : r₁.Bounded p := firstToken_bounded h1 ⟨hm, Nat.zero_le _⟩
      cases goOn with
      | true => exact decompressLoop_bounded h2 hb₁
      | false => cases h2; exact hb₁

end Sys2Proof.Machine
end

section
/-! ### Every step keeps the invariant (R29, R31, R62, R63) -/

namespace Sys2Proof.Machine

/-- Free values cut to the registers' widths are within them (log 5, log 15). -/
theorem Engine.clip_fits (e : Engine) : e.clip.fits := by
  have hmod : ∀ n k : Nat, n % 2 ^ k < 2 ^ k := fun n k => Nat.mod_lt n (Nat.two_pow_pos k)
  exact ⟨hmod _ _, hmod _ _, hmod _ _, hmod _ _, hmod _ _, hmod _ _, hmod _ _, hmod _ _, hmod _ _, hmod _ _,
    hmod _ _⟩

theorem freeEngine_fits (ctr : Nat) : (freeEngine ctr).fits := Engine.clip_fits _

/-! #### The STATUS invariants (R29) -/

theorem StatusInv.zero : StatusInv Status.zero 0#32 := by simp [StatusInv, Status.zero]

theorem StatusInv.accepted (st : Status) : StatusInv st.accepted 0#32 := by
  simp [StatusInv, Status.accepted]

theorem StatusInv.dropped {st : Status} {n : Word} (h : StatusInv st n) : StatusInv st.dropped n := h

/-- CLEAR keeps them: DONE and ERR go to 0 together, and a running command has neither (R243). -/
theorem StatusInv.cleared {st : Status} {n : Word} (h : StatusInv st n) : StatusInv st.cleared n := by
  cases hb : st.busy with
  | true => rw [Status.cleared, if_pos hb]; exact h
  | false =>
    obtain ⟨_, hnull, _, hcause⟩ := h
    simpa [StatusInv, Status.cleared, hb] using ⟨fun hr => (hnull hr).2, hcause⟩

/-- A completion establishes them, unless it is a NULL result without a cause (R262, R266). -/
theorem StatusInv.completed (st : Status) {res : Result} (h : res ≠ .null .none) :
    StatusInv (st.completed res) (BitVec.ofNat 32 res.outLen) := by
  cases res with
  | str n => simp [StatusInv, Status.completed]
  | null c =>
    have hc : c ≠ .none := fun e => h (e ▸ rfl)
    simp [StatusInv, Status.completed, Result.outLen, hc]
  | error e => simp [StatusInv, Status.completed, Result.outLen]

/-! #### Completion and the commands -/

/-- The part of the invariant that a completion starts from; it writes everything else (R262, R266). -/
structure MemInv (s : State) : Prop where
  params : s.params.wf = true
  inMem : s.inMem.wf ∧ s.inMem.below s.params.inCap
  outMem : s.outMem.wf ∧ s.outMem.below s.params.outCap
  fresh : s.inMem.gen < s.freeCtr

theorem Inv.memInv {s : State} (h : Inv s) : MemInv s := ⟨h.params, h.inMem, h.outMem, h.fresh.1⟩

/-- The memories' part says nothing of the engine's registers, and of OUT_MEM what a run keeps. -/
theorem MemInv.withRun {s : State} {r : Run} (h : MemInv s) (hr : r.out.wf ∧ r.out.below s.params.outCap) :
    MemInv { s with engine := r.eng, outMem := r.out } :=
  ⟨h.params, h.inMem, hr, h.fresh⟩

theorem MemInv.complete {s : State} {res : Result} (h : MemInv s) (hres : res ≠ .null .none)
    (hlen : res.outLen ≤ s.params.outCap) : Inv (complete res s) where
  params := h.params
  status := StatusInv.completed s.status hres
  engRun := by simp
  latch := by simp
  widths := freeEngine_fits _
  outLen := by
    rw [complete_outLen, BitVec.toNat_ofNat]
    exact Nat.le_trans (Nat.mod_le _ _) hlen
  inMem := h.inMem
  outMem := ⟨Mem.wf_keepBelow h.outMem.1 _ _, Mem.below_keepBelow h.outMem.2 _ _⟩
  fresh := ⟨Nat.lt_succ_of_lt h.fresh, Nat.lt_succ_self _⟩

theorem MemInv.complete_error {s : State} (h : MemInv s) (e : Err) : Inv (Machine.complete (.error e) s) :=
  h.complete nofun (Nat.zero_le _)

theorem executeCompress_inv {s : State} (h : MemInv s) (adp : Adapter) (inNull : Bool) :
    Inv (executeCompress adp inNull s) := by
  rcases executeCompress_cases adp inNull s with ⟨r, n, he, ⟨_, rfl, rfl⟩ | ⟨_, _, hrun, rfl⟩⟩ | ⟨e, he, _⟩ <;>
    rw [he]
  · exact (h.withRun h.outMem).complete nofun (Nat.zero_le _)
  · have hb := runCompress_bounded hrun h.outMem
    exact (h.withRun hb.mem).complete nofun hb.oLen
  · exact h.complete_error e

theorem executeDecompress_inv {s : State} (h : MemInv s) (adp : Adapter) (inNull : Bool) :
    Inv (executeDecompress adp inNull s) := by
  rcases executeDecompress_cases adp inNull s with
    ⟨r, n, he, ⟨_, rfl, rfl⟩ | ⟨_, _, hrun, rfl⟩⟩ | ⟨c, he, hc⟩ | ⟨e, he, _⟩ <;> rw [he]
  · exact (h.withRun h.outMem).complete nofun (Nat.zero_le _)
  · have hb := runDecompress_bounded hrun h.outMem
    exact (h.withRun hb.mem).complete nofun hb.oLen
  · exact h.complete (fun e => hc (Result.null.inj e)) (Nat.zero_le _)
  · exact h.complete_error e

/-! #### The control operations and the resets -/

theorem Inv.setTurns {s : State} (h : Inv s) (ts : List Turn) : Inv { s with turns := ts } :=
  { h with }

theorem Inv.setIrqEn {s : State} (h : Inv s) (e : Bool) : Inv (setIrqEn e s) := { h with }

theorem Inv.clearFlags {s : State} (h : Inv s) : Inv (clearFlags s) :=
  { h with
    status := h.status.cleared
    engRun := by simpa using h.engRun }

/-- A dropped write sets WERR alone, of which the invariant says nothing (R64). -/
theorem Inv.dropped {s : State} (h : Inv s) : Inv { s with status := s.status.dropped } :=
  { h with status := h.status.dropped }

theorem Inv.accept {s : State} (h : Inv s) (hopc : s.cmd.opc.toNat < 0xA) : Inv (accept s) :=
  { h with
    status := .accepted _
    engRun := by simp [Status.accepted]
    latch := fun _ => hopc
    outLen := Nat.zero_le _ }

theorem Inv.startCommand {s : State} (h : Inv s) : Inv (startCommand s) := by
  rcases startCommand_cases s with ⟨_, he⟩ | ⟨_, ⟨_, he⟩ | ⟨hopc, he⟩⟩ <;> rw [he]
  · exact h.dropped
  · have hm : MemInv (Machine.accept s) := { h.memInv with }
    exact hm.complete_error _
  · exact h.accept hopc

theorem Inv.softReset {s : State} (h : Inv s) : Inv (softReset s) :=
  { h with
    status := .zero
    engRun := by simp [Status.zero]
    latch := by simp
    widths := freeEngine_fits _
    outLen := Nat.zero_le _
    outMem := ⟨Mem.wf_opened _, Mem.below_opened _ _⟩
    fresh := ⟨Nat.lt_succ_of_lt h.fresh.1, Nat.lt_succ_self _⟩ }

theorem Inv.powerOn {s : State} (h : Inv s) : Inv (powerOn s) :=
  { h.softReset with
    inMem := ⟨Mem.wf_opened _, Mem.below_opened _ _⟩
    fresh := ⟨Nat.lt_succ_self _, Nat.lt_add_of_pos_right (by decide)⟩ }

theorem Inv.ctrlWrite {s t : State} {d : Word} (h : Inv s) (ht : exec (decodeCtrl d) s = .next t) : Inv t := by
  rcases ctrl_write_cases ht with ⟨_, rfl⟩ | ⟨_, u, hu, ht⟩
  · exact h.softReset
  · have hu : Inv u := by
      rcases hu with ⟨_, rfl⟩ | ⟨_, rfl⟩
      · exact (h.setIrqEn _).clearFlags
      · exact h.setIrqEn _
    rcases ht with ⟨_, rfl⟩ | ⟨_, rfl⟩
    · exact hu.startCommand
    · exact hu

/-! #### Plain accesses -/

theorem Inv.writeInMem {s : State} (h : Inv s) {i : Nat} (hi : i < s.params.inCap) (v : Elem) :
    Inv { s with inMem := s.inMem.write i v } :=
  { h with inMem := ⟨Mem.wf_write h.inMem.1 i v, Mem.below_write h.inMem.2 hi v⟩ }

theorem Inv.writeTarget {s : State} (h : Inv s) (x : Target) (d : Word) : Inv (writeTarget x d s) := by
  rcases writeTarget_cases x d s with
    ⟨_, _, hw⟩ | ⟨_, ⟨_, hw⟩ | ⟨_, hw⟩ | ⟨i, _, hi, hw⟩⟩ | hw <;> rw [hw]
  · exact h.dropped
  · exact { h with }
  · exact { h with }
  · exact h.writeInMem hi _
  · exact h

theorem Inv.readTarget {s : State} (h : Inv s) (x : Target) : Inv (readTarget x s) :=
  have hctr : s.freeCtr ≤ (Machine.readTarget x s).freeCtr := by
    rw [readTarget_freeCtr]; split <;> omega
  { h with fresh := ⟨Nat.lt_of_lt_of_le h.fresh.1 hctr, Nat.lt_of_lt_of_le h.fresh.2 hctr⟩ }

/-- Settles O59, along the cases of a step: a command is one completion, and every other turn writes fields of
which its own lemma says why they keep the invariant. -/
theorem stepKeepsInvariant : Obligations.StepKeepsInvariant := by
  intro s t h hstep
  obtain ⟨ts, _, ⟨_, ht⟩ | ⟨a, d, _, _, ht⟩ | ⟨a, d, x, _, _, _, rfl⟩ | ⟨a, x, _, _, rfl⟩ | ⟨_, rfl⟩⟩ :=
    step_cases hstep
  all_goals have hu := h.setTurns ts
  · rcases ht with ⟨_, rfl⟩ | ⟨_, ⟨adp, n, rfl | rfl⟩ | rfl⟩
    · exact hu
    · exact executeCompress_inv hu.memInv adp n
    · exact executeDecompress_inv hu.memInv adp n
    · exact hu.memInv.complete_error _
  · exact hu.ctrlWrite ht
  · exact hu.writeTarget x d
  · exact hu.readTarget x
  · exact hu.powerOn

end Sys2Proof.Machine
end

section
/-! ### The code ranges and the countdown that both engines share (R34, R35, R143) -/

namespace Sys2Proof.Machine

/-- The codes 3, 4, …, `next - 1` in the order of their entries (R36, R37). -/
def codesBelow (next : Nat) : List Nat := (List.range (next - 3)).map (· + 3)

theorem mem_codesBelow {n next : Nat} : n ∈ codesBelow next ↔ 3 ≤ n ∧ n < next := by
  simp only [codesBelow, List.mem_map, List.mem_range]
  exact ⟨by rintro ⟨a, ha, rfl⟩; omega, fun h => ⟨n - 3, by omega, by omega⟩⟩

theorem codesBelow_succ {next : Nat} (h : 3 ≤ next) : codesBelow (next + 1) = codesBelow next ++ [next] := by
  have hn : next + 1 - 3 = next - 3 + 1 := by omega
  simp [codesBelow, hn, List.range_succ, Nat.sub_add_cancel h]

/-- One countdown lowers `ENL - 2^NB` by one, and neither lets ENL reach 0 nor shrinks NB. -/
theorem grow_balance {enl : Nat} (h : 1 ≤ enl) (nb : Nat) :
    (grow enl nb).1 + 2 ^ nb + 1 = enl + 2 ^ (grow enl nb).2 ∧ 1 ≤ (grow enl nb).1 ∧ nb ≤ (grow enl nb).2 := by
  unfold grow
  split
  · have := Nat.two_pow_pos nb
    simp only [Nat.pow_succ]
    omega
  · simp only
    omega

end Sys2Proof.Machine
end
section
/-! ### The decompress dictionary and countdown (R37, R182) -/

namespace Sys2Proof.Machine

theorem entryOf_isSome {d : List (Nat × Str)} {n : Nat} (h : n ∈ d.map Prod.fst) :
    ∃ s, entryOf d n = some s ∧ s ∈ d.map Prod.snd := by
  induction d with
  | nil => exact nomatch h
  | cons a d ih =>
    obtain ⟨k, s⟩ := a
    by_cases hk : k = n
    · exact ⟨s, if_pos hk, List.mem_cons_self⟩
    · obtain ⟨s', he, hs⟩ := ih (List.mem_of_ne_of_mem (Ne.symm hk) h)
      exact ⟨s', (if_neg hk).trans he, List.mem_cons_of_mem _ hs⟩

theorem Decompressor.inv.codes {d : Decompressor} (h : d.inv) : d.dict.map Prod.fst = codesBelow d.next := h.1

theorem Decompressor.inv.next {d : Decompressor} (h : d.inv) : 4 ≤ d.next := by
  obtain ⟨_, hnext, _⟩ := h
  exact hnext

theorem Decompressor.inv.word {d : Decompressor} (h : d.inv) : d.word ∈ d.dict.map Prod.snd := by
  obtain ⟨_, _, _, _, hword, _⟩ := h
  exact hword

theorem Decompressor.inv.word_ne_nil {d : Decompressor} (h : d.inv) : d.word ≠ [] := by
  obtain ⟨_, _, hne, _, hword, _⟩ := h
  exact hne _ hword

/-- The registers of the invariant, D_WORD aside, are the dictionary's and the countdown's. -/
theorem Decompressor.inv.setWord {d : Decompressor} (h : d.inv) {s : Str} (hs : s ∈ d.dict.map Prod.snd) :
    { d with word := s }.inv := by
  obtain ⟨hcodes, hnext, hne, hext, _, hcount⟩ := h
  exact ⟨hcodes, hnext, hne, hext, hs, hcount⟩

/-- A new entry that is one element, or extends an entry by one, keeps the invariant (R175, R179, R184). -/
theorem addEntry_inv {p : Params} {s : Str} {d d' : Decompressor} {k : Nat} (h : d.inv)
    (hs : ∃ b x, s = b ++ [x] ∧ (b = [] ∨ b ∈ d.dict.map Prod.snd)) (ha : addEntry p s d = .ok (k, d')) :
    d'.inv := by
  obtain ⟨_, _, rfl⟩ := addEntry_eq_ok.mp ha
  have hcodes := h.codes
  obtain ⟨_, hnext, hne, hext, hword, hcount, henl, hnb⟩ := h
  obtain ⟨b, x, rfl, hb⟩ := hs
  obtain ⟨hbal, henl', hnb'⟩ := grow_balance henl d.nb
  refine ⟨?_, Nat.le_succ_of_le hnext, ?_, ?_, ?_, ?_, henl', Nat.le_trans hnb hnb'⟩
  · simp only [List.map_append, List.map_cons, List.map_nil, hcodes]
    exact (codesBelow_succ (by omega)).symm
  · simp only [List.map_append, List.mem_append]
    rintro c (hc | hc)
    · exact hne c hc
    · cases List.mem_singleton.mp hc
      simp
  · intro e he hlen
    rcases List.mem_append.mp he with he | he
    · obtain ⟨b', hb', hrest⟩ := hext e he hlen
      exact ⟨b', List.mem_append_left _ hb', hrest⟩
    · cases List.mem_singleton.mp he
      rcases hb with rfl | hb
      · simp at hlen
      · obtain ⟨b', hb', rfl⟩ := List.mem_map.mp hb
        have hlt : b'.1 ∈ codesBelow d.next := hcodes ▸ List.mem_map_of_mem hb'
        exact ⟨b', List.mem_append_left _ hb', (mem_codesBelow.mp hlt).2, x, rfl⟩
  · simp only [List.map_append]
    exact List.mem_append_left _ hword
  · simp only
    omega

/-- A code that is looked up is an entry's, or the next free one (R177). -/
theorem lookupEntry_ok {d : Decompressor} (h : d.inv) {k : Nat} {e : Str} (hk : 3 ≤ k)
    (he : lookupEntry k d = .ok e) :
    e ∈ d.dict.map Prod.snd ∨ e = d.word ++ [d.word.headD 0#16] := by
  unfold lookupEntry at he
  split at he
  · next hlt =>
    obtain ⟨s, hs, hmem⟩ := entryOf_isSome (h.codes ▸ mem_codesBelow.mpr ⟨hk, hlt⟩)
    rw [hs] at he
    cases he
    exact .inl hmem
  · split at he
    · cases he; exact .inr rfl
    · exact nomatch he

/-- The code an iteration goes on with is no control code, and a literal's entry keeps the invariant (R175). -/
theorem literalCode_inv {p : Params} {fetch : Nat → BitVec 16} {n k : Nat} {r r' : Run} (h : r.eng.d.inv)
    (hn : n ≠ 2) (hl : literalCode p fetch n r = .ok (k, r')) : r'.eng.d.inv ∧ 3 ≤ k := by
  rcases literalCode_ok hl with ⟨x, rd, d, ha, rfl⟩ | ⟨h0, h1, rfl, rfl⟩
  · obtain ⟨_, rfl, _⟩ := addEntry_eq_ok.mp ha
    exact ⟨addEntry_inv h ⟨[], x, rfl, .inl rfl⟩ ha, Nat.le_of_succ_le h.next⟩
  · exact ⟨h, by omega⟩

/-- Emitting an entry that is in the dictionary, or is the word with its own first element, keeps the
invariant: in the second case it is the entry just added (R177, R179). -/
theorem emitEntry_inv {p : Params} {r r' : Run} (h : r.eng.d.inv)
    (he : r.eng.d.entry ∈ r.eng.d.dict.map Prod.snd ∨
      r.eng.d.entry = r.eng.d.word ++ [r.eng.d.word.headD 0#16])
    (hr : emitEntry p r = .ok r') : r'.eng.d.inv := by
  obtain ⟨r₁, k, d, _, ha, rfl⟩ := emitEntry_ok hr
  refine (addEntry_inv h ⟨r.eng.d.word, _, rfl, .inr h.word⟩ ha).setWord ?_
  obtain ⟨_, _, rfl⟩ := addEntry_eq_ok.mp ha
  simp only [List.map_append, List.map_cons, List.map_nil, List.mem_append, List.mem_singleton]
  refine he.imp_right fun hself => ?_
  obtain ⟨y, ys, hw⟩ := List.exists_cons_of_ne_nil h.word_ne_nil
  simp [hself, hw]

/-- Settles O26: the first token's registers are the least that meet the invariant, and an iteration adds its
literal's entry and the word's extension. -/
theorem decompressLoopInvariant : Obligations.DecompressLoopInvariant := by
  intro p fetch bpu len r r'
  constructor
  · intro h
    rcases firstToken_ok h with ⟨_, x, rd, hput⟩ | ⟨hgo, _⟩
    · rw [(putOuts_wrote hput).decompressor]
      refine ⟨rfl, Nat.le_refl 4, ?_, ?_, ?_, rfl, ?_, Nat.le_refl 3⟩
      all_goals simp [decompressInit]
    · exact nomatch hgo
  · intro hinv h
    rcases decompressStep_ok h with ⟨hgo, _⟩ | ⟨_, n, k, rd, r₁, e, hn, hlit, hlook, hemit⟩
    · exact nomatch hgo
    · obtain ⟨hinv₁, hk⟩ := literalCode_inv (r := r.setR rd) hinv hn hlit
      exact emitEntry_inv (r := r₁.setD { r₁.eng.d with entry := e }) hinv₁
        (lookupEntry_ok hinv₁ hk hlook) hemit

end Sys2Proof.Machine
end

section
/-! ### The compress dictionary, the pending set and the countdown (R36, R145, R150, R151) -/

namespace Sys2Proof.Machine

theorem codeOf_eq_none {d : List (Str × Nat)} {s : Str} : codeOf d s = none ↔ s ∉ d.map Prod.fst := by
  induction d with
  | nil => simp [codeOf]
  | cons a d ih =>
    obtain ⟨k, n⟩ := a
    by_cases hk : k = s
    · simp [codeOf, hk]
    · simp [codeOf, hk, ih, Ne.symm hk]

theorem mem_of_codeOf {d : List (Str × Nat)} {s : Str} {n : Nat} (h : codeOf d s = some n) :
    s ∈ d.map Prod.fst ∧ n ∈ d.map Prod.snd := by
  induction d with
  | nil => exact nomatch h
  | cons a d ih =>
    obtain ⟨k, m⟩ := a
    simp only [codeOf] at h
    split at h
    · next hk => cases h; subst hk; exact ⟨List.mem_cons_self, List.mem_cons_self⟩
    · exact (ih h).imp (List.mem_cons_of_mem _) (List.mem_cons_of_mem _)

/-! #### The dictionary -/

/-- The keys of C_DICT, oldest first. -/
def Compressor.keys (c : Compressor) : List Str := c.dict.map Prod.fst

/-- A dictionary as R36 has it, and closed under taking a key's last element too: every character of a key has
been registered. -/
structure DictInv (dict : List (Str × Nat)) (next : Nat) : Prop where
  codes : dict.map Prod.snd = codesBelow next
  next : 3 ≤ next
  nodup : (dict.map Prod.fst).Nodup
  nonempty : [] ∉ dict.map Prod.fst
  initials : ∀ s y, s ++ [y] ∈ dict.map Prod.fst → s = [] ∨ s ∈ dict.map Prod.fst
  chars : ∀ s y, s ++ [y] ∈ dict.map Prod.fst → [y] ∈ dict.map Prod.fst

/-- A new key whose initial part and last character are keys already, or which is one character, keeps the
dictionary's invariant (R141, R146). -/
theorem DictInv.insert {dict : List (Str × Nat)} {next : Nat} (h : DictInv dict next) {s : Str} {x : Elem}
    (hnew : s ++ [x] ∉ dict.map Prod.fst)
    (hs : s = [] ∨ s ∈ dict.map Prod.fst ∧ [x] ∈ dict.map Prod.fst) :
    DictInv (dict ++ [(s ++ [x], next)]) (next + 1) := by
  have hkeys : (dict ++ [(s ++ [x], next)]).map Prod.fst = dict.map Prod.fst ++ [s ++ [x]] := by simp
  refine ⟨?_, Nat.le_succ_of_le h.next, ?_, ?_, ?_, ?_⟩
  · rw [codesBelow_succ h.next, ← h.codes, List.map_append, List.map_singleton]
  · rw [hkeys]
    exact h.nodup.append (List.nodup_singleton _) (by simpa using hnew)
  · simp [hkeys, h.nonempty]
  · intro s' y hmem
    rw [hkeys, List.mem_append, List.mem_singleton] at hmem ⊢
    rcases hmem with hmem | heq
    · exact (h.initials s' y hmem).imp_right .inl
    · obtain ⟨rfl, _⟩ := List.append_inj' heq rfl
      exact hs.imp_right fun hs => .inl hs.1
  · intro s' y hmem
    rw [hkeys, List.mem_append, List.mem_singleton] at hmem ⊢
    rcases hmem with hmem | heq
    · exact .inl (h.chars s' y hmem)
    · obtain ⟨rfl, hxy⟩ := List.append_inj' heq rfl
      cases hxy
      rcases hs with rfl | ⟨_, hx⟩
      · exact .inr rfl
      · exact .inl hx

/-! #### The registers -/

/-- The invariant of the Compress Engine's registers that each of its operations keeps: the dictionary's; the
phrase is "" or a key; the pending strings are distinct one-character keys that no key extends (R150); and the
countdown's balance (R151). -/
structure Compressor.Good (c : Compressor) : Prop where
  dict : DictInv c.dict c.next
  phrase : c.phrase = [] ∨ c.phrase ∈ c.keys
  pendNodup : c.pend.Nodup
  pendKeys : ∀ s ∈ c.pend, s.length = 1 ∧ s ∈ c.keys
  pendLeaf : ∀ s ∈ c.pend, ∀ y, s ++ [y] ∉ c.keys
  countdown : c.enl + c.next = 2 ^ c.nb + 1 + c.pend.length
  enl : 1 ≤ c.enl
  nb : 2 ≤ c.nb

theorem Compressor.Good.inv {c : Compressor} (h : c.Good) : c.inv := by
  refine ⟨h.dict.codes, h.dict.next, h.dict.nodup, ?_, ?_, h.pendKeys, h.phrase⟩
  · rintro s hs rfl
    exact h.dict.nonempty hs
  · intro s hs hlen
    have hne : s ≠ [] := by rintro rfl; simp at hlen
    rw [← List.dropLast_append_getLast hne] at hs
    refine (h.dict.initials _ _ hs).resolve_left fun hnil => ?_
    have := congrArg List.length hnil
    simp only [List.length_dropLast, List.length_nil] at this
    omega

/-- The loop's invariant: at the head of the loop only the phrase can be pending (R150). -/
structure Compressor.LoopInv (c : Compressor) : Prop where
  good : c.Good
  pend : c.pend = [] ∨ c.pend = [c.phrase]

/-- A dictionary code is below the next free code, which the countdown keeps within the width (R145). -/
theorem Compressor.LoopInv.phraseToken_lt {c : Compressor} (h : c.LoopInv) {k : Nat}
    (hk : phraseToken c = .dictCode k) : k < 2 ^ c.nb := by
  have hcount := h.good.countdown
  have henl := h.good.enl
  unfold phraseToken at hk
  split at hk
  · unfold literalOf at hk
    split at hk <;> exact nomatch hk
  · next hnot =>
    have hpend : c.pend = [] := h.pend.resolve_right fun e => hnot (by simp [e])
    simp only [hpend, List.length_nil] at hcount
    cases hk
    cases hcode : codeOf c.dict c.phrase with
    | none => exact Nat.two_pow_pos _
    | some n =>
      have hlt := (mem_codesBelow.mp (h.good.dict.codes ▸ (mem_of_codeOf hcode).2)).2
      simp only [Option.getD_some]
      omega

/-! #### `register(c)` -/

@[simp] theorem Compressor.registered_keys (c : Compressor) (x : Elem) :
    (c.registered x).keys = c.keys ++ [[x]] := by
  simp [Compressor.registered, Compressor.keys]

@[simp] theorem Compressor.registered_pend (c : Compressor) (x : Elem) :
    (c.registered x).pend = c.pend ++ [[x]] := rfl

@[simp] theorem Compressor.registered_phrase (c : Compressor) (x : Elem) :
    (c.registered x).phrase = c.phrase := rfl

@[simp] theorem Compressor.registered_pos (c : Compressor) (x : Elem) : (c.registered x).pos = c.pos := rfl

theorem register_cases {p : Params} {x : Elem} {c c' : Compressor} (h : register p x c = .ok c') :
    [x] ∈ c.keys ∧ c' = c ∨ [x] ∉ c.keys ∧ c' = c.registered x := by
  rcases register_eq_ok.mp h with ⟨⟨k, hk⟩, rfl⟩ | ⟨hk, _, rfl⟩
  · exact .inl ⟨(mem_of_codeOf hk).1, rfl⟩
  · exact .inr ⟨codeOf_eq_none.mp hk, rfl⟩

/-- A registration keeps the invariant: the new character's code and its place in the pending set balance. -/
theorem Compressor.Good.registered {c : Compressor} (h : c.Good) {x : Elem} (hx : [x] ∉ c.keys) :
    (c.registered x).Good where
  dict := h.dict.insert (s := []) hx (.inl rfl)
  phrase := by simpa using h.phrase.imp_right .inl
  pendNodup := h.pendNodup.append (List.nodup_singleton _)
    (by simpa using fun hmem => hx (h.pendKeys _ hmem).2)
  pendKeys := by
    intro s hs
    simp only [registered_pend, List.mem_append, List.mem_singleton, registered_keys] at hs ⊢
    rcases hs with hs | rfl
    · exact (h.pendKeys s hs).imp_right .inl
    · exact ⟨rfl, .inr rfl⟩
  pendLeaf := by
    intro s hs y
    simp only [registered_pend, List.mem_append, List.mem_singleton, registered_keys] at hs ⊢
    rintro (hy | hy)
    · rcases hs with hs | rfl
      · exact h.pendLeaf s hs y hy
      · exact hx ((h.dict.initials _ _ hy).resolve_left (by simp))
    · have hnil : s = [] := by simpa using congrArg List.dropLast hy
      rcases hs with hs | rfl
      · simpa [hnil] using (h.pendKeys s hs).1
      · simp at hnil
  countdown := by
    have := h.countdown
    simp only [Compressor.registered, List.length_append, List.length_singleton]
    omega
  enl := h.enl
  nb := h.nb

/-! #### `emitPhrase()` and `insertCandidate()` -/

@[simp] theorem Compressor.emitted_dict (c : Compressor) : c.emitted.dict = c.dict := by
  unfold Compressor.emitted; split <;> rfl

@[simp] theorem Compressor.emitted_next (c : Compressor) : c.emitted.next = c.next := by
  unfold Compressor.emitted; split <;> rfl

@[simp] theorem Compressor.emitted_pos (c : Compressor) : c.emitted.pos = c.pos := by
  unfold Compressor.emitted; split <;> rfl

/-- The emitted phrase is no longer pending. -/
@[simp] theorem Compressor.emitted_pend (c : Compressor) : c.emitted.pend = c.pend.erase c.phrase := by
  unfold Compressor.emitted
  split
  · rfl
  · next h => exact (List.erase_of_not_mem h).symm

/-- Emitting the phrase leaves the countdown one short, whether it was pending, with two countdowns, or not, with
one (R144). -/
theorem Compressor.Good.emitted_countdown {c : Compressor} (h : c.Good) :
    c.emitted.enl + c.next = 2 ^ c.emitted.nb + (c.pend.erase c.phrase).length ∧
      1 ≤ c.emitted.enl ∧ 2 ≤ c.emitted.nb := by
  have hcount := h.countdown
  have hnb := h.nb
  obtain ⟨hbal, henl, hmono⟩ := grow_balance h.enl c.nb
  obtain ⟨hbal', henl', hmono'⟩ := grow_balance henl (grow c.enl c.nb).2
  unfold Compressor.emitted
  split
  · next hmem =>
    have hlen := List.length_erase_of_mem hmem
    have hpos := List.length_pos_of_mem hmem
    simp only [Compressor.grown]
    omega
  · next hmem =>
    rw [List.erase_of_not_mem hmem]
    simp only [Compressor.grown]
    omega

@[simp] theorem Compressor.inserted_keys (c : Compressor) (x : Elem) :
    (c.inserted x).keys = c.keys ++ [c.phrase ++ [x]] := by
  simp [Compressor.inserted, Compressor.keys]

@[simp] theorem Compressor.inserted_pend (c : Compressor) (x : Elem) :
    (c.inserted x).pend = c.pend.erase c.phrase := c.emitted_pend

@[simp] theorem Compressor.inserted_phrase (c : Compressor) (x : Elem) : (c.inserted x).phrase = [x] := rfl

@[simp] theorem Compressor.inserted_pos (c : Compressor) (x : Elem) : (c.inserted x).pos = c.pos :=
  c.emitted_pos

/-- Emitting the phrase and inserting the candidate keeps the invariant (R142, R144, R146): the candidate extends
only the phrase, which is pending no more. -/
theorem Compressor.Good.inserted {c : Compressor} (h : c.Good) {x : Elem} (hx : [x] ∈ c.keys)
    (hcand : c.phrase ++ [x] ∉ c.keys) : (c.inserted x).Good where
  dict := by
    simp only [Compressor.inserted, emitted_dict, emitted_next]
    exact h.dict.insert hcand (h.phrase.imp_right fun hp => ⟨hp, hx⟩)
  phrase := by simp [hx]
  pendNodup := by simpa using h.pendNodup.erase _
  pendKeys := by
    intro s hs
    rw [inserted_pend] at hs
    rw [inserted_keys, List.mem_append]
    exact (h.pendKeys s (List.mem_of_mem_erase hs)).imp_right .inl
  pendLeaf := by
    intro s hs y
    rw [inserted_pend, h.pendNodup.mem_erase_iff] at hs
    rw [inserted_keys, List.mem_append, List.mem_singleton]
    rintro (hy | hy)
    · exact h.pendLeaf s hs.2 y hy
    · exact hs.1 (List.append_inj' hy rfl).1
  countdown := by
    have := h.emitted_countdown.1
    rw [inserted_pend]
    simp only [Compressor.inserted, emitted_next]
    omega
  enl := h.emitted_countdown.2.1
  nb := h.emitted_countdown.2.2

/-! #### One character, and the loop -/

/-- After a character is registered, its own key is present, and the pending set is as the extension and the
emission need it: if the candidate is a key, only the candidate can be pending; and without the phrase, only the
character can. -/
theorem Compressor.LoopInv.register {p : Params} {x : Elem} {c c' : Compressor} (h : c.LoopInv)
    (hreg : register p x c = .ok c') :
    c'.Good ∧ [x] ∈ c'.keys ∧ c'.phrase = c.phrase ∧ c'.pos = c.pos ∧
      (c.phrase ++ [x] ∈ c'.keys → c'.pend = [] ∨ c'.pend = [c.phrase ++ [x]]) ∧
      (c'.pend.erase c.phrase = [] ∨ c'.pend.erase c.phrase = [[x]]) := by
  rcases register_cases hreg with ⟨hx, rfl⟩ | ⟨hx, rfl⟩
  · refine ⟨h.good, hx, rfl, rfl, fun hcand => .inl ?_, ?_⟩
    · exact h.pend.resolve_right fun e => h.good.pendLeaf c'.phrase (by simp [e]) x hcand
    · rcases h.pend with e | e <;> simp [e]
  · refine ⟨h.good.registered hx, by simp, rfl, rfl, fun hcand => .inr ?_, ?_⟩
    · have hnil : c.phrase = [] := by
        rw [registered_keys, List.mem_append, List.mem_singleton] at hcand
        rcases hcand with hcand | hcand
        · exact absurd (h.good.dict.chars _ _ hcand) hx
        · exact (List.append_inj' (s₂ := []) hcand rfl).1
      have hpend : c.pend = [] := h.pend.resolve_right fun e => by
        simpa [hnil] using (h.good.pendKeys c.phrase (by simp [e])).1
      simp [hpend, hnil]
    · rcases h.pend with e | e
      · by_cases hp : c.phrase = [x] <;> simp [e, hp]
      · simp [e]

/-- One input character keeps the loop's invariant, leaves a phrase, and moves C_POS on by one (R149). -/
theorem compressStep_loopInv {p : Params} {adp : Adapter} {x : Elem} {r r' : Run} (h : r.eng.c.LoopInv)
    (hstep : compressStep p adp x r = .ok r') :
    r'.eng.c.LoopInv ∧ r'.eng.c.phrase ≠ [] ∧ r'.eng.c.pos = r.eng.c.pos + 1 := by
  obtain ⟨c, hreg, hcase⟩ := compressStep_ok hstep
  obtain ⟨hgood, hx, hphrase, hpos, hextend, hemit⟩ := h.register hreg
  rw [← hphrase] at hextend hemit
  rcases hcase with ⟨⟨k, hk⟩, rfl⟩ | ⟨hk, _, r₁, _, rfl⟩
  · have hcand := (mem_of_codeOf hk).1
    exact ⟨⟨{ hgood with phrase := .inr hcand }, hextend hcand⟩, by simp, by simp [hpos]⟩
  · have hins := hgood.inserted hx (codeOf_eq_none.mp hk)
    exact ⟨⟨{ hins with }, by simpa using hemit⟩, by simp, by simp [hpos]⟩

theorem compressLoop_loopInv {p : Params} {adp : Adapter} {v : Str} {r r' : Run} (h : r.eng.c.LoopInv)
    (hloop : compressLoop p adp v r = .ok r') :
    r'.eng.c.LoopInv ∧ (v ≠ [] ∨ r.eng.c.phrase ≠ [] → r'.eng.c.phrase ≠ []) ∧
      r'.eng.c.pos = r.eng.c.pos + v.length := by
  induction v generalizing r with
  | nil => cases hloop; exact ⟨h, by simp, rfl⟩
  | cons x xs ih =>
    obtain ⟨r₁, h1, h2⟩ := bind_eq_ok.mp hloop
    obtain ⟨hinv, hphrase, hpos⟩ := compressStep_loopInv h h1
    obtain ⟨hinv', hphrase', hpos'⟩ := ih hinv h2
    refine ⟨hinv', fun _ => hphrase' (.inr hphrase), ?_⟩
    rw [hpos', hpos, List.length_cons]
    omega

theorem compressInit_loopInv (bpu : Bpu) (r : Run) : (compressInit bpu r).eng.c.LoopInv where
  good := ⟨⟨rfl, Nat.le_refl 3, .nil, nofun, nofun, nofun⟩, .inl rfl, .nil, nofun, nofun, rfl, Nat.le_succ 1,
    Nat.le_refl 2⟩
  pend := .inl rfl

/-- Settles O25: the loop's invariant holds at `compressInit` and after every character. -/
theorem compressLoopInvariant : Obligations.CompressLoopInvariant := by
  intro p adp v r₀ r h
  obtain ⟨hinv, hphrase, hpos⟩ := compressLoop_loopInv (compressInit_loopInv adp.bpu r₀) h
  exact ⟨hinv.good.inv, hinv.pend, hinv.good.countdown, hinv.good.enl, hinv.good.nb, hpos.trans (Nat.zero_add _),
    fun hv => hphrase (.inl hv), fun _ => hinv.phraseToken_lt⟩

end Sys2Proof.Machine
end

section
/-! ### The window's addresses: reserved space, the ignored bits 1:0, and the outside (R60, R61, R66) -/

namespace Sys2Proof.Machine

theorem targetOf_inside {p : Params} {a : Word} (h : (a - p.base).toNat < 2 ^ 30) :
    targetOf p a = some (targetOfWord ((a - p.base).toNat / 4)) := if_pos h

theorem targetOf_outside {p : Params} {a : Word} (h : 2 ^ 30 ≤ (a - p.base).toNat) : targetOf p a = none :=
  if_neg (Nat.not_lt.mpr h)

/-- The words of the register window after OUT_LEN, and those of the window's last quarter (R66). -/
theorem targetOfWord_reserved {w : Nat} (h : 6 ≤ w ∧ w < 0x04000000 ∨ 0x0C000000 ≤ w) :
    targetOfWord w = .reserved := by
  unfold targetOfWord
  rcases h with ⟨hlow, hhigh⟩ | hlast
  · rw [if_pos hhigh]
    obtain ⟨k, rfl⟩ := Nat.exists_eq_add_of_le' hlow
    rfl
  · rw [if_neg (by omega), if_neg (by omega), if_neg (by omega)]

/-- Clearing an address's bits 1:0 rounds it down to a multiple of 4. -/
theorem toNat_wordAligned (a : Word) : (a &&& 0xFFFFFFFC#32).toNat = a.toNat / 4 * 4 := by
  have hmask : ∀ i < 32, (0xFFFFFFFC#32).getLsbD i = decide (2 ≤ i) := by decide
  have hshift : a &&& 0xFFFFFFFC#32 = a >>> 2 <<< 2 := by
    refine BitVec.eq_of_getLsbD_eq fun i hi => ?_
    rw [BitVec.getLsbD_and, hmask i hi, BitVec.getLsbD_shiftLeft, BitVec.getLsbD_ushiftRight]
    by_cases h2 : 2 ≤ i
    · simp [h2, hi, Nat.not_lt.mpr h2, Nat.add_sub_cancel' h2]
    · simp [h2, Nat.not_le.mp h2]
  rw [hshift, BitVec.toNat_shiftLeft, BitVec.toNat_ushiftRight, Nat.shiftLeft_eq, Nat.shiftRight_eq_div_pow]
  omega

/-- BASE is a multiple of 4 (R7), so an address's bits 1:0 do not enter into the word it names (R61). -/
theorem targetOf_wordAligned {p : Params} (hp : p.wf = true) (a : Word) :
    targetOf p (a &&& 0xFFFFFFFC#32) = targetOf p a := by
  have hbase : p.base.toNat % 2 ^ 30 = 0 := by
    simp only [Params.wf, Bool.and_eq_true, decide_eq_true_eq] at hp
    exact hp.2
  have hoff : ((a &&& 0xFFFFFFFC#32) - p.base).toNat = (a - p.base).toNat / 4 * 4 := by
    rw [BitVec.toNat_sub, BitVec.toNat_sub, toNat_wordAligned]
    omega
  rcases Nat.lt_or_ge (a - p.base).toNat (2 ^ 30) with h | h
  · rw [targetOf_inside h, targetOf_inside (by omega), hoff, Nat.mul_div_cancel _ (by decide)]
  · rw [targetOf_outside h, targetOf_outside (by omega)]

/-- A CTRL write is an instruction, and every other access inside the window a plain one (R61, R85). -/
theorem step_host_write_completes (s : State) (ts : List Turn) {a : Word} (d : Word) {x : Target}
    (h : targetOf s.params a = some x) :
    ∃ t, step { s with turns := .host (.write a d) :: ts } = .next t := by
  by_cases hx : x = .reg .ctrl
  · subst hx
    refine ⟨_, Eq.trans ?_ (exec_decodeCtrl d { s with turns := ts })⟩
    simp only [step, hostTurn, h]
  · exact ⟨_, step_host_write s ts d h hx⟩

theorem step_host_outside (s : State) (ts : List Turn) {a : Word} (d : Word) (h : targetOf s.params a = none) :
    step { s with turns := .host (.write a d) :: ts } = .fault (.outsideWindow a) ∧
    step { s with turns := .host (.read a) :: ts } = .fault (.outsideWindow a) := by
  simp only [step, hostTurn, h, and_self]

/-- Settles O14: the rounded address names the same target, and an access has an outcome by its target. -/
theorem windowAccessesComplete : Obligations.WindowAccessesComplete := by
  intro s a d ts hp
  refine ⟨(targetOf_wordAligned hp a).symm, fun hin => ?_, fun hout => ?_⟩
  · have htarget := targetOf_inside hin
    exact ⟨step_host_write_completes s ts d htarget, _, step_host_read s ts htarget⟩
  · exact step_host_outside s ts d (targetOf_outside hout)

/-- Settles O12: both ranges are whole words of reserved space. -/
theorem reservedSpaceInert : Obligations.ReservedSpaceInert := by
  intro s a d ts _ hoff
  have htarget : targetOf s.params a = some .reserved := by
    rw [targetOf_inside (by omega), targetOfWord_reserved (by omega)]
  exact ⟨step_host_write s ts d htarget nofun, step_host_read s ts htarget⟩

end Sys2Proof.Machine
end

section
/-! ### The element windows: accesses to IN_MEM and OUT_MEM slots, and what changes IN_MEM (R62 to R65, R295) -/

namespace Sys2Proof.Machine

/-! #### Writes -/

/-- While BUSY a write to CMD, IN_LEN or an IN_MEM slot is dropped (R64). -/
theorem step_write_busy {s : State} (hbusy : s.status.busy = true) (ts : List Turn) (d : Word) {a : Word}
    {x : Target} (h : targetOf s.params a = some x)
    (hx : x = .reg .cmd ∨ x = .reg .inLen ∨ ∃ i, x = .inSlot i) :
    step { s with turns := .host (.write a d) :: ts } =
      .next { s with turns := ts, status := s.status.dropped } := by
  rcases hx with rfl | rfl | ⟨i, rfl⟩ <;>
    exact (step_host_write s ts d h nofun).trans (congrArg _ (if_pos hbusy))

/-- While BUSY = 0 a write to an IN_MEM slot stores the element below IN_CAP (R62). -/
theorem step_write_inSlot_below {s : State} (hidle : s.status.busy = false) (ts : List Turn) (d : Word)
    {a : Word} {i : Nat} (h : targetOf s.params a = some (.inSlot i)) (hi : i < s.params.inCap) :
    step { s with turns := .host (.write a d) :: ts } =
      .next { s with turns := ts, inMem := s.inMem.write i (d.setWidth 16) } := by
  simp [step_host_write s ts d h nofun, writeTarget, hidle, hi]

theorem step_write_inSlot_above {s : State} (hidle : s.status.busy = false) (ts : List Turn) (d : Word)
    {a : Word} {i : Nat} (h : targetOf s.params a = some (.inSlot i)) (hi : s.params.inCap ≤ i) :
    step { s with turns := .host (.write a d) :: ts } = .next { s with turns := ts } := by
  simp [step_host_write s ts d h nofun, writeTarget, hidle, Nat.not_lt.mpr hi]

/-! #### Reads -/

theorem State.inElem_below {s : State} {i : Nat} (hi : i < s.params.inCap) : s.inElem i = s.inMem.read i :=
  if_pos hi

theorem State.inElem_above {s : State} {i : Nat} (hi : s.params.inCap ≤ i) : s.inElem i = 0#16 :=
  if_neg (Nat.not_lt.mpr hi)

theorem readTarget_outSlot_above {s : State} {i : Nat} (hi : s.params.outCap ≤ i) :
    readTarget (.outSlot i) s = { s with rdata := 0#32 } := by
  simp [readTarget, readValue, readDraws, Nat.not_lt.mpr hi]

theorem readTarget_outSlot_idle {s : State} {i : Nat} (hi : i < s.params.outCap)
    (hidle : s.status.busy = false) :
    readTarget (.outSlot i) s = { s with rdata := (s.outMem.read i).setWidth 32 } := by
  simp [readTarget, readValue, readDraws, hi, hidle]

/-- While BUSY a read of an OUT_MEM element draws a free value (R65; log 4). -/
theorem readTarget_outSlot_busy {s : State} {i : Nat} (hi : i < s.params.outCap)
    (hbusy : s.status.busy = true) :
    readTarget (.outSlot i) s =
      { s with rdata := (Config.openRead s.freeCtr).setWidth 32, freeCtr := s.freeCtr + 1 } := by
  simp [readTarget, readValue, readDraws, hi, hbusy]

/-- Settles O8: the three addresses name targets whose writes BUSY drops. -/
theorem busyWritesDropped : Obligations.BusyWritesDropped := by
  intro s d i ts _ hbusy hi a ha
  simp only [List.mem_cons, List.not_mem_nil, or_false] at ha
  rcases ha with rfl | rfl | rfl
  · exact step_write_busy hbusy ts d (targetOf_regAddr s.params .cmd) (.inl rfl)
  · exact step_write_busy hbusy ts d (targetOf_regAddr s.params .inLen) (.inr (.inl rfl))
  · exact step_write_busy hbusy ts d (targetOf_inAddr s.params hi) (.inr (.inr ⟨i, rfl⟩))

/-- An element stored from a bus word and read back is the word's bits 15:0 (R62). -/
theorem setWidth_setWidth_elem (d : Word) : (d.setWidth 16).setWidth 32 = BitVec.ofNat 32 (d.toNat % 2 ^ 16) :=
  BitVec.eq_of_toNat_eq (by simp)

/-- Settles O10: below IN_CAP the read finds the element just written, at or above it both accesses miss
IN_MEM. -/
theorem inMemWriteThenRead : Obligations.InMemWriteThenRead := by
  intro s d i ts _ hidle hi a
  have htarget : targetOf s.params a = some (.inSlot i) := targetOf_inAddr s.params hi
  by_cases hcap : i < s.params.inCap
  · refine ⟨_, _, step_write_inSlot_below hidle _ d htarget hcap,
      step_host_read { s with inMem := s.inMem.write i (d.setWidth 16) } ts htarget, ?_, ?_, rfl⟩
    · simp [readValue, State.inElem_below, hcap, setWidth_setWidth_elem]
    · rintro j (hj | hj)
      · exact Mem.read_write_other _ _ hj
      · exact absurd hcap (Nat.not_lt.mpr hj)
  · have habove := Nat.not_lt.mp hcap
    refine ⟨_, _, step_write_inSlot_above hidle _ d htarget habove, step_host_read s ts htarget, ?_,
      fun _ _ => rfl, rfl⟩
    simp [readValue, State.inElem_above, habove, hcap]

/-- Settles O11: no write reaches OUT_MEM, and the three reads are the three cases of its slot. -/
theorem outMemWindow : Obligations.OutMemWindow := by
  intro s d i ts _ hi a
  have htarget : targetOf s.params a = some (.outSlot i) := targetOf_outAddr s.params hi
  rw [step_host_read s ts htarget]
  exact ⟨step_host_write s ts d htarget nofun,
    fun hcap => congrArg _ (readTarget_outSlot_above hcap),
    fun hcap hidle => congrArg _ (readTarget_outSlot_idle hcap hidle),
    fun hcap hbusy => congrArg _ (readTarget_outSlot_busy hcap hbusy)⟩

/-! #### What changes IN_MEM -/

/-- A command is a completion of the state with the engine's registers and OUT_MEM replaced, so it leaves
IN_MEM alone (R62). -/
theorem executeCompress_inMem (adp : Adapter) (inNull : Bool) (s : State) :
    (executeCompress adp inNull s).inMem = s.inMem := by
  rcases executeCompress_cases adp inNull s with ⟨r, n, h, _⟩ | ⟨e, h, _⟩ <;> simp [h]

theorem executeDecompress_inMem (adp : Adapter) (inNull : Bool) (s : State) :
    (executeDecompress adp inNull s).inMem = s.inMem := by
  rcases executeDecompress_cases adp inNull s with ⟨r, n, h, _⟩ | ⟨c, h, _⟩ | ⟨e, h, _⟩ <;> simp [h]

theorem startCommand_inMem (s : State) : (startCommand s).inMem = s.inMem := by
  rcases startCommand_cases s with ⟨_, h⟩ | ⟨_, ⟨_, h⟩ | ⟨_, h⟩⟩ <;> simp [h]

/-- No control operation changes IN_MEM, SRESET included (R62, R245). -/
theorem ctrl_write_inMem {s t : State} {d : Word} (h : exec (decodeCtrl d) s = .next t) : t.inMem = s.inMem := by
  rcases ctrl_write_cases h with ⟨_, rfl⟩ | ⟨_, u, hu, ht⟩
  · simp
  · have hmem : u.inMem = s.inMem := by rcases hu with ⟨_, rfl⟩ | ⟨_, rfl⟩ <;> simp
    rcases ht with ⟨_, rfl⟩ | ⟨_, rfl⟩
    · rw [startCommand_inMem, hmem]
    · exact hmem

/-- A host write changes an element of IN_MEM only where it names its slot and is not dropped (R62, R64). -/
theorem writeTarget_inMem_changed {s : State} {x : Target} {d : Word} {i : Nat}
    (h : (writeTarget x d s).inMem.read i ≠ s.inMem.read i) :
    x = .inSlot i ∧ s.status.busy = false ∧ i < s.params.inCap := by
  rcases writeTarget_cases x d s with
    ⟨_, _, hw⟩ | ⟨hidle, ⟨_, hw⟩ | ⟨_, hw⟩ | ⟨k, hx, hk, hw⟩⟩ | hw <;> rw [hw] at h
  · exact absurd rfl h
  · exact absurd rfl h
  · exact absurd rfl h
  · have hik : i = k := by
      by_contra hne
      exact h (Mem.read_write_other _ _ hne)
    subst hik
    exact ⟨hx, hidle, hk⟩
  · exact absurd rfl h

/-- Settles O55, along the cases of a step: commands, CTRL writes and reads keep IN_MEM as a whole. -/
theorem inMemChangesOnlyByHostWrite : Obligations.InMemChangesOnlyByHostWrite := by
  intro s t i h hne
  obtain ⟨ts, _, ⟨_, ht⟩ | ⟨a, d, _, _, ht⟩ | ⟨a, d, x, hts, hx, _, rfl⟩ | ⟨a, x, _, _, rfl⟩ | ⟨hts, rfl⟩⟩ :=
    step_cases h
  · rcases ht with ⟨_, rfl⟩ | ⟨_, ⟨adp, n, rfl | rfl⟩ | rfl⟩
    · exact absurd rfl hne
    · exact absurd (by rw [executeCompress_inMem]) hne
    · exact absurd (by rw [executeDecompress_inMem]) hne
    · exact absurd rfl hne
  · exact absurd (by rw [ctrl_write_inMem ht]) hne
  · obtain ⟨rfl, hidle, hi⟩ := writeTarget_inMem_changed hne
    exact .inl ⟨a, d, ts, hts, hx, hidle, hi⟩
  · exact absurd rfl hne
  · exact .inr ⟨ts, hts⟩

end Sys2Proof.Machine
end

section
/-! ### Decoding and encoding: the fields of a word, and what a decoded word runs (R80 to R85) -/

namespace Sys2Proof

/-! #### The fields of a word -/

theorem getLsbD_bitAt (b : Bool) (k i : Nat) :
    (bitAt b k).getLsbD i = (decide (i < 32) && decide (i = k) && b) := by
  rw [bitAt, BitVec.getLsbD_shiftLeft, BitVec.getLsbD_setWidth, BitVec.getLsbD_ofBool]
  by_cases hik : i = k
  · subst hik; simp
  · by_cases hlt : i < k
    · simp [hik, hlt]
    · have : i - k ≠ 0 := by omega
      simp [hik, this]

theorem toNat_opcOf (w : Word) : (opcOf w).toNat = w.toNat % 16 := by
  simp [opcOf]

theorem opcOf_and_significantBits (w : Word) : opcOf (w &&& significantBits .cmd) = opcOf w := by
  apply BitVec.eq_of_toNat_eq
  rw [toNat_opcOf, toNat_opcOf, significantBits, BitVec.toNat_and]
  have hmask : w.toNat &&& (0x1F#32).toNat = w.toNat % 32 := Nat.and_two_pow_sub_one_eq_mod w.toNat 5
  omega

theorem inNullOf_and_significantBits (w : Word) : inNullOf (w &&& significantBits .cmd) = inNullOf w := by
  simp [inNullOf, significantBits]

theorem decodeCtrl_and_significantBits (w : Word) : decodeCtrl (w &&& significantBits .ctrl) = decodeCtrl w := by
  simp [decodeCtrl, significantBits]

/-- A word decodes as its significant bits do (R80, R85). -/
theorem decode_and_significantBits (f : Format) (w : Word) : decode f (w &&& significantBits f) = decode f w := by
  cases f with
  | cmd => simp only [decode, decodeCmd, opcOf_and_significantBits, inNullOf_and_significantBits]
  | ctrl => simp only [decode, decodeCtrl_and_significantBits]

/-- The significant bits of a CMD word are CMD's two fields (R23, R80). -/
theorem cmd_significantBits (w : Word) : w &&& significantBits .cmd = (Machine.Cmd.ofWord w).word := by
  apply BitVec.eq_of_getLsbD_eq
  intro i hi
  have hmask : (0x1F#32).getLsbD i = (decide (i < 4) || decide (i = 4)) := by
    revert i; decide
  simp only [significantBits, BitVec.getLsbD_and, hmask, Machine.Cmd.word, Machine.Cmd.ofWord, BitVec.getLsbD_or,
    getLsbD_bitAt, BitVec.getLsbD_setWidth, opcOf, BitVec.getLsbD_extractLsb', inNullOf, hi]
  by_cases h4 : i = 4
  · subst h4; simp
  · simp [h4, Bool.and_comm]

/-- The significant bits of a CTRL word are IRQ_EN and the three pulses (R22, R85). -/
theorem ctrl_significantBits (w : Word) :
    w &&& significantBits .ctrl =
      bitAt (w.getLsbD 0) 0 ||| bitAt (w.getLsbD 1) 1 ||| bitAt (w.getLsbD 2) 2 ||| bitAt (w.getLsbD 8) 8 := by
  apply BitVec.eq_of_getLsbD_eq
  intro i hi
  have hmask : (0x107#32).getLsbD i = decide (i = 0 ∨ i = 1 ∨ i = 2 ∨ i = 8) := by
    revert i; decide
  simp only [significantBits, BitVec.getLsbD_and, hmask, BitVec.getLsbD_or, getLsbD_bitAt, hi]
  by_cases hsig : i = 0 ∨ i = 1 ∨ i = 2 ∨ i = 8
  · rcases hsig with rfl | rfl | rfl | rfl <;> simp
  · obtain ⟨h0, h1, h2, h8⟩ : i ≠ 0 ∧ i ≠ 1 ∧ i ≠ 2 ∧ i ≠ 8 := by omega
    simp [h0, h1, h2, h8]

/-! #### Decoding inverts encoding -/

theorem decode_encode (i : Instr) : decode (formatOf i) (encode i) = .ok i := by
  cases i with
  | cmpB64 n | decB64 n | cmpU16 n | decU16 n | cmpUri n => cases n <;> rfl
  | decUri n | cmpU8a n | decU8a n | cmpStr n | decStr n => cases n <;> rfl
  | start e c => cases e <;> cases c <;> rfl
  | clear e | irqcfg e => cases e <;> rfl
  | sreset e st c => cases e <;> cases st <;> cases c <;> rfl

/-- A CMD word that decodes has its instruction's code in OPC (R81). -/
theorem encode_of_decodeCmd {w : Word} {i : Instr} (h : decodeCmd w = .ok i) :
    formatOf i = .cmd ∧ encode i = w &&& significantBits .cmd := by
  rw [cmd_significantBits, Machine.Cmd.word_eq_ofNat, Machine.Cmd.ofWord]
  unfold decodeCmd at h
  split at h
  case h_11 => exact nomatch h
  all_goals
    next hopc =>
      cases h
      simp only [hopc]
      cases inNullOf w <;> exact ⟨rfl, rfl⟩

/-- A CTRL word has its instruction's pulses, the ones before it in R247's order 0. -/
theorem encode_decodeCtrl (w : Word) :
    formatOf (decodeCtrl w) = .ctrl ∧ encode (decodeCtrl w) = w &&& significantBits .ctrl := by
  rw [ctrl_significantBits, decodeCtrl]
  generalize w.getLsbD 0 = start, w.getLsbD 1 = clear, w.getLsbD 2 = sreset, w.getLsbD 8 = irqEn
  revert start clear sreset irqEn
  decide

theorem encode_of_decode {f : Format} {w : Word} {i : Instr} (h : decode f w = .ok i) :
    formatOf i = f ∧ encode i = w &&& significantBits f := by
  cases f with
  | cmd => exact encode_of_decodeCmd h
  | ctrl => cases h; exact encode_decodeCtrl w

/-- Settles O1: a word decodes as its significant bits, and those are the word of what it decodes to. -/
theorem decodeEncodeAgree : Obligations.DecodeEncodeAgree := by
  refine ⟨decode_encode, fun f w i => ⟨encode_of_decode, ?_⟩⟩
  rintro ⟨rfl, hw⟩
  rw [← decode_and_significantBits, ← hw]
  exact decode_encode i

/-! #### Reserved opcodes, and words from the tables -/

/-- A CMD word is rejected for a reserved OPC alone (R84). -/
theorem decodeCmd_eq_error {w : Word} : (∃ e, decodeCmd w = .error e) ↔ 0xA ≤ (opcOf w).toNat := by
  unfold decodeCmd
  split
  case h_11 h0 h1 h2 h3 h4 h5 h6 h7 h8 h9 =>
    refine ⟨fun _ => ?_, fun _ => ⟨_, rfl⟩⟩
    refine Nat.not_lt.mp fun hlt => ?_
    interval_cases (opcOf w).toNat <;> contradiction
  all_goals
    next hopc =>
      rw [hopc]
      exact ⟨fun ⟨_, h⟩ => (nomatch h), fun h => absurd h (by decide)⟩

/-- Settles O2: OPC is the word's value modulo 16, and the CTRL decoder is total. -/
theorem reservedOpcodesRejected : Obligations.ReservedOpcodesRejected :=
  ⟨fun w => toNat_opcOf w ▸ decodeCmd_eq_error, fun w => ⟨decodeCtrl w, rfl⟩⟩

/-- Settles O3: the decoder computes on each word. -/
theorem specWordsDecode : Obligations.SpecWordsDecode :=
  ⟨rfl, rfl, rfl, rfl, rfl, rfl, rfl, rfl⟩

end Sys2Proof

namespace Sys2Proof.Machine

/-! #### What a step runs -/

theorem engineTurn_run {s : State} {i : Instr} (hrun : s.eng = .run) (hi : decode .cmd s.latch.word = .ok i) :
    engineTurn s = exec i s := by
  simp only [engineTurn, hrun, hi]

theorem step_host_ctrl_write (s : State) (ts : List Turn) {a : Word} (d : Word)
    (h : targetOf s.params a = some (.reg .ctrl)) :
    step { s with turns := .host (.write a d) :: ts } = exec (decodeCtrl d) { s with turns := ts } := by
  simp only [step, hostTurn, h]

/-- Settles O4, one case per kind of turn. -/
theorem stepRunsDecodedInstruction : Obligations.StepRunsDecodedInstruction := by
  intro s i ts
  refine ⟨fun hrun hi ht => ?_, fun hrun hi ht => ?_, fun a d ht ha hi => ?_⟩
  · rw [step, ht]; exact engineTurn_run hrun hi
  · rw [step, ht]; exact engineTurn_run hrun hi
  · cases hi
    rw [← step_host_ctrl_write s ts d ha, ← ht]

/-- CMD as a word sets it decodes as the word does (R23, R80). -/
theorem decode_word_ofWord (w : Word) : decode .cmd (Cmd.ofWord w).word = decode .cmd w := by
  rw [← decode_and_significantBits .cmd w, cmd_significantBits]

theorem step_placeCtrl (w : Word) (s : State) : step (placeCtrl w s) = exec (decodeCtrl w) s :=
  step_host_ctrl_write s s.turns w (targetOf_regAddr s.params .ctrl)

theorem step_placeCmd {w : Word} {i : Instr} (s : State) (hi : decode .cmd w = .ok i) :
    step (placeCmd w s) = exec i (accept { s with cmd := Cmd.ofWord w }) :=
  engineTurn_run (s := accept { s with cmd := Cmd.ofWord w }) rfl ((decode_word_ofWord w).trans hi)

theorem decodeTableWord_eq_some {nbits w : Nat} {i : Instr} (h : decodeTableWord nbits w = some i) :
    decode (tableFormat nbits w) (BitVec.ofNat 32 w) = .ok i := by
  unfold decodeTableWord at h
  split at h
  · next hd => cases h; exact hd
  · exact nomatch h

/-- Settles O5: the format the row's width tells is the format of the instruction it decodes to. -/
theorem placedWordRunsNext : Obligations.PlacedWordRunsNext := by
  intro s nbits w i _ h
  have hd := decodeTableWord_eq_some h
  obtain ⟨hf, _⟩ := encode_of_decode hd
  unfold State.withFetchWord
  rw [hf]
  cases hfmt : tableFormat nbits w with
  | cmd => rw [hfmt] at hd; exact step_placeCmd s hd
  | ctrl => rw [hfmt] at hd; cases hd; exact step_placeCtrl _ s

/-! #### START with a reserved OPC -/

theorem complete_endsError (e : Err) (s : State) : endsError (complete (.error e) s) e :=
  ⟨⟨rfl, rfl, rfl, rfl, rfl, rfl⟩, rfl⟩

theorem startCommand_illegal {s : State} (hidle : s.status.busy = false) (hopc : 0xA ≤ s.cmd.opc.toNat) :
    startCommand s = complete (.error .illegalCmd) (accept s) := by
  rcases startCommand_cases s with ⟨hbusy, _⟩ | ⟨_, ⟨_, h⟩ | ⟨hlt, _⟩⟩
  · rw [hidle] at hbusy; exact nomatch hbusy
  · exact h
  · omega

/-- Settles O47: an idle block's START accepts the command and completes it with the error; the CLEAR of the
same word changes only STATUS before that. -/
theorem startRefusals : Obligations.StartRefusals := by
  intro s irqEn clear hidle hopc
  refine ⟨_, rfl, ?_⟩
  cases clear with
  | false =>
    rw [if_neg Bool.false_ne_true, startCommand_illegal (by exact hidle) (by exact hopc)]
    exact ⟨complete_endsError _ _, by simp⟩
  | true =>
    rw [if_pos rfl, startCommand_illegal (by simpa using hidle) (by exact hopc)]
    exact ⟨complete_endsError _ _, by simp⟩

end Sys2Proof.Machine
end

section
/-! ### What the Bit Writer has put out, and the result it becomes (R102, R106, R108, R220) -/

namespace Sys2Proof.Machine

/-! #### Elements put out -/

/-- The elements put out so far are `vs`, and OUT_MEM lists them from index 0 (R63). -/
def Run.Holds (r : Run) (vs : Str) : Prop :=
  r.eng.oLen = vs.length ∧ ∀ k (h : k < vs.length), cellsFind r.out.cells k = some vs[k]

theorem putOut_holds {p : Params} {vs : Str} {r : Run} (h : r.Holds vs) (v : Elem) (hc : vs.length < p.outCap) :
    ∃ r', putOut p v r = .ok r' ∧ r'.Holds (vs ++ [v]) ∧ r'.eng.w = r.eng.w := by
  obtain ⟨hlen, hcells⟩ := h
  refine ⟨_, putOut_eq_ok.mpr ⟨hlen ▸ hc, rfl⟩, ⟨by simp [hlen], fun k hk => ?_⟩, rfl⟩
  rw [List.length_append, List.length_singleton] at hk
  rw [List.getElem_append]
  by_cases hkv : k < vs.length
  · rw [dif_pos hkv, Mem.write, cellsFind_cellsWrite_other _ _ (by omega)]
    exact hcells k hkv
  · obtain rfl : k = vs.length := by omega
    rw [dif_neg hkv, Mem.write, hlen, cellsFind_cellsWrite_same]
    simp

theorem putOuts_holds {p : Params} {vs : Str} {r : Run} (h : r.Holds vs) (ws : Str)
    (hc : vs.length + ws.length ≤ p.outCap) :
    ∃ r', putOuts p ws r = .ok r' ∧ r'.Holds (vs ++ ws) ∧ r'.eng.w = r.eng.w := by
  induction ws generalizing r vs with
  | nil => exact ⟨r, rfl, by rwa [List.append_nil], rfl⟩
  | cons v ws ih =>
    rw [List.length_cons] at hc
    obtain ⟨r₁, h1, hv, hw1⟩ := putOut_holds h v (p := p) (by omega)
    obtain ⟨r₂, h2, hvs, hw2⟩ := ih hv (by rw [List.length_append, List.length_singleton]; omega)
    exact ⟨r₂, bind_eq_ok.mpr ⟨r₁, h1, h2⟩, by rwa [List.append_assoc] at hvs, hw2.trans hw1⟩

theorem complete_endsString {r : Run} {v : Str} (h : r.Holds v) (hv : v.length < 2 ^ 32) (s : State) :
    endsString (complete (.str r.eng.oLen) { s with engine := r.eng, outMem := r.out }) v := by
  obtain ⟨hlen, hcells⟩ := h
  have hout : (BitVec.ofNat 32 r.eng.oLen).toNat = v.length := by
    rw [hlen, BitVec.toNat_ofNat, Nat.mod_eq_of_lt hv]
  refine ⟨⟨rfl, rfl, rfl, rfl, rfl, rfl⟩, hout, ?_⟩
  simp only [State.resultView, complete_outLen, complete_outMem, Result.outLen, hout]
  apply List.ext_getElem
  · simp
  · intro k hk hk'
    rw [List.getElem_map, List.getElem_range,
      Mem.read_keepBelow_below _ _ (by omega) (by rw [hcells k hk']; rfl), Mem.read, hcells k hk']
    rfl

theorem complete_commandFrame (res : Result) (s : State) (r : Run) :
    commandFrame s (complete res { s with engine := r.eng, outMem := r.out }) := by
  simp [commandFrame]

/-! #### Bits put out -/

/-- Bits shifted into a unit, the first highest (R102). -/
def packBits (bs : List Bool) : BitVec 16 :=
  bs.foldl (fun acc b => (acc <<< 1) ||| (BitVec.ofBool b).setWidth 16) 0#16

theorem packBits_append_singleton (bs : List Bool) (b : Bool) :
    packBits (bs ++ [b]) = (packBits bs <<< 1) ||| (BitVec.ofBool b).setWidth 16 := by
  simp [packBits]

/-- The last of the bits is bit 0 of the unit. -/
theorem getLsbD_packBits (bs : List Bool) {k : Nat} (hk : k < 16) :
    (packBits bs).getLsbD k = bs.reverse.getD k false := by
  induction bs using List.reverseRecOn generalizing k with
  | nil => simp [packBits]
  | append_singleton bs b ih =>
    rw [packBits_append_singleton, BitVec.getLsbD_or, BitVec.getLsbD_shiftLeft, BitVec.getLsbD_setWidth,
      BitVec.getLsbD_ofBool]
    cases k with
    | zero => simp
    | succ k => simp [ih (show k < 16 by omega), hk]

theorem getLsbD_packBits_unit {bs : List Bool} (hlen : bs.length = 16) {j : Nat} (hj : j < 16) :
    (packBits bs).getLsbD (15 - j) = bs.getD j false := by
  rw [getLsbD_packBits _ (by omega), List.getD_eq_getElem _ _ (by rw [List.length_reverse]; omega),
    List.getD_eq_getElem _ _ (by omega), List.getElem_reverse]
  congr 1
  omega

/-- The last `n` bits are the value of the unit's low `n` bits. -/
theorem toNat_packBits_append_mod (as : List Bool) {bs : List Bool} (h : bs.length ≤ 16) :
    (packBits (as ++ bs)).toNat % 2 ^ bs.length = (packBits bs).toNat := by
  apply Nat.eq_of_testBit_eq
  intro k
  rw [Nat.testBit_mod_two_pow, BitVec.testBit_toNat, BitVec.testBit_toNat]
  by_cases hk : k < bs.length
  · rw [getLsbD_packBits _ (by omega), getLsbD_packBits _ (by omega), List.reverse_append,
      List.getD_append _ _ _ _ (by rwa [List.length_reverse]), decide_eq_true hk, Bool.true_and]
  · rw [decide_eq_false hk, Bool.false_and]
    by_cases h16 : k < 16
    · rw [getLsbD_packBits _ h16, List.getD_eq_default _ _ (by rw [List.length_reverse]; omega)]
    · exact (BitVec.getLsbD_of_ge _ _ (by omega)).symm

theorem fieldBits_append_getD {v n k : Nat} (hk : k < n) (bs : List Bool) :
    (fieldBits v n ++ bs).getD k false = v.testBit k := by
  have hlen : k < (fieldBits v n).length := by rwa [fieldBits_length]
  rw [List.getD_append _ _ _ _ hlen, List.getD_eq_getElem _ _ hlen, fieldBits_getElem]

/-- The Bit Writer of an adapter has put out the units `us`, as their elements, and holds the bits `bs` of the
next unit. -/
structure Run.Packed (adp : Adapter) (us : List (BitVec 16)) (bs : List Bool) (r : Run) : Prop where
  bpu : r.eng.w.bpu = adp.bpu
  acc : r.eng.w.acc = packBits bs
  cnt : r.eng.w.cnt = bs.length
  lt : bs.length < adp.bpu.width
  out : r.eng.w.out = us
  holds : r.Holds (us.flatMap (encodeUnit adp))

theorem writerInit_packed (adp : Adapter) (r : Run) : (writerInit adp.bpu r).Packed adp [] [] :=
  ⟨rfl, rfl, rfl, by cases adp <;> decide, rfl, ⟨rfl, fun _ h => nomatch h⟩⟩

theorem Run.Packed.setC {adp : Adapter} {us : List (BitVec 16)} {bs : List Bool} {r : Run} (h : r.Packed adp us bs)
    (c : Compressor) : (r.setC c).Packed adp us bs :=
  ⟨h.bpu, h.acc, h.cnt, h.lt, h.out, h.holds⟩

/-- A run with its Bit Writer registers replaced. -/
def Run.setW (r : Run) (w : Writer) : Run := { r with eng := { r.eng with w := w } }

/-- A bit that does not fill the unit joins the pending ones. -/
theorem emitBit_packed {adp : Adapter} {us : List (BitVec 16)} {bs : List Bool} {r : Run} (h : r.Packed adp us bs)
    (p : Params) (b : Bool) (hlt : bs.length + 1 < adp.bpu.width) :
    ∃ r', emitBit p adp b r = .ok r' ∧ r'.Packed adp us (bs ++ [b]) := by
  have hcnt : ¬r.eng.w.cnt = r.eng.w.bpu.width - 1 := by rw [h.cnt, h.bpu]; omega
  refine ⟨r.setW { r.eng.w with acc := packBits (bs ++ [b]), cnt := (bs ++ [b]).length }, ?_,
    h.bpu, rfl, rfl, by simpa using hlt, h.out, h.holds⟩
  rw [emitBit, if_neg hcnt, packBits_append_singleton, ← h.acc, List.length_append, ← h.cnt]
  rfl

/-- The bit that fills the unit puts it out (R102, R108). -/
theorem emitBit_fills {adp : Adapter} {us : List (BitVec 16)} {bs : List Bool} {r : Run} (h : r.Packed adp us bs)
    {p : Params} (b : Bool) (hfull : bs.length + 1 = adp.bpu.width)
    (hc : ((us ++ [packBits (bs ++ [b])]).flatMap (encodeUnit adp)).length ≤ p.outCap) :
    ∃ r', emitBit p adp b r = .ok r' ∧ r'.Packed adp (us ++ [packBits (bs ++ [b])]) [] := by
  have hcnt : r.eng.w.cnt = r.eng.w.bpu.width - 1 := by rw [h.cnt, h.bpu]; omega
  rw [List.flatMap_append, List.flatMap_singleton, List.length_append] at hc
  obtain ⟨r₁, h1, hvs, hw⟩ := putOuts_holds h.holds _ hc
  refine ⟨r₁.setW { bpu := adp.bpu, acc := 0#16, cnt := 0, out := us ++ [packBits (bs ++ [b])] }, ?_,
    rfl, rfl, rfl, by simp only [List.length_nil]; omega, rfl, ?_⟩
  · rw [emitBit, if_pos hcnt, h.acc, ← packBits_append_singleton, putUnit, h1, ← h.bpu, ← h.out, ← hw]
    rfl
  · rw [List.flatMap_append, List.flatMap_singleton]
    exact hvs

/-- Bits that do not fill the unit join the pending ones. -/
theorem emitBits_packed {adp : Adapter} {us : List (BitVec 16)} {bs : List Bool} {r : Run} (h : r.Packed adp us bs)
    (p : Params) (cs : List Bool) (hlt : bs.length + cs.length < adp.bpu.width) :
    ∃ r', emitBits p adp cs r = .ok r' ∧ r'.Packed adp us (bs ++ cs) := by
  induction cs generalizing r bs with
  | nil => exact ⟨r, rfl, by rwa [List.append_nil]⟩
  | cons c cs ih =>
    rw [List.length_cons] at hlt
    obtain ⟨r₁, h1, hp1⟩ := emitBit_packed h p c (by omega)
    obtain ⟨r₂, h2, hp2⟩ := ih hp1 (by rw [List.length_append, List.length_singleton]; omega)
    exact ⟨r₂, bind_eq_ok.mpr ⟨r₁, h1, h2⟩, by rwa [List.append_assoc] at hp2⟩

/-- Bits that fill the unit put it out. -/
theorem emitBits_fills {adp : Adapter} {us : List (BitVec 16)} {bs : List Bool} {r : Run} (h : r.Packed adp us bs)
    {p : Params} {cs : List Bool} (hcs : cs ≠ []) (hfull : bs.length + cs.length = adp.bpu.width)
    (hc : ((us ++ [packBits (bs ++ cs)]).flatMap (encodeUnit adp)).length ≤ p.outCap) :
    ∃ r', emitBits p adp cs r = .ok r' ∧ r'.Packed adp (us ++ [packBits (bs ++ cs)]) [] := by
  obtain ⟨ds, d, rfl⟩ := List.eq_nil_or_concat cs |>.resolve_left hcs
  rw [List.concat_eq_append, List.length_append, List.length_singleton] at hfull
  rw [List.concat_eq_append, ← List.append_assoc] at hc
  rw [List.concat_eq_append, ← List.append_assoc]
  obtain ⟨r₁, h1, hp1⟩ := emitBits_packed h p ds (by omega)
  obtain ⟨r₂, h2, hp2⟩ := emitBit_fills hp1 d (by rw [List.length_append]; omega) hc
  exact ⟨r₂, by rw [emitBits_append]; exact bind_eq_ok.mpr ⟨r₁, h1, bind_eq_ok.mpr ⟨r₂, h2, rfl⟩⟩, hp2⟩

/-- Pending bits padded with zeros to a unit (R106). -/
def padUnit (width : Nat) (bs : List Bool) : BitVec 16 := packBits (bs ++ List.replicate (width - bs.length) false)

theorem padUnit_append_false {width : Nat} {bs : List Bool} (h : bs.length < width) :
    padUnit width (bs ++ [false]) = padUnit width bs := by
  have hzeros : width - bs.length = width - (bs ++ [false]).length + 1 := by
    rw [List.length_append, List.length_singleton]; omega
  rw [padUnit, padUnit, hzeros, List.replicate_succ, List.append_assoc, List.singleton_append]

theorem padUnit_eq_packBits {width : Nat} {bs : List Bool} (h : bs.length = width) :
    padUnit width bs = packBits bs := by
  rw [padUnit, h, Nat.sub_self, List.replicate_zero, List.append_nil]

theorem flushLoop_packed {adp : Adapter} {us : List (BitVec 16)} {bs : List Bool} {r : Run} (h : r.Packed adp us bs)
    {p : Params} {n : Nat} (hn : adp.bpu.width ≤ bs.length + n)
    (hc : ((us ++ [padUnit adp.bpu.width bs]).flatMap (encodeUnit adp)).length ≤ p.outCap) :
    ∃ r', flushLoop p adp n r = .ok r' ∧ r'.Packed adp (us ++ [padUnit adp.bpu.width bs]) [] := by
  have hlt := h.lt
  rw [← padUnit_append_false hlt] at hc ⊢
  induction n generalizing bs r with
  | zero => omega
  | succ n ih =>
    have hlast : r.eng.w.cnt = r.eng.w.bpu.width - 1 ↔ bs.length + 1 = adp.bpu.width := by
      rw [h.cnt, h.bpu]; omega
    rw [flushLoop, decide_eq_decide.mpr hlast]
    by_cases hfull : bs.length + 1 = adp.bpu.width
    · rw [padUnit_eq_packBits (by simpa using hfull)] at hc ⊢
      obtain ⟨r₁, h1, hp1⟩ := emitBit_fills h false hfull hc
      exact ⟨r₁, bind_eq_ok.mpr ⟨r₁, h1, by rw [decide_eq_true hfull]; rfl⟩, hp1⟩
    · obtain ⟨r₁, h1, hp1⟩ := emitBit_packed h p false (by omega)
      have hlen : (bs ++ [false]).length = bs.length + 1 := by simp
      rw [← padUnit_append_false (by omega)] at hc ⊢
      obtain ⟨r₂, h2, hp2⟩ := ih hp1 (by omega) hc hp1.lt
      exact ⟨r₂, bind_eq_ok.mpr ⟨r₁, h1, by rw [decide_eq_false hfull]; exact h2⟩, hp2⟩

/-- The flush of pending bits puts their unit out (R106). -/
theorem flush_packed {adp : Adapter} {us : List (BitVec 16)} {bs : List Bool} {r : Run} (h : r.Packed adp us bs)
    {p : Params} (hbs : bs ≠ [])
    (hc : ((us ++ [padUnit adp.bpu.width bs]).flatMap (encodeUnit adp)).length ≤ p.outCap) :
    ∃ r', flush p adp r = .ok r' ∧ r'.Packed adp (us ++ [padUnit adp.bpu.width bs]) [] := by
  have hcnt : r.eng.w.cnt ≠ 0 := by rw [h.cnt]; exact fun h0 => hbs (List.length_eq_zero_iff.mp h0)
  rw [flush, if_neg (fun h0 => hcnt h0.1), h.bpu]
  exact flushLoop_packed h (Nat.le_add_left _ _) hc

end Sys2Proof.Machine
end

section
/-! ### CMP_STR of one character (R144, R149, R152) -/

namespace Sys2Proof.Machine

theorem hasInput.input {s : State} {v : Str} (h : hasInput s v) : s.input = v := by
  obtain ⟨hlen, _, helem⟩ := h
  apply List.ext_getElem
  · simp [State.input, hlen]
  · intro k hk hk'
    simpa [State.input] using helem k hk'

/-- A compress command whose run puts out `w` ends with the result `w`. -/
theorem exec_compressOf {s : State} {v w : Str} {r : Run} (adp : Adapter) (hin : hasInput s v)
    (hrun : runCompress s.params adp v s.run = .ok r) (hw : r.Holds w) (hlen : w.length < 2 ^ 32) :
    ∃ t, exec (compressOf adp false) s = .next t ∧ commandFrame s t ∧ endsString t w := by
  have hexec : exec (compressOf adp false) s = .next (executeCompress adp false s) := by cases adp <;> rfl
  have hfits : ¬s.params.inCap < s.latch.len.toNat := by
    obtain ⟨hlen, hcap, _⟩ := hin
    omega
  have hend : executeCompress adp false s =
      complete (.str r.eng.oLen) { s with engine := r.eng, outMem := r.out } := by
    rw [executeCompress, hin.input, hrun, execute, if_neg Bool.false_ne_true, if_neg hfits, finishRun]
  exact ⟨_, hexec, hend ▸ complete_commandFrame _ s r, hend ▸ complete_endsString hw hlen s⟩

@[simp] theorem bpu_width_plain : Adapter.plain.bpu.width = 16 := rfl

/-- The Compress Engine's registers after the one character `x`: it is registered, pending and the phrase. -/
def Compressor.afterOne (x : Elem) : Compressor :=
  { dict := [([x], 3)], pend := [[x]], phrase := [x], nb := 2, enl := 2, next := 4, pos := 1 }

theorem phraseToken_afterOne (x : Elem) : phraseToken (.afterOne x) = literalOf x :=
  if_pos (List.mem_singleton_self [x])

/-- Two countdowns from (2, 2) take the code width to 3 (R143, R144). -/
theorem nb_emitted_afterOne (x : Elem) : (Compressor.afterOne x).emitted.nb = 3 :=
  congrArg Compressor.nb (if_pos (List.mem_singleton_self [x]))

theorem compressLoop_one {p : Params} (adp : Adapter) (x : Elem) (r : Run) (hcap : 4 ≤ p.dictCap) :
    compressLoop p adp [x] (compressInit adp.bpu r) = .ok ((writerInit adp.bpu r).setC (.afterOne x)) := by
  have hreg : register p x (compressInit adp.bpu r).eng.c = .ok ((compressInit adp.bpu r).eng.c.registered x) :=
    register_eq_ok.mpr (.inr ⟨rfl, hcap, rfl⟩)
  have hcode : codeOf ((compressInit adp.bpu r).eng.c.registered x).dict [x] = some 3 := if_pos rfl
  have hext : extendOrEmit p adp x
      ((compressInit adp.bpu r).setC ((compressInit adp.bpu r).eng.c.registered x)) =
      .ok ((writerInit adp.bpu r).setC { Compressor.afterOne x with pos := 0 }) := by
    simp only [extendOrEmit, Run.setC_c]
    split
    · rfl
    · next hnone => exact nomatch hcode.symm.trans hnone
  exact bind_eq_ok.mpr ⟨_, bind_eq_ok.mpr ⟨_, hreg, bind_eq_ok.mpr ⟨_, hext, rfl⟩⟩, rfl⟩

/-- What is written for one character: its literal at width 2, and the End marker at width 3 (R88, R152). -/
theorem runCompress_one {p : Params} {r r₁ r₂ r₃ : Run} (x : Elem) (hcap : 4 ≤ p.dictCap)
    (h1 : emitBits p .plain (tokenBits 2 (literalOf x)) ((writerInit .sixteen r).setC (.afterOne x)) = .ok r₁)
    (h2 : emitBits p .plain (tokenBits 3 .endOfStream) (r₁.setC (Compressor.afterOne x).emitted) = .ok r₂)
    (h3 : flush p .plain r₂ = .ok r₃) :
    runCompress p .plain [x] r = .ok r₃ := by
  have hlit : emitToken p .plain 2 (phraseToken (.afterOne x))
      ((writerInit .sixteen r).setC (.afterOne x)) = .ok r₁ := by
    rw [phraseToken_afterOne, emitToken_eq_emitBits]; exact h1
  have hend : emitToken p .plain (Compressor.afterOne x).emitted.nb .endOfStream
      (r₁.setC (Compressor.afterOne x).emitted) = .ok r₂ := by
    rw [nb_emitted_afterOne, emitToken_eq_emitBits]; exact h2
  have hlast : emitLastPhrase p .plain ((writerInit .sixteen r).setC (.afterOne x)) =
      .ok (r₁.setC (Compressor.afterOne x).emitted) :=
    (if_pos (List.cons_ne_nil x [])).trans (bind_eq_ok.mpr ⟨r₁, hlit, rfl⟩)
  have hcore : compressCore p .plain [x] r = .ok r₃ :=
    bind_eq_ok.mpr ⟨_, compressLoop_one .plain x r hcap, bind_eq_ok.mpr ⟨_, hlast, bind_eq_ok.mpr ⟨r₂, hend, h3⟩⟩⟩
  exact bind_eq_ok.mpr ⟨r₃, hcore, rfl⟩

/-- Below 256 the stream is 13 bits of one unit: code 0, the character's 8 bits, and code 2. -/
theorem runCompress_literal8 {p : Params} {x : Elem} (hx : x.toNat < 256) (hcap : 4 ≤ p.dictCap)
    (hout : 1 ≤ p.outCap) (r : Run) :
    ∃ r', runCompress p .plain [x] r = .ok r' ∧ r'.Holds [packBits
      ([false, false] ++ fieldBits x.toNat 8 ++ ([false, true, false] ++ List.replicate 3 false))] := by
  have hlit : tokenBits 2 (literalOf x) = [false, false] ++ fieldBits x.toNat 8 := by
    rw [literalOf, if_pos hx]
    rfl
  have hpad : padUnit 16 ([false, false] ++ fieldBits x.toNat 8 ++ [false, true, false]) =
      packBits ([false, false] ++ fieldBits x.toNat 8 ++ ([false, true, false] ++ List.replicate 3 false)) := by
    simp [padUnit]
  obtain ⟨r₁, h1, hp1⟩ := emitBits_packed ((writerInit_packed .plain r).setC (.afterOne x)) p
    ([false, false] ++ fieldBits x.toNat 8) (by simp)
  obtain ⟨r₂, h2, hp2⟩ := emitBits_packed (hp1.setC (Compressor.afterOne x).emitted) p
    [false, true, false] (by simp)
  obtain ⟨r₃, h3, hp3⟩ := flush_packed hp2 (p := p) (by simp) (by simpa [encodeUnit] using hout)
  exact ⟨r₃, runCompress_one x hcap (hlit ▸ h1) h2 h3, hpad ▸ hp3.holds⟩

/-- From 256 on the stream is 21 bits of two units: code 1, the character's 16 bits, and code 2. -/
theorem runCompress_literal16 {p : Params} {x : Elem} (hx : 256 ≤ x.toNat) (hcap : 4 ≤ p.dictCap)
    (hout : 2 ≤ p.outCap) (r : Run) :
    ∃ r', runCompress p .plain [x] r = .ok r' ∧ r'.Holds [packBits ([true, false] ++ fieldBits x.toNat 14),
      packBits ([x.getLsbD 14, x.getLsbD 15] ++ ([false, true, false] ++ List.replicate 11 false))] := by
  have hlit : tokenBits 2 (literalOf x) =
      ([true, false] ++ fieldBits x.toNat 14) ++ [x.getLsbD 14, x.getLsbD 15] := by
    rw [literalOf, if_neg (Nat.not_lt.mpr hx)]
    rfl
  obtain ⟨r₀, h0, hp0⟩ := emitBits_fills ((writerInit_packed .plain r).setC (.afterOne x)) (p := p)
    (cs := [true, false] ++ fieldBits x.toNat 14) (by simp) (by simp)
    (by simp [encodeUnit]; omega)
  obtain ⟨r₁, h1, hp1⟩ := emitBits_packed hp0 p [x.getLsbD 14, x.getLsbD 15] (by simp)
  obtain ⟨r₂, h2, hp2⟩ := emitBits_packed (hp1.setC (Compressor.afterOne x).emitted) p
    [false, true, false] (by simp)
  obtain ⟨r₃, h3, hp3⟩ := flush_packed hp2 (p := p) (by simp) (by simpa [encodeUnit] using hout)
  refine ⟨r₃, runCompress_one x hcap ?_ h2 h3, hp3.holds⟩
  rw [hlit, emitBits_append]
  exact bind_eq_ok.mpr ⟨r₀, h0, h1⟩

/-- Settles O35: the units put out are the literal's and the End marker's bits, first bit highest. -/
theorem compressOneCharacter : Obligations.CompressOneCharacter := by
  intro s x hin hdict hout
  rcases Nat.lt_or_ge x.toNat 256 with hx | hx
  · obtain ⟨r, hrun, hr⟩ := runCompress_literal8 hx hdict (by omega) s.run
    obtain ⟨t, ht, hframe, hend⟩ := exec_compressOf .plain hin hrun hr (by simp)
    refine ⟨t, ht, hframe, fun _ => ⟨_, hend, ?_, ?_, fun k hk => ?_, ?_⟩, fun h => absurd hx (Nat.not_lt.mpr h)⟩
    · exact getLsbD_packBits_unit rfl (show 0 < 16 by decide)
    · exact getLsbD_packBits_unit rfl (show 1 < 16 by decide)
    · rw [show 13 - k = 15 - (k + 2) by omega]
      exact (getLsbD_packBits_unit rfl (by omega)).trans (fieldBits_append_getD hk _)
    · exact toNat_packBits_append_mod _ (bs := [false, true, false] ++ List.replicate 3 false) (by decide)
  · obtain ⟨r, hrun, hr⟩ := runCompress_literal16 hx hdict hout s.run
    obtain ⟨t, ht, hframe, hend⟩ := exec_compressOf .plain hin hrun hr (by simp)
    refine ⟨t, ht, hframe, fun h => absurd h (Nat.not_lt.mpr hx),
      fun _ => ⟨_, _, hend, ?_, ?_, fun k hk => ?_, ?_, ?_, ?_⟩⟩
    · exact getLsbD_packBits_unit rfl (show 0 < 16 by decide)
    · exact getLsbD_packBits_unit rfl (show 1 < 16 by decide)
    · rw [show 13 - k = 15 - (k + 2) by omega]
      exact (getLsbD_packBits_unit rfl (by omega)).trans (fieldBits_append_getD hk [])
    · exact getLsbD_packBits_unit rfl (show 0 < 16 by decide)
    · exact getLsbD_packBits_unit rfl (show 1 < 16 by decide)
    · exact toNat_packBits_append_mod _ (bs := [false, true, false] ++ List.replicate 11 false) (by decide)

end Sys2Proof.Machine
end

section
/-! ### The alphabets: table entries, the reverse lookup, and decode after encode (R109 to R111, R129, R131) -/

namespace Sys2Proof.Machine

/-! #### The tables -/

theorem alphabet_length {t : List Elem} (ht : t ∈ [b64Tab, uriTab]) : t.length = 65 := by
  simp only [List.mem_cons, List.not_mem_nil, or_false] at ht
  rcases ht with rfl | rfl <;> rfl

/-- No character occurs twice in an alphabet. -/
theorem alphabet_nodup {t : List Elem} (ht : t ∈ [b64Tab, uriTab]) : t.Nodup := by
  simp only [List.mem_cons, List.not_mem_nil, or_false] at ht
  rcases ht with rfl | rfl <;> decide

/-- The characters of the unit values lie between `+` and `z` (R109). -/
theorem alphabet_range {t : List Elem} (ht : t ∈ [b64Tab, uriTab]) {k : Nat} (hk : k < 64) :
    0x2B ≤ (tabAt t k).toNat ∧ (tabAt t k).toNat ≤ 0x7A := by
  simp only [List.mem_cons, List.not_mem_nil, or_false] at ht
  revert k
  rcases ht with rfl | rfl <;> decide

/-- The reverse lookup undoes the lookup (R131). -/
theorem rev_tabAt {t : List Elem} (ht : t ∈ [b64Tab, uriTab]) {k : Nat} (hk : k ≤ 64) : rev t (tabAt t k) = k := by
  have hlt : k < t.length := by rw [alphabet_length ht]; omega
  rw [tabAt, List.getD_eq_getElem _ _ hlt, rev, if_pos (List.getElem_mem hlt),
    (alphabet_nodup ht).idxOf_getElem]

/-- The padding character stands for no unit value (R110, R111). -/
theorem tabAt_ne_padding {t : List Elem} (ht : t ∈ [b64Tab, uriTab]) {k : Nat} (hk : k < 64) :
    tabAt t k ≠ tabAt t 64 := by
  intro h
  have := congrArg (rev t) h
  rw [rev_tabAt ht (by omega), rev_tabAt ht (by omega)] at this
  omega

theorem b64Tab_mem : b64Tab ∈ [b64Tab, uriTab] := List.mem_cons_self
theorem uriTab_mem : uriTab ∈ [b64Tab, uriTab] := List.mem_cons_of_mem _ List.mem_cons_self

/-- Settles O19: the entries are read off the tables, and the padding characters by `rev_tabAt` at index 64. -/
theorem alphabetTables : Obligations.AlphabetTables := by
  refine ⟨fun t ht => ⟨alphabet_length ht, ?_⟩, rfl, rfl, rfl, rfl, fun u hu => ⟨?_, ?_⟩,
    rev_tabAt b64Tab_mem (Nat.le_refl 64), rev_tabAt uriTab_mem (Nat.le_refl 64)⟩
  · simp only [List.mem_cons, List.not_mem_nil, or_false] at ht
    rcases ht with rfl | rfl <;> decide
  · exact fun h => tabAt_ne_padding b64Tab_mem hu (List.head_eq_of_cons_eq h)
  · exact fun h => tabAt_ne_padding uriTab_mem hu (List.head_eq_of_cons_eq h)

/-! #### Decode after encode -/

/-- The elements of one unit (R109, R201). -/
def Adapter.unitLen : Adapter → Nat
  | .bytes => 2
  | .base64 | .utf16 | .uri | .plain => 1

@[simp] theorem encodeUnit_length (adp : Adapter) (u : BitVec 16) : (encodeUnit adp u).length = adp.unitLen := by
  cases adp <;> rfl

/-- The space repair leaves the alphabet alone. -/
theorem spaceRepair_tabAt {k : Nat} (hk : k < 64) : spaceRepair (tabAt uriTab k) = tabAt uriTab k :=
  if_neg fun h => absurd (h ▸ (alphabet_range uriTab_mem hk).1) (by decide)

theorem and_lowMask_of_lt {u : BitVec 16} (hu : u.toNat < 2 ^ 15) : u &&& 0x7FFF#16 = u := by
  apply BitVec.eq_of_toNat_eq
  rw [BitVec.toNat_and]
  exact (Nat.and_two_pow_sub_one_eq_mod _ 15).trans (Nat.mod_eq_of_lt hu)

theorem highByte_append_lowByte (u : BitVec 16) :
    (((u.extractLsb' 8 8).setWidth 16).setWidth 8 ++ ((u.extractLsb' 0 8).setWidth 16).setWidth 8 : BitVec 16) =
      u := by
  rw [BitVec.setWidth_setWidth_of_le _ (by decide), BitVec.setWidth_setWidth_of_le _ (by decide), BitVec.setWidth_eq,
    BitVec.setWidth_eq]
  exact (BitVec.extractLsb'_append_extractLsb'_eq_extractLsb' (start₁ := 0) rfl).trans BitVec.extractLsb'_eq_self

/-- A unit value is decoded from the elements it is written as (R109, R129). -/
theorem decodeUnit_of_encodeUnit {adp : Adapter} {u : BitVec 16} (hu : u.toNat < 2 ^ adp.bpu.width)
    {IN : Nat → Elem} {i : Nat}
    (hin : ∀ k, k < adp.unitLen → IN (adp.unitLen * i + k) = (encodeUnit adp u).getD k 0#16) :
    decodeUnit adp IN i = u := by
  have h0 := hin 0 (by cases adp <;> decide)
  cases adp with
  | base64 =>
    have hi : IN i = tabAt b64Tab u.toNat := by simpa [Adapter.unitLen, encodeUnit] using h0
    rw [decodeUnit, hi, rev_tabAt b64Tab_mem (Nat.le_of_lt hu), BitVec.ofNat_toNat, BitVec.setWidth_eq]
  | uri =>
    have hi : IN i = tabAt uriTab u.toNat := by simpa [Adapter.unitLen, encodeUnit] using h0
    rw [decodeUnit, hi, spaceRepair_tabAt hu, rev_tabAt uriTab_mem (Nat.le_of_lt hu), BitVec.ofNat_toNat,
      BitVec.setWidth_eq]
  | utf16 =>
    have hi : IN i = u + 32#16 := by simpa [Adapter.unitLen, encodeUnit] using h0
    rw [decodeUnit, hi, BitVec.add_sub_cancel, and_lowMask_of_lt hu]
  | plain => simpa [Adapter.unitLen, encodeUnit, decodeUnit] using h0
  | bytes =>
    have hhigh : IN (2 * i) = (u.extractLsb' 8 8).setWidth 16 := h0
    have hlow : IN (2 * i + 1) = (u.extractLsb' 0 8).setWidth 16 := hin 1 (by decide)
    rw [decodeUnit, hhigh, hlow, highByte_append_lowByte]

/-- Settles O22: `decodeUnit_of_encodeUnit`, and each adapter's range. -/
theorem alphabetDecodeUndoesEncode : Obligations.AlphabetDecodeUndoesEncode := by
  intro adp u hu
  refine ⟨fun IN i hin => decodeUnit_of_encodeUnit hu (by simpa using hin), fun e he => ?_⟩
  cases adp with
  | base64 => rw [List.mem_singleton.mp he]; exact alphabet_range b64Tab_mem hu
  | uri => rw [List.mem_singleton.mp he]; exact alphabet_range uriTab_mem hu
  | utf16 =>
    have hlt : u.toNat < 2 ^ 15 := hu
    rw [List.mem_singleton.mp he]
    simp only [BitVec.toNat_add, BitVec.toNat_ofNat]
    omega
  | plain => exact List.mem_singleton.mp he
  | bytes =>
    have hbyte : ∀ b : BitVec 8, (b.setWidth 16).toNat ≤ 0xFF := fun b => by
      rw [BitVec.toNat_setWidth]; omega
    rcases List.mem_cons.mp he with rfl | he
    · exact hbyte _
    · rw [List.mem_singleton.mp he]; exact hbyte _

end Sys2Proof.Machine
end

section
/-! ### The Bit Writer: the emitted bits as units and pending bits, and the flush (R102, R103, R106, R108, R112) -/

namespace Sys2Proof.Machine

/-! #### Lists of equal chunks -/

theorem getD_flatten_of_length {α : Type} {cs : List (List α)} {n : Nat} (h : ∀ c ∈ cs, c.length = n) (i : Nat)
    {k : Nat} (hk : k < n) (a : α) : cs.flatten.getD (n * i + k) a = (cs.getD i []).getD k a := by
  induction cs generalizing i with
  | nil => simp
  | cons c cs ih =>
    obtain ⟨hc, hcs⟩ := List.forall_mem_cons.mp h
    rw [List.flatten_cons]
    cases i with
    | zero => rw [Nat.mul_zero, Nat.zero_add, List.getD_append _ _ _ _ (by omega), List.getD_cons_zero]
    | succ i =>
      rw [Nat.mul_succ, List.getD_append_right _ _ _ _ (by omega), List.getD_cons_succ, ← ih hcs]
      congr 1
      omega

theorem length_flatten_of_length {α : Type} {cs : List (List α)} {n : Nat} (h : ∀ c ∈ cs, c.length = n) :
    cs.flatten.length = cs.length * n := by
  rw [List.length_flatten, List.eq_replicate_of_mem (a := n) (l := cs.map List.length) (by simpa using h)]
  simp

/-! #### Packed units -/

theorem bpu_width_pos (bpu : Bpu) : 0 < bpu.width := by cases bpu <;> decide
theorem bpu_width_le (bpu : Bpu) : bpu.width ≤ 16 := by cases bpu <;> decide

/-- The first of the bits is the highest of the unit (R103). -/
theorem getLsbD_packBits_sub {bs : List Bool} (hlen : bs.length ≤ 16) {j : Nat} (hj : j < bs.length) :
    (packBits bs).getLsbD (bs.length - 1 - j) = bs.getD j false := by
  rw [getLsbD_packBits _ (by omega), List.getD_eq_getElem _ _ (by rw [List.length_reverse]; omega),
    List.getD_eq_getElem _ _ hj, List.getElem_reverse]
  congr 1
  omega

theorem toNat_packBits_lt {bs : List Bool} (hlen : bs.length ≤ 16) : (packBits bs).toNat < 2 ^ bs.length := by
  rw [← toNat_packBits_append_mod [] hlen]
  exact Nat.mod_lt _ (Nat.two_pow_pos _)

/-- The Bit Writer of an adapter has been given the bits `bs` since `writerInit`: they are the full units' chunks `cs`
and the pending bits `ps`; and what has been put out fits OUT_MEM. -/
def Run.Packs (p : Params) (adp : Adapter) (bs : List Bool) (r : Run) : Prop :=
  ∃ (cs : List (List Bool)) (ps : List Bool), (∀ c ∈ cs, c.length = adp.bpu.width) ∧ bs = cs.flatten ++ ps ∧
    r.Packed adp (cs.map packBits) ps ∧ r.eng.oLen ≤ p.outCap

theorem writerInit_packs (p : Params) (adp : Adapter) (r : Run) : (writerInit adp.bpu r).Packs p adp [] :=
  ⟨[], [], nofun, rfl, writerInit_packed adp r, Nat.zero_le _⟩

theorem Run.Packs.setC {p : Params} {adp : Adapter} {bs : List Bool} {r : Run} (h : r.Packs p adp bs)
    (c : Compressor) : (r.setC c).Packs p adp bs := by
  obtain ⟨cs, ps, hcs, hbs, hpacked, hcap⟩ := h
  exact ⟨cs, ps, hcs, hbs, hpacked.setC c, hcap⟩

/-- Everything a bit that is emitted does (R102): it fills the unit, which is put out, or it is left pending. -/
theorem emitBit_ok {p : Params} {adp : Adapter} {b : Bool} {r r' : Run} (h : emitBit p adp b r = .ok r') :
    let acc := (r.eng.w.acc <<< 1) ||| (BitVec.ofBool b).setWidth 16
    (r.eng.w.cnt = r.eng.w.bpu.width - 1 ∧ ∃ r₁, putOuts p (encodeUnit adp acc) r = .ok r₁ ∧
      r' = r₁.setW { r.eng.w with acc := 0#16, cnt := 0, out := r.eng.w.out ++ [acc] }) ∨
    r.eng.w.cnt ≠ r.eng.w.bpu.width - 1 ∧ r' = r.setW { r.eng.w with acc := acc, cnt := r.eng.w.cnt + 1 } := by
  unfold emitBit at h
  simp only at h
  split at h
  · next hfull =>
    obtain ⟨r₂, hunit, hr'⟩ := bind_eq_ok.mp h
    obtain ⟨r₁, hput, hr₂⟩ := bind_eq_ok.mp hunit
    cases hr₂
    cases hr'
    have hw : r₁.eng.w = r.eng.w := by rw [(putOuts_ok hput).1]
    exact .inl ⟨hfull, r₁, hput, by rw [← hw]; rfl⟩
  · next hpend =>
    cases h
    exact .inr ⟨hpend, rfl⟩

theorem putOuts_oLen_le {p : Params} {vs : Str} {r r' : Run} (h : putOuts p vs r = .ok r')
    (hr : r.eng.oLen ≤ p.outCap) : r'.eng.oLen ≤ p.outCap := by
  obtain ⟨_, _, _, hcap, _⟩ := putOuts_ok h
  cases vs with
  | nil => cases h; exact hr
  | cons v vs => exact hcap (List.cons_ne_nil v vs)

/-- A bit joins the pending ones, or completes their chunk. -/
theorem emitBit_packs {p : Params} {adp : Adapter} {b : Bool} {bs : List Bool} {r r' : Run} (h : r.Packs p adp bs)
    (hb : emitBit p adp b r = .ok r') : r'.Packs p adp (bs ++ [b]) := by
  obtain ⟨cs, ps, hcs, rfl, hpacked, hcap⟩ := h
  have hlt := hpacked.lt
  have hlast : r.eng.w.cnt = r.eng.w.bpu.width - 1 ↔ ps.length + 1 = adp.bpu.width := by
    rw [hpacked.cnt, hpacked.bpu]; omega
  rcases emitBit_ok hb with ⟨hfull, r₁, hput, rfl⟩ | ⟨hpend, rfl⟩
  · have hr₁ := putOuts_oLen_le hput hcap
    rw [hpacked.acc, ← packBits_append_singleton] at hput
    have hroom : ((cs.map packBits ++ [packBits (ps ++ [b])]).flatMap (encodeUnit adp)).length ≤ p.outCap := by
      rw [(putOuts_ok hput).1, hpacked.holds.1] at hr₁
      simpa using hr₁
    obtain ⟨r₂, hr₂, hpacked₂⟩ := emitBit_fills hpacked b (hlast.mp hfull) hroom
    cases hb.symm.trans hr₂
    refine ⟨cs ++ [ps ++ [b]], [], ?_, by simp, by simpa using hpacked₂, hr₁⟩
    simpa [or_imp, forall_and, hlast.mp hfull] using hcs
  · obtain ⟨r₂, hr₂, hpacked₂⟩ := emitBit_packed hpacked p b (by have := mt hlast.mpr hpend; omega)
    cases hb.symm.trans hr₂
    exact ⟨cs, ps ++ [b], hcs, by simp, hpacked₂, hcap⟩

theorem emitBits_packs {p : Params} {adp : Adapter} {bs cs : List Bool} {r r' : Run} (h : r.Packs p adp bs)
    (hcs : emitBits p adp cs r = .ok r') : r'.Packs p adp (bs ++ cs) := by
  induction cs generalizing r bs with
  | nil => cases hcs; rwa [List.append_nil]
  | cons c cs ih =>
    obtain ⟨r₁, h1, h2⟩ := bind_eq_ok.mp hcs
    rw [List.append_cons]
    exact ih (emitBit_packs h h1) h2

theorem emitToken_packs {p : Params} {adp : Adapter} {bs : List Bool} {nb : Nat} {t : Token} {r r' : Run}
    (h : r.Packs p adp bs) (ht : emitToken p adp nb t r = .ok r') : r'.Packs p adp (bs ++ tokenBits nb t) :=
  emitBits_packs h (emitToken_eq_emitBits p adp nb t r ▸ ht)

/-! #### The obligation on the emitted bits -/

theorem map_packBits_lt {cs : List (List Bool)} {n : Nat} (hcs : ∀ c ∈ cs, c.length = n) (hn : n ≤ 16) :
    ∀ u ∈ cs.map packBits, u.toNat < 2 ^ n := by
  intro u hu
  obtain ⟨c, hc, rfl⟩ := List.mem_map.mp hu
  rw [← hcs c hc]
  exact toNat_packBits_lt (hcs c hc ▸ hn)

/-- The writer invariant follows from what the registers hold (R112). -/
theorem Run.Packed.inv {adp : Adapter} {cs : List (List Bool)} {ps : List Bool} {r : Run}
    (h : r.Packed adp (cs.map packBits) ps) (hcs : ∀ c ∈ cs, c.length = adp.bpu.width) : r.eng.w.inv := by
  have hlt := h.lt
  have hle := bpu_width_le adp.bpu
  refine ⟨by rw [h.cnt, h.bpu]; omega, by rw [h.cnt, h.acc]; exact toNat_packBits_lt (by omega), ?_⟩
  rw [h.out, h.bpu]
  exact map_packBits_lt hcs hle

/-- Bit `j` of full chunks is at its place in unit `j div W` (R103). -/
theorem getLsbD_map_packBits {cs : List (List Bool)} {n : Nat} (hcs : ∀ c ∈ cs, c.length = n) (hn : n ≤ 16) {j : Nat}
    (hj : j < cs.length * n) :
    ((cs.map packBits).getD (j / n) 0#16).getLsbD (n - 1 - j % n) = cs.flatten.getD j false := by
  have hpos : 0 < n := Nat.pos_of_mul_pos_left (Nat.zero_lt_of_lt hj)
  have hdiv : j / n < cs.length := Nat.div_lt_of_lt_mul (by rwa [Nat.mul_comm])
  have hlen : (cs[j / n]).length = n := hcs _ (List.getElem_mem hdiv)
  have hchunk := getLsbD_packBits_sub (bs := cs[j / n]) (by omega) (j := j % n) (by rw [hlen]; exact Nat.mod_lt _ hpos)
  have hflat := getD_flatten_of_length hcs (j / n) (Nat.mod_lt j hpos) false
  rw [hlen] at hchunk
  rw [Nat.div_add_mod] at hflat
  rw [hflat, List.getD_eq_getElem _ _ (by simpa using hdiv), List.getElem_map, hchunk,
    List.getD_eq_getElem _ _ hdiv]

theorem Run.Holds.read {r : Run} {vs : Str} (h : r.Holds vs) {k : Nat} (hk : k < r.eng.oLen) :
    r.out.read k = vs.getD k 0#16 := by
  obtain ⟨hlen, hcells⟩ := h
  have hk' : k < vs.length := hlen ▸ hk
  rw [Mem.read, hcells k hk', List.getD_eq_getElem _ _ hk', Option.getD_some]

/-- Settles O15: the emitted bits are the full units' chunks and the pending bits. -/
theorem writerPacksMsbFirst : Obligations.WriterPacksMsbFirst := by
  intro p adp bs r₀ r h
  obtain ⟨cs, ps, hcs, hbs, hpacked, _⟩ := emitBits_packs (writerInit_packs p adp r₀) h
  rw [List.nil_append] at hbs
  subst hbs
  have hlt := hpacked.lt
  have hflat := length_flatten_of_length hcs
  have hlen : (cs.flatten ++ ps).length = ps.length + cs.length * adp.bpu.width := by
    rw [List.length_append, hflat, Nat.add_comm]
  have hmod : (cs.flatten ++ ps).length % adp.bpu.width = ps.length := by
    rw [hlen, Nat.add_mul_mod_self_right, Nat.mod_eq_of_lt hlt]
  have hdiv : (cs.flatten ++ ps).length / adp.bpu.width = cs.length := by
    rw [hlen, Nat.add_mul_div_right _ _ (bpu_width_pos _), Nat.div_eq_of_lt hlt, Nat.zero_add]
  refine ⟨by rw [hpacked.out, hdiv, List.length_map], by rw [hpacked.cnt, hmod], hpacked.inv hcs, fun j hj => ?_,
    by rw [hpacked.out]; exact hpacked.holds.1, fun k hk => by rw [hpacked.out]; exact hpacked.holds.read hk⟩
  rw [hpacked.out, List.length_map, ← List.getD_eq_getElem _ false]
  split
  · next hunit =>
    have hj' : j < cs.length * adp.bpu.width := (Nat.div_lt_iff_lt_mul (bpu_width_pos _)).mp hunit
    rw [getLsbD_map_packBits hcs (bpu_width_le _) hj', List.getD_append _ _ _ _ (by omega)]
  · next hpend =>
    have hj' : cs.length * adp.bpu.width ≤ j := by
      rw [← Nat.not_lt]; exact fun hlt => hpend ((Nat.div_lt_iff_lt_mul (bpu_width_pos _)).mpr hlt)
    have hjmod : j % adp.bpu.width = j - cs.length * adp.bpu.width := by
      obtain ⟨i, rfl⟩ := Nat.exists_eq_add_of_le' hj'
      rw [Nat.add_mul_mod_self_right, Nat.mod_eq_of_lt (by omega), Nat.add_sub_cancel]
    rw [List.getD_append_right _ _ _ _ (by omega), hflat, hpacked.acc, hpacked.cnt, hjmod,
      getLsbD_packBits_sub (by have := bpu_width_le adp.bpu; omega) (by omega)]

/-! #### The flush -/

/-- A round of the flush shifts a zero in, and the round that fills the unit is the last (R106). -/
theorem flushLoop_ok {p : Params} {adp : Adapter} {n : Nat} {r r' : Run} (hcnt : r.eng.w.cnt < r.eng.w.bpu.width)
    (hn : r.eng.w.bpu.width ≤ r.eng.w.cnt + n) (h : flushLoop p adp n r = .ok r') :
    r'.eng.w.cnt = 0 ∧ r'.eng.w.acc = 0#16 ∧
    r'.eng.w.out = r.eng.w.out ++ [r.eng.w.acc <<< (r.eng.w.bpu.width - r.eng.w.cnt)] ∧
    r'.eng.oLen = r.eng.oLen + (encodeUnit adp 0#16).length := by
  have hzero : ∀ a : BitVec 16, (a <<< 1) ||| (BitVec.ofBool false).setWidth 16 = a <<< 1 := fun a => by simp
  induction n generalizing r with
  | zero => omega
  | succ n ih =>
    obtain ⟨r₁, hbit, hrest⟩ := bind_eq_ok.mp h
    rcases emitBit_ok hbit with ⟨hfull, r₂, hput, rfl⟩ | ⟨hpend, rfl⟩
    · rw [decide_eq_true hfull] at hrest
      cases hrest
      have hshift : r.eng.w.bpu.width - r.eng.w.cnt = 1 := by omega
      refine ⟨rfl, rfl, by rw [hshift]; exact congrArg (r.eng.w.out ++ [·]) (hzero _), ?_⟩
      rw [encodeUnit_length, ← encodeUnit_length adp]
      exact congrArg Engine.oLen (putOuts_ok hput).1
    · rw [decide_eq_false hpend] at hrest
      obtain ⟨hc, ha, hout, hlen⟩ := ih (r := r.setW _) (by simp only [Run.setW]; omega)
        (by simp only [Run.setW]; omega) hrest
      refine ⟨hc, ha, hout.trans ?_, hlen⟩
      simp only [Run.setW, hzero, ← BitVec.shiftLeft_add]
      congr 4
      omega

/-- Settles O16: without a pending bit the flush ends at once or starts an empty unit, and `flushLoop_ok` says what
its rounds put out. -/
theorem flushPadsTheLastUnit : Obligations.FlushPadsTheLastUnit := by
  intro p adp r r' ⟨hcnt, _, _⟩ h
  have hpos := bpu_width_pos r.eng.w.bpu
  unfold flush at h
  split at h
  · next hnone =>
    cases h
    refine ⟨fun _ _ => rfl, fun hflush => ?_⟩
    obtain ⟨hzero, hparam⟩ := hnone
    rcases hflush with hlt | hunit
    · omega
    · rw [hparam] at hunit; exact nomatch hunit
  · next hsome =>
    exact ⟨fun h0 hn => absurd ⟨h0, hn⟩ hsome, fun _ => flushLoop_ok (by omega) (by omega) h⟩

/-- The flush gives the writer zeros, no more than the unit has room for. -/
theorem flushLoop_packs {p : Params} {adp : Adapter} {n : Nat} {bs : List Bool} {r r' : Run} (h : r.Packs p adp bs)
    (hcnt : r.eng.w.cnt < r.eng.w.bpu.width) (hloop : flushLoop p adp n r = .ok r') :
    ∃ k, r'.Packs p adp (bs ++ List.replicate k false) ∧ r.eng.w.cnt + k ≤ r.eng.w.bpu.width := by
  induction n generalizing r bs with
  | zero => cases hloop; exact ⟨0, by rwa [List.replicate_zero, List.append_nil], by omega⟩
  | succ n ih =>
    obtain ⟨r₁, hbit, hrest⟩ := bind_eq_ok.mp hloop
    have hpacks := emitBit_packs h hbit
    rcases emitBit_ok hbit with ⟨hfull, _⟩ | ⟨hpend, rfl⟩
    · rw [decide_eq_true hfull] at hrest
      cases hrest
      exact ⟨1, hpacks, by omega⟩
    · rw [decide_eq_false hpend] at hrest
      obtain ⟨k, hk, hle⟩ := ih hpacks (by simp only [Run.setW]; omega) hrest
      refine ⟨k + 1, by rwa [List.replicate_succ, List.append_cons], ?_⟩
      simp only [Run.setW] at hle
      omega

/-- With `P_FLUSH_ALIGNED = NONE` the flush completes the bits to chunks with less than a unit of zeros (R106). -/
theorem flush_packs {p : Params} {adp : Adapter} {bs : List Bool} {r r' : Run} (h : r.Packs p adp bs)
    (hnone : p.flushAligned = .none) (hflush : flush p adp r = .ok r') :
    ∃ (cs : List (List Bool)) (k : Nat), (∀ c ∈ cs, c.length = adp.bpu.width) ∧ k < adp.bpu.width ∧
      cs.flatten = bs ++ List.replicate k false ∧ r'.Holds ((cs.map packBits).flatMap (encodeUnit adp)) ∧
      r'.eng.oLen ≤ p.outCap := by
  have hpacks := h
  obtain ⟨cs, ps, hcs, hbs, hpacked, hcap⟩ := h
  have hpos := bpu_width_pos adp.bpu
  have hcnt : r.eng.w.cnt < r.eng.w.bpu.width := by rw [hpacked.cnt, hpacked.bpu]; exact hpacked.lt
  unfold flush at hflush
  split at hflush
  · next hzero =>
    cases hflush
    obtain rfl : ps = [] := List.length_eq_zero_iff.mp (hpacked.cnt ▸ hzero.1)
    exact ⟨cs, 0, hcs, hpos, by simpa using hbs.symm, hpacked.holds, hcap⟩
  · next hpend =>
    have hcnt0 : r.eng.w.cnt ≠ 0 := fun h0 => hpend ⟨h0, hnone⟩
    obtain ⟨k, ⟨cs', ps', hcs', hbs', hpacked', hcap'⟩, hk⟩ := flushLoop_packs hpacks hcnt hflush
    have hend := (flushLoop_ok hcnt (Nat.le_add_left _ _) hflush).1
    obtain rfl : ps' = [] := List.length_eq_zero_iff.mp (hpacked'.cnt ▸ hend)
    rw [hpacked.bpu] at hk
    exact ⟨cs', k, hcs', by omega, by simpa using hbs'.symm, hpacked'.holds, hcap'⟩

end Sys2Proof.Machine
end

section
/-! ### The Bit Reader at a stream position: the bits it takes, and the end of the input (R121 to R127) -/

namespace Sys2Proof.Machine

/-- Stream bit `j` of the units `fetch` (R125). -/
def streamBit (fetch : Nat → BitVec 16) (bpu : Bpu) (j : Nat) : Bool :=
  (fetch (j / bpu.width)).getLsbD (bpu.width - 1 - j % bpu.width)

theorem readerInit_eq_readerAt (fetch : Nat → BitVec 16) (bpu : Bpu) (len : Nat) :
    readerInit fetch bpu len = readerAt fetch bpu len 0 := by
  simp [readerInit, readerAt]

theorem exhausted_readerAt {fetch : Nat → BitVec 16} {bpu : Bpu} {len j : Nat} :
    (readerAt fetch bpu len j).exhausted = true ↔ len * bpu.width ≤ j := by
  rw [Reader.exhausted, decide_eq_true_iff, ← Nat.le_div_iff_mul_le (bpu_width_pos bpu)]
  simp only [readerAt]
  omega

/-- A one-hot cursor picks its bit. -/
theorem and_oneHot_ne_zero (u : BitVec 16) {m : Nat} (hm : m < 16) :
    decide (u &&& (1#16 <<< m) ≠ 0#16) = u.getLsbD m := by
  have hne : BitVec.twoPow 16 m ≠ 0#16 := fun h => by
    simpa [BitVec.getLsbD_twoPow, hm] using congrArg (BitVec.getLsbD · m) h
  rw [← BitVec.twoPow_eq, BitVec.and_twoPow]
  cases u.getLsbD m <;> simp [hne]

/-- The cursor moves down by one bit, and off the unit from bit 0. -/
theorem oneHot_ushiftRight {m : Nat} (hm : m < 15) : (1#16 <<< (m + 1)) >>> 1 = 1#16 <<< m ∧ 1#16 <<< m ≠ 0#16 := by
  revert m
  decide

theorem readBit_readerAt_inside {p : Params} {fetch : Nat → BitVec 16} {bpu : Bpu} {len j : Nat}
    (h : j < len * bpu.width) :
    readBit p fetch (readerAt fetch bpu len j) = .ok (streamBit fetch bpu j, readerAt fetch bpu len (j + 1)) := by
  have hpos := bpu_width_pos bpu
  have hwidth := bpu_width_le bpu
  have hmod := Nat.mod_lt j hpos
  have hunit : j / bpu.width < len := Nat.div_lt_of_lt_mul (by rwa [Nat.mul_comm])
  have hbit : decide ((readerAt fetch bpu len j).val &&& (readerAt fetch bpu len j).mask ≠ 0#16) =
      streamBit fetch bpu j := by
    simp only [readerAt, fetchUnit, if_pos hunit]
    exact and_oneHot_ne_zero _ (by omega)
  rcases readBit_cases (p := p) (fetch := fetch) (r := readerAt fetch bpu len j) rfl with
    ⟨hex, _, _⟩ | ⟨_, r', hr, hnext⟩
  · exact absurd (exhausted_readerAt.mp hex) (Nat.not_le.mpr h)
  rw [hr, hbit]
  congr 2
  have hstep := Nat.succ_mod_succ_eq_zero_iff (a := j) (b := bpu.width - 1)
  rw [Nat.sub_add_cancel hpos] at hstep
  by_cases hlast : j % bpu.width = bpu.width - 1
  · have hmask : (readerAt fetch bpu len j).mask = 1#16 := by simp [readerAt, hlast]
    have hdiv : (j + 1) / bpu.width = j / bpu.width + 1 := Nat.succ_div_of_mod_eq_zero (hstep.mpr hlast)
    rcases hnext with ⟨_, rfl⟩ | ⟨hne, _⟩
    · simp only [readerAt, hdiv, hstep.mpr hlast, Nat.sub_zero, Nat.add_comm 1]
    · exact absurd (by rw [hmask]; rfl) hne
  · have hmod' : (j + 1) % bpu.width = j % bpu.width + 1 := by
      rw [Nat.add_mod, Nat.mod_eq_of_lt (show 1 < bpu.width by omega), Nat.mod_eq_of_lt (by omega)]
    have hdiv : (j + 1) / bpu.width = j / bpu.width := Nat.succ_div_of_mod_ne_zero (mt hstep.mp hlast)
    obtain ⟨m, hm⟩ := Nat.exists_eq_add_of_lt (show j % bpu.width < bpu.width - 1 by omega)
    obtain ⟨hshift, hne⟩ := oneHot_ushiftRight (m := m) (by omega)
    have hmask : (readerAt fetch bpu len j).mask >>> 1 = 1#16 <<< m := by
      rw [← hshift]
      simp only [readerAt]
      congr 2
      omega
    rcases hnext with ⟨hzero, _⟩ | ⟨_, rfl⟩
    · exact absurd (hmask.symm.trans hzero) hne
    · rw [hmask]
      simp only [readerAt, hdiv, hmod']
      congr 2
      omega

theorem readBit_readerAt_past {p : Params} {fetch : Nat → BitVec 16} {bpu : Bpu} {len j : Nat}
    (hp : p.pastEnd = .null) (h : len * bpu.width ≤ j) :
    readBit p fetch (readerAt fetch bpu len j) = .error (.null .truncated) :=
  if_pos ⟨exhausted_readerAt.mpr h, hp⟩

/-- The next bit of a number joins the low ones gathered so far. -/
theorem mod_two_pow_or_bit (v i : Nat) : v % 2 ^ i ||| ((v.testBit i).toNat <<< i) = v % 2 ^ (i + 1) := by
  rw [Nat.mod_pow_succ, ← Nat.toNat_testBit, Nat.shiftLeft_eq, Nat.mul_comm _ (2 ^ i), Nat.or_comm,
    ← Nat.two_pow_add_eq_or_of_lt (Nat.mod_lt _ (Nat.two_pow_pos i)), Nat.add_comm]

theorem readBitsFrom_inside {p : Params} {fetch : Nat → BitVec 16} {bpu : Bpu} {len j n i v : Nat}
    (h : j + n ≤ len * bpu.width) (hv : ∀ k, k < n → streamBit fetch bpu (j + k) = v.testBit (i + k)) :
    readBitsFrom p fetch n i (v % 2 ^ i) (readerAt fetch bpu len j) =
      .ok (v % 2 ^ (i + n), readerAt fetch bpu len (j + n)) := by
  induction n generalizing i j with
  | zero => rfl
  | succ n ih =>
    have hbit : streamBit fetch bpu j = v.testBit i := hv 0 (Nat.succ_pos n)
    have hrest := ih (i := i + 1) (j := j + 1) (by omega) (fun k hk => by
      rw [Nat.add_right_comm j, Nat.add_assoc j, Nat.add_right_comm i, Nat.add_assoc i]
      exact hv (k + 1) (by omega))
    rw [Nat.add_right_comm j, Nat.add_right_comm i] at hrest
    rw [readBitsFrom, readBit_readerAt_inside (by omega), hbit]
    exact (congrArg (readBitsFrom p fetch n (i + 1) · _) (mod_two_pow_or_bit v i)).trans hrest

theorem readBitsFrom_past {p : Params} {fetch : Nat → BitVec 16} {bpu : Bpu} {len j n i acc : Nat}
    (hp : p.pastEnd = .null) (hj : j ≤ len * bpu.width) (h : len * bpu.width < j + n) :
    readBitsFrom p fetch n i acc (readerAt fetch bpu len j) = .error (.null .truncated) := by
  induction n generalizing i j acc with
  | zero => omega
  | succ n ih =>
    rw [readBitsFrom]
    by_cases hend : len * bpu.width ≤ j
    · rw [readBit_readerAt_past hp hend]; rfl
    · rw [readBit_readerAt_inside (by omega)]
      exact ih (by omega) (by omega)

/-! #### Fields of a known stream -/

/-- The stream of the units `fetch` goes on at position `j` with the bits `bs`, as far as its `len` units reach. -/
def FeedsAt (fetch : Nat → BitVec 16) (bpu : Bpu) (len j : Nat) (bs : List Bool) : Prop :=
  ∀ i, i < bs.length → j + i < len * bpu.width → streamBit fetch bpu (j + i) = bs.getD i false

theorem feedsAt_append {fetch : Nat → BitVec 16} {bpu : Bpu} {len j : Nat} {as bs : List Bool}
    (h : FeedsAt fetch bpu len j (as ++ bs)) :
    FeedsAt fetch bpu len j as ∧ FeedsAt fetch bpu len (j + as.length) bs := by
  constructor
  · intro i hi hlen
    rw [h i (by rw [List.length_append]; omega) hlen, List.getD_append _ _ _ _ hi]
  · intro i hi hlen
    rw [Nat.add_assoc] at hlen ⊢
    rw [h _ (by rw [List.length_append]; omega) hlen, List.getD_append_right _ _ _ _ (Nat.le_add_right _ _),
      Nat.add_sub_cancel_left]

/-- A field is read whole, or the input ends within it (R124, R127). -/
theorem readBits_field {p : Params} {fetch : Nat → BitVec 16} {bpu : Bpu} {len j v n : Nat} (hp : p.pastEnd = .null)
    (hj : j ≤ len * bpu.width) (hv : v < 2 ^ n) (hfeed : FeedsAt fetch bpu len j (fieldBits v n)) :
    (j + n ≤ len * bpu.width ∧
      readBits p fetch n (readerAt fetch bpu len j) = .ok (v, readerAt fetch bpu len (j + n))) ∨
    (len * bpu.width < j + n ∧ readBits p fetch n (readerAt fetch bpu len j) = .error (.null .truncated)) := by
  rcases Nat.lt_or_ge (len * bpu.width) (j + n) with hend | hin
  · exact .inr ⟨hend, readBitsFrom_past hp hj hend⟩
  · refine .inl ⟨hin, ?_⟩
    have hread := readBitsFrom_inside (p := p) (i := 0) (v := v) hin fun k hk => by
      rw [hfeed k (by rwa [fieldBits_length]) (by omega), Nat.zero_add,
        List.getD_eq_getElem _ _ (by rwa [fieldBits_length]), fieldBits_getElem]
    rwa [Nat.pow_zero, Nat.mod_one, Nat.zero_add, Nat.mod_eq_of_lt hv] at hread

end Sys2Proof.Machine
end

section
/-! ### The decompressor on a stream of tokens: what each token does, or where the input ends (R172 to R180, R185) -/

namespace Sys2Proof.Machine

/-! #### Tokens, and the registers they lead to -/

/-- The code a token begins with (R88, R90). -/
def tokenCode : Token → Nat
  | .literal8 _ => 0
  | .literal16 _ => 1
  | .endOfStream => 2
  | .dictCode k => k

/-- The bits after a token's code (R88, R105). -/
def payloadBits : Token → List Bool
  | .literal8 x => fieldBits x.toNat 8
  | .literal16 x => fieldBits x.toNat 16
  | .endOfStream | .dictCode _ => []

theorem tokenBits_eq (nb : Nat) (t : Token) : tokenBits nb t = fieldBits (tokenCode t) nb ++ payloadBits t := by
  cases t with
  | literal8 x => rfl
  | literal16 x => rfl
  | endOfStream => exact (List.append_nil _).symm
  | dictCode k => exact (List.append_nil _).symm

theorem tokenCode_ne_two {t : Token} (hwf : t.wf = true) (hend : t ≠ .endOfStream) : tokenCode t ≠ 2 := by
  cases t with
  | literal8 x => exact Nat.zero_ne_add_one 1
  | literal16 x => exact Nat.ne_of_lt (Nat.lt_succ_self 1)
  | endOfStream => exact absurd rfl hend
  | dictCode k => exact fun hk => absurd (hk ▸ of_decide_eq_true hwf : 3 ≤ 2) (by decide)

theorem tokenBits_length (nb : Nat) (t : Token) : (tokenBits nb t).length = nb + (payloadBits t).length := by
  rw [tokenBits_eq, List.length_append, fieldBits_length]

/-- The registers after a new entry (R175, R179, R184). -/
def Decompressor.added (d : Decompressor) (s : Str) : Decompressor :=
  { d with dict := d.dict ++ [(d.next, s)], next := d.next + 1,
           enl := (grow d.enl d.nb).1, nb := (grow d.enl d.nb).2 }

theorem addEntry_added {p : Params} {d : Decompressor} (s : Str) (h : d.next < p.dictCap) :
    addEntry p s d = .ok (d.next, d.added s) :=
  addEntry_eq_ok.mpr ⟨h, rfl, rfl⟩

/-- The registers when a token's code is looked up: a literal has made its entry (R175). -/
def Decompressor.defined (d : Decompressor) : Token → Decompressor
  | .literal8 x | .literal16 x => d.added [x]
  | .endOfStream | .dictCode _ => d

/-- The code that is looked up for a token: a literal's is the new entry's (R175, R177). -/
def Decompressor.codeFor (d : Decompressor) : Token → Nat
  | .literal8 _ | .literal16 _ => d.next
  | .endOfStream => 2
  | .dictCode k => k

/-- The registers after a token whose entry is `e` (R175, R179). -/
def Decompressor.after (d : Decompressor) (t : Token) (e : Str) : Decompressor :=
  { (d.defined t).added ((d.defined t).word ++ [e.headD 0#16]) with word := e, entry := e }

theorem grow_nb_ge (enl nb : Nat) : nb ≤ (grow enl nb).2 := by
  unfold grow
  split
  · exact Nat.le_succ nb
  · exact Nat.le_refl nb

theorem Decompressor.nb_le_after (d : Decompressor) (t : Token) (e : Str) : d.nb ≤ (d.after t e).nb := by
  have hdefined : d.nb ≤ (d.defined t).nb := by
    cases t with
    | literal8 x => exact grow_nb_ge _ _
    | literal16 x => exact grow_nb_ge _ _
    | endOfStream => exact Nat.le_refl _
    | dictCode k => exact Nat.le_refl _
  exact Nat.le_trans hdefined (grow_nb_ge _ _)

/-- At the head of the loop, a token written at the current code width is read as the entry `e`. -/
structure Decompressor.Reads (d : Decompressor) (t : Token) (e : Str) : Prop where
  wf : t.wf = true
  goesOn : t ≠ .endOfStream
  fits : tokenCode t < 2 ^ d.nb
  lookup : lookupEntry (d.codeFor t) (d.defined t) = .ok e

/-- The registers after the first token, the literal of `x` (R172). -/
def Decompressor.afterFirst (x : Elem) : Decompressor :=
  { dict := [(3, [x])], word := [x], entry := [x], nb := 3, enl := 4, next := 4 }

/-- The decompressor's reading of a stream: after the bits `bs`, which are a literal at width 2 and tokens at the
current code width, it has decoded `out` and its registers are `d`. -/
inductive Decoded (p : Params) : List Bool → Str → Decompressor → Prop
  | firstToken (x : Elem) : Decoded p (tokenBits 2 (literalOf x)) [x] (.afterFirst x)
  | token {bs : List Bool} {out e : Str} {d : Decompressor} {t : Token} (h : Decoded p bs out d) (ht : d.Reads t e)
      (hcap : (d.after t e).next ≤ p.dictCap) : Decoded p (bs ++ tokenBits d.nb t) (out ++ e) (d.after t e)

theorem Decoded.nb {p : Params} {bs : List Bool} {out : Str} {d : Decompressor} (h : Decoded p bs out d) :
    3 ≤ d.nb := by
  induction h with
  | firstToken x => exact Nat.le_refl 3
  | token _ _ _ ih => exact Nat.le_trans ih (Decompressor.nb_le_after _ _ _)

/-! #### One token -/

/-- The run stands at bit `j` of the input's `len` units, has decoded `out`, and its registers are `d`. -/
structure Run.At (p : Params) (fetch : Nat → BitVec 16) (bpu : Bpu) (len j : Nat) (out : Str) (d : Decompressor)
    (r : Run) : Prop where
  registers : r.eng.d = d
  reader : r.eng.r = readerAt fetch bpu len j
  holds : r.Holds out
  inside : j ≤ len * bpu.width
  room : out.length ≤ p.outCap

/-- What comes of a token that ends at bit `j` and by which `out` is decoded: the run goes on from there, or the input
ends before, or OUT_MEM does. -/
def Progress (p : Params) (fetch : Nat → BitVec 16) (bpu : Bpu) (len j : Nat) (out : Str) (d : Decompressor)
    (x : Except Stop (Bool × Run)) : Prop :=
  (∃ r, x = .ok (true, r) ∧ r.At p fetch bpu len j out d) ∨
  (x = .error (.null .truncated) ∧ len * bpu.width < j) ∨
  (x = .error (.err .outFull) ∧ p.outCap < out.length)

section
variable {p : Params} {fetch : Nat → BitVec 16} {bpu : Bpu} {len j : Nat} {out : Str} {d : Decompressor} {r : Run}

/-- A field is read whole, or the input ends within it (R124, R127). -/
theorem runBits_field {v n : Nat} (hp : p.pastEnd = .null) (hr : r.At p fetch bpu len j out d) (hv : v < 2 ^ n)
    (hfeed : FeedsAt fetch bpu len j (fieldBits v n)) :
    (∃ r', runBits p fetch n r = .ok (v, r') ∧ r'.At p fetch bpu len (j + n) out d) ∨
    (runBits p fetch n r = .error (.null .truncated) ∧ len * bpu.width < j + n) := by
  rw [runBits, hr.reader]
  rcases readBits_field hp hr.inside hv hfeed with ⟨hin, hread⟩ | ⟨hend, hread⟩
  · exact .inl ⟨r.setR (readerAt fetch bpu len (j + n)), by rw [hread]; rfl, hr.registers, rfl, hr.holds, hin, hr.room⟩
  · exact .inr ⟨by rw [hread]; rfl, hend⟩

/-- A literal's character is read whole, or the input ends within it (R172, R175). -/
theorem payload_literal {t : Token} {x : Elem} (ht : t = .literal8 x ∨ t = .literal16 x) (hwf : t.wf = true)
    (hp : p.pastEnd = .null) (hr : r.At p fetch bpu len j out d) (hfeed : FeedsAt fetch bpu len j (payloadBits t)) :
    (∃ r', payload p fetch (tokenCode t) r = .ok (x, r') ∧
      r'.At p fetch bpu len (j + (payloadBits t).length) out d) ∨
    (payload p fetch (tokenCode t) r = .error (.null .truncated) ∧
      len * bpu.width < j + (payloadBits t).length) := by
  obtain ⟨n, hn, hbits, hlt⟩ : ∃ n, n = (if tokenCode t = 0 then 8 else 16) ∧ payloadBits t = fieldBits x.toNat n ∧
      x.toNat < 2 ^ n := by
    rcases ht with rfl | rfl
    · exact ⟨8, rfl, rfl, of_decide_eq_true hwf⟩
    · exact ⟨16, rfl, rfl, x.isLt⟩
  rw [hbits] at hfeed ⊢
  rw [fieldBits_length, payload, ← hn]
  rcases runBits_field hp hr hlt hfeed with ⟨r', hread, hat⟩ | ⟨hread, hend⟩
  · exact .inl ⟨r', by rw [hread]; exact congrArg (fun y => Except.ok (y, r')) (BitVec.ofNat_toNat _ _), hat⟩
  · exact .inr ⟨by rw [hread]; rfl, hend⟩

/-- A literal's entry is made once its character is read (R175). -/
theorem literalCode_literal {t : Token} {x : Elem} (ht : t = .literal8 x ∨ t = .literal16 x) (hwf : t.wf = true)
    (hcap : d.next < p.dictCap) (hp : p.pastEnd = .null) (hr : r.At p fetch bpu len j out d)
    (hfeed : FeedsAt fetch bpu len j (payloadBits t)) :
    (∃ r', literalCode p fetch (tokenCode t) r = .ok (d.next, r') ∧
      r'.At p fetch bpu len (j + (payloadBits t).length) out (d.added [x])) ∨
    (literalCode p fetch (tokenCode t) r = .error (.null .truncated) ∧
      len * bpu.width < j + (payloadBits t).length) := by
  have hcode : tokenCode t = 0 ∨ tokenCode t = 1 := by rcases ht with rfl | rfl <;> simp [tokenCode]
  rw [literalCode, if_pos hcode]
  rcases payload_literal ht hwf hp hr hfeed with ⟨r', hread, hat⟩ | ⟨hread, hend⟩
  · refine .inl ⟨r'.setD (d.added [x]), ?_, rfl, hat.reader, hat.holds, hat.inside, hat.room⟩
    have hadd : addEntry p [x] r'.eng.d = .ok (d.next, d.added [x]) := by
      rw [hat.registers]; exact addEntry_added _ hcap
    exact bind_eq_ok.mpr ⟨_, hread, bind_eq_ok.mpr ⟨_, hadd, rfl⟩⟩
  · exact .inr ⟨by rw [hread]; rfl, hend⟩

/-- Reading the rest of a token leads to its registers and the code to look up (R175). -/
theorem literalCode_token {t : Token} (hend : t ≠ .endOfStream) (hwf : t.wf = true)
    (hcap : (d.defined t).next < p.dictCap) (hp : p.pastEnd = .null) (hr : r.At p fetch bpu len j out d)
    (hfeed : FeedsAt fetch bpu len j (payloadBits t)) :
    (∃ r', literalCode p fetch (tokenCode t) r = .ok (d.codeFor t, r') ∧
      r'.At p fetch bpu len (j + (payloadBits t).length) out (d.defined t)) ∨
    (literalCode p fetch (tokenCode t) r = .error (.null .truncated) ∧
      len * bpu.width < j + (payloadBits t).length) := by
  cases t with
  | literal8 x => exact literalCode_literal (.inl rfl) hwf (Nat.lt_of_succ_lt hcap) hp hr hfeed
  | literal16 x => exact literalCode_literal (.inr rfl) hwf (Nat.lt_of_succ_lt hcap) hp hr hfeed
  | endOfStream => exact absurd rfl hend
  | dictCode k =>
    have hk : ¬(k = 0 ∨ k = 1) := by have : 3 ≤ k := of_decide_eq_true hwf; omega
    exact .inl ⟨r, if_neg hk, hr⟩

theorem putOuts_outFull {vs ws : Str} (h : r.Holds vs) (hroom : vs.length ≤ p.outCap)
    (hfull : p.outCap < vs.length + ws.length) : putOuts p ws r = .error (.err .outFull) := by
  cases hput : putOuts p ws r with
  | error e => rw [putOuts_stop hput]
  | ok r' =>
    have hle := putOuts_oLen_le hput (by rw [h.1]; exact hroom)
    rw [(putOuts_ok hput).1] at hle
    simp only [h.1] at hle
    omega

/-- With room in OUT_MEM and in the dictionary, the entry is put out and the word's extension added (R179). -/
theorem emitEntry_eq_ok {r₁ : Run} (hput : putOuts p r.eng.d.entry r = .ok r₁) (hcap : r.eng.d.next < p.dictCap) :
    emitEntry p r = .ok (r₁.setD
      { r.eng.d.added (r.eng.d.word ++ [r.eng.d.entry.headD 0#16]) with word := r.eng.d.entry }) := by
  rw [emitEntry, hput]
  show (addEntry p (r₁.eng.d.word ++ [r₁.eng.d.entry.headD 0#16]) r₁.eng.d >>=
    fun x => pure (r₁.setD { x.2 with word := r₁.eng.d.entry })) = _
  rw [(putOuts_wrote hput).decompressor, addEntry_added _ hcap]
  rfl

/-- Emitting the entry of a token leads to the registers after it, when OUT_MEM has room (R179). -/
theorem emitEntry_token {t : Token} {e : Str} (hcap : (d.after t e).next ≤ p.dictCap)
    (hr : r.At p fetch bpu len j out (d.defined t)) :
    (∃ r', emitEntry p (r.setD { r.eng.d with entry := e }) = .ok r' ∧
      r'.At p fetch bpu len j (out ++ e) (d.after t e)) ∨
    (emitEntry p (r.setD { r.eng.d with entry := e }) = .error (.err .outFull) ∧
      p.outCap < (out ++ e).length) := by
  rw [hr.registers, List.length_append]
  rcases Nat.lt_or_ge p.outCap (out.length + e.length) with hfull | hfits
  · have hput : putOuts p e (r.setD { d.defined t with entry := e }) = .error (.err .outFull) :=
      putOuts_outFull hr.holds hr.room hfull
    exact .inr ⟨bind_eq_error.mpr (.inl hput), hfull⟩
  · obtain ⟨r₁, hput, hholds, _⟩ := putOuts_holds (r := r.setD { d.defined t with entry := e }) hr.holds e hfits
    exact .inl ⟨_, emitEntry_eq_ok hput hcap, rfl, (putOuts_wrote hput).reader.trans hr.reader, hholds, hr.inside, by
      rwa [List.length_append]⟩

/-- The parts of an iteration that goes on (R174 to R179). -/
theorem decompressStep_eq {n k : Nat} {r₁ r₂ : Run} {e : Str} (hex : ¬r.eng.r.exhausted = true)
    (hread : runBits p fetch r.eng.d.nb r = .ok (n, r₁)) (hn : n ≠ 2) (hlit : literalCode p fetch n r₁ = .ok (k, r₂))
    (hlook : lookupEntry k r₂.eng.d = .ok e) :
    decompressStep p fetch r = emitEntry p (r₂.setD { r₂.eng.d with entry := e }) >>= fun r => pure (true, r) := by
  rw [decompressStep, if_neg hex, hread]
  refine (if_neg hn).trans ?_
  rw [hlit]
  show (lookupEntry k r₂.eng.d >>= _) = _
  rw [hlook]
  rfl

/-- An iteration whose code the input ends within, or before (R127, R174). -/
theorem decompressStep_truncated {v : Nat} (hp : p.pastEnd = .null) (hr : r.At p fetch bpu len j out d)
    (hv : v < 2 ^ d.nb) (hfeed : FeedsAt fetch bpu len j (fieldBits v d.nb)) (hend : len * bpu.width < j + d.nb) :
    decompressStep p fetch r = .error (.null .truncated) := by
  by_cases hex : r.eng.r.exhausted = true
  · exact if_pos hex
  · rcases runBits_field hp hr hv hfeed with ⟨r', _, hat⟩ | ⟨hread, _⟩
    · exact absurd hat.inside (Nat.not_le.mpr hend)
    · rw [decompressStep, if_neg hex, hr.registers, hread]
      rfl

/-- One iteration on a token's bits (R174 to R179). -/
theorem decompressStep_token {t : Token} {e : Str} (ht : d.Reads t e) (hnb : 0 < d.nb)
    (hcap : (d.after t e).next ≤ p.dictCap) (hp : p.pastEnd = .null) (hr : r.At p fetch bpu len j out d)
    (hfeed : FeedsAt fetch bpu len j (tokenBits d.nb t)) :
    Progress p fetch bpu len (j + (tokenBits d.nb t).length) (out ++ e) (d.after t e) (decompressStep p fetch r) := by
  rw [tokenBits_eq] at hfeed
  obtain ⟨hcode, hpay⟩ := feedsAt_append hfeed
  rw [fieldBits_length] at hpay
  rw [tokenBits_length, ← Nat.add_assoc]
  rcases Nat.lt_or_ge (len * bpu.width) (j + d.nb) with hend | hin
  · exact .inr (.inl ⟨decompressStep_truncated hp hr ht.fits hcode hend, by omega⟩)
  have hex : ¬r.eng.r.exhausted = true := by
    rw [hr.reader, exhausted_readerAt]; omega
  rcases runBits_field hp hr ht.fits hcode with ⟨r₁, hread, hat₁⟩ | ⟨_, hend⟩
  swap
  · exact absurd hin (Nat.not_le.mpr hend)
  have hgo := tokenCode_ne_two ht.wf ht.goesOn
  rcases literalCode_token ht.goesOn ht.wf hcap hp hat₁ hpay with ⟨r₂, hlit, hat₂⟩ | ⟨hlit, hend⟩
  · rw [decompressStep_eq hex (hr.registers ▸ hread) hgo hlit (hat₂.registers ▸ ht.lookup)]
    rcases emitEntry_token hcap hat₂ with ⟨r', hemit, hat⟩ | ⟨hemit, hfull⟩
    · exact .inl ⟨r', by rw [hemit]; rfl, hat⟩
    · exact .inr (.inr ⟨by rw [hemit]; rfl, hfull⟩)
  · refine .inr (.inl ⟨?_, hend⟩)
    rw [decompressStep, if_neg hex, hr.registers, hread]
    exact (if_neg hgo).trans (by rw [hlit]; rfl)

/-! #### The whole run -/

theorem literalOf_cases (x : Elem) :
    (literalOf x = .literal8 x ∨ literalOf x = .literal16 x) ∧ (literalOf x).wf = true ∧
      tokenCode (literalOf x) < 2 := by
  unfold literalOf
  split
  · next h => exact ⟨.inl rfl, decide_eq_true h, Nat.zero_lt_two⟩
  · next h => exact ⟨.inr rfl, decide_eq_true (Nat.not_lt.mp h), Nat.one_lt_two⟩

/-- The parts of a first token that is a literal (R172). -/
theorem firstToken_eq {n : Nat} {x : Elem} {r₁ r₂ : Run} (hread : runBits p fetch 2 r = .ok (n, r₁)) (hn : n < 2)
    (hpay : payload p fetch n r₁ = .ok (x, r₂)) :
    firstToken p fetch r = putOuts p [x] (r₂.setD
      { r₂.eng.d with dict := r₂.eng.d.dict ++ [(3, [x])], word := [x], entry := [x] }) >>=
      fun r => pure (true, r) := by
  rw [firstToken, hread]
  refine (if_pos (show n = 0 ∨ n = 1 by omega)).trans ?_
  rw [hpay]
  rfl

/-- The first token's literal leads to its entry, which is put out (R172). -/
theorem firstToken_literal (x : Elem) (hp : p.pastEnd = .null)
    (hfeed : FeedsAt fetch bpu len 0 (tokenBits 2 (literalOf x))) :
    Progress p fetch bpu len (tokenBits 2 (literalOf x)).length [x] (.afterFirst x)
      (firstToken p fetch (decompressInit fetch bpu len r)) := by
  have hinit : (decompressInit fetch bpu len r).At p fetch bpu len 0 [] (decompressInit fetch bpu len r).eng.d :=
    ⟨rfl, readerInit_eq_readerAt fetch bpu len, ⟨rfl, nofun⟩, Nat.zero_le _, Nat.zero_le _⟩
  obtain ⟨ht, hwf, hlt⟩ := literalOf_cases x
  rw [tokenBits_eq] at hfeed
  obtain ⟨hfirst, hpay⟩ := feedsAt_append hfeed
  rw [fieldBits_length, Nat.zero_add] at hpay
  rw [tokenBits_length]
  rcases runBits_field hp hinit (by omega) hfirst with ⟨r₁, hread, hat₁⟩ | ⟨hread, hend⟩
  swap
  · exact .inr (.inl ⟨by rw [firstToken, hread]; rfl, by omega⟩)
  rcases payload_literal ht hwf hp hat₁ hpay with ⟨r₂, hread₂, hat₂⟩ | ⟨hread₂, hend⟩
  swap
  · refine .inr (.inl ⟨?_, by omega⟩)
    rw [firstToken, hread]
    exact (if_pos (show tokenCode _ = 0 ∨ tokenCode _ = 1 by omega)).trans (by rw [hread₂]; rfl)
  have hd : { r₂.eng.d with dict := r₂.eng.d.dict ++ [(3, [x])], word := [x], entry := [x] } =
      Decompressor.afterFirst x := by rw [hat₂.registers]; rfl
  rw [firstToken_eq hread hlt hread₂, hd]
  rcases Nat.lt_or_ge p.outCap 1 with hfull | hfits
  · refine .inr (.inr ⟨bind_eq_error.mpr (.inl ?_), hfull⟩)
    exact putOuts_outFull (r := r₂.setD _) hat₂.holds hat₂.room hfull
  · obtain ⟨r₃, hr₃, hholds, _⟩ := putOuts_holds (r := r₂.setD (.afterFirst x)) hat₂.holds [x] hfits
    have hwrote := putOuts_wrote hr₃
    exact .inl ⟨r₃, by rw [hr₃]; rfl, hwrote.decompressor, hwrote.reader.trans hat₂.reader, hholds, hat₂.inside,
      hfits⟩

/-- The decompressor reads a stream it can decode token by token, as far as the input and OUT_MEM reach; the bound
on its iterations leaves it some for the rest of the input (R185). -/
theorem decompressCore_decoded {bs : List Bool} (h : Decoded p bs out d) (hp : p.pastEnd = .null)
    (hfeed : FeedsAt fetch bpu len 0 bs) :
    (∃ n r', decompressCore p fetch bpu len r = decompressLoop p fetch n r' ∧ r'.At p fetch bpu len bs.length out d ∧
      len * bpu.width < 3 * n + bs.length) ∨
    (decompressCore p fetch bpu len r = .error (.null .truncated) ∧ len * bpu.width < bs.length) ∨
    (decompressCore p fetch bpu len r = .error (.err .outFull) ∧ p.outCap < out.length) := by
  induction h with
  | firstToken x =>
    rcases firstToken_literal (r := r) x hp hfeed with ⟨r', hfirst, hat⟩ | ⟨hfirst, hend⟩ | ⟨hfirst, hfull⟩
    · refine .inl ⟨iterationBound bpu len, r', by rw [decompressCore, hfirst]; rfl, hat, ?_⟩
      unfold iterationBound
      omega
    · exact .inr (.inl ⟨by rw [decompressCore, hfirst]; rfl, hend⟩)
    · exact .inr (.inr ⟨by rw [decompressCore, hfirst]; rfl, hfull⟩)
  | @token bs out e d t hdec ht hcap ih =>
    obtain ⟨hbs, htok⟩ := feedsAt_append hfeed
    rw [Nat.zero_add] at htok
    have hnb := hdec.nb
    have hlen := tokenBits_length d.nb t
    rw [List.length_append, List.length_append]
    rcases ih hbs with ⟨n, r', hcore, hat, hbound⟩ | ⟨hcore, hend⟩ | ⟨hcore, hfull⟩
    · have hinside := hat.inside
      obtain ⟨m, rfl⟩ : ∃ m, n = m + 1 := Nat.exists_eq_add_one_of_ne_zero (by omega)
      rw [hcore]
      rcases decompressStep_token ht (by omega) hcap hp hat htok with
        ⟨r₁, hstep, hat₁⟩ | ⟨hstep, hend⟩ | ⟨hstep, hfull⟩
      · exact .inl ⟨m, r₁, by rw [decompressLoop, hstep]; rfl, hat₁, by omega⟩
      · exact .inr (.inl ⟨by rw [decompressLoop, hstep]; rfl, hend⟩)
      · exact .inr (.inr ⟨by rw [decompressLoop, hstep]; rfl, by rwa [List.length_append] at hfull⟩)
    · exact .inr (.inl ⟨hcore, by omega⟩)
    · exact .inr (.inr ⟨hcore, by omega⟩)

/-- A stream whose input ends within the End marker, or before it, is found truncated, unless OUT_MEM is too small
(R127). -/
theorem decompressCore_truncated {bs : List Bool} (h : Decoded p bs out d) (hp : p.pastEnd = .null)
    (hfeed : FeedsAt fetch bpu len 0 (bs ++ tokenBits d.nb .endOfStream))
    (hend : len * bpu.width < (bs ++ tokenBits d.nb .endOfStream).length) :
    decompressCore p fetch bpu len r = .error (.null .truncated) ∨
    (decompressCore p fetch bpu len r = .error (.err .outFull) ∧ p.outCap < out.length) := by
  obtain ⟨hbs, hmarker⟩ := feedsAt_append hfeed
  rw [Nat.zero_add] at hmarker
  have hlen : (tokenBits d.nb .endOfStream).length = d.nb := fieldBits_length _ _
  have hfits : 2 < 2 ^ d.nb := Nat.lt_of_lt_of_le (by decide) (Nat.pow_le_pow_right (by decide) h.nb)
  rw [List.length_append, hlen] at hend
  rcases decompressCore_decoded (r := r) h hp hbs with ⟨n, r', hcore, hat, _⟩ | ⟨hcore, _⟩ | hcore
  · rw [hcore]
    cases n with
    | zero => exact .inl rfl
    | succ n => exact .inl (by rw [decompressLoop, decompressStep_truncated hp hat hfits hmarker hend]; rfl)
  · exact .inl hcore
  · exact .inr hcore

end

end Sys2Proof.Machine
end

section
/-! ### The compressor's stream is one the decompressor decodes (R142 to R152, R172 to R187) -/

namespace Sys2Proof.Machine

/-! #### Lookups in the two dictionaries -/

theorem entryOf_append (l m : List (Nat × Str)) (k : Nat) : entryOf (l ++ m) k = (entryOf l k).or (entryOf m k) := by
  induction l with
  | nil => rfl
  | cons a l ih =>
    obtain ⟨n, s⟩ := a
    by_cases hn : n = k
    · simp [entryOf, hn]
    · simp [entryOf, hn, ih]

theorem codeOf_append (l m : List (Str × Nat)) (s : Str) : codeOf (l ++ m) s = (codeOf l s).or (codeOf m s) := by
  induction l with
  | nil => rfl
  | cons a l ih =>
    obtain ⟨s', n⟩ := a
    by_cases hs : s' = s
    · simp [codeOf, hs]
    · simp [codeOf, hs, ih]

theorem entryOf_eq_none {l : List (Nat × Str)} {k : Nat} (h : k ∉ l.map Prod.fst) : entryOf l k = none := by
  induction l with
  | nil => rfl
  | cons a l ih =>
    obtain ⟨n, s⟩ := a
    rw [List.map_cons, List.mem_cons, not_or] at h
    exact (if_neg (Ne.symm h.1)).trans (ih h.2)

/-- A key's code is the key's entry in the dictionary read the other way round. -/
theorem entryOf_of_codeOf {l : List (Str × Nat)} {s : Str} {k : Nat} (hnodup : (l.map Prod.snd).Nodup)
    (h : codeOf l s = some k) : entryOf (l.map Prod.swap) k = some s := by
  induction l with
  | nil => exact nomatch h
  | cons a l ih =>
    obtain ⟨s', n⟩ := a
    rw [List.map_cons, List.nodup_cons] at hnodup
    simp only [codeOf] at h
    split at h
    · next hs => cases h; exact (if_pos rfl).trans (congrArg some hs)
    · have hk := (mem_of_codeOf h).2
      exact (if_neg fun hn : n = k => hnodup.1 (hn ▸ hk)).trans (ih hnodup.2 h)

/-- A key has a code. -/
theorem exists_codeOf {l : List (Str × Nat)} {s : Str} (h : s ∈ l.map Prod.fst) : ∃ k, codeOf l s = some k :=
  Option.ne_none_iff_exists'.mp (mt codeOf_eq_none.mp (not_not.mpr h))

theorem codesBelow_nodup (next : Nat) : (codesBelow next).Nodup :=
  List.nodup_range.map (add_left_injective 3)

theorem lookupEntry_eq_ok {d : Decompressor} {k : Nat} {e : Str} (hk : k < d.next) (he : entryOf d.dict k = some e) :
    lookupEntry k d = .ok e := by
  rw [lookupEntry, if_pos hk, he, Option.getD_some]

/-! #### The registers of the two engines -/

/-- The decompressor's registers once it has also read the token of the phrase, which the compressor has yet to write:
the dictionaries are the same, and the countdown is the one that the token leads to. -/
structure CaughtUp (c : Compressor) (d : Decompressor) : Prop where
  dict : d.dict = c.dict.map Prod.swap
  next : d.next = c.next
  enl : d.enl = c.emitted.enl
  nb : d.nb = c.emitted.nb
  word : d.word = c.phrase

/-- The decompressor has read everything the compressor has written: it will read the phrase's token as the phrase,
and catch up. -/
structure Follows (c : Compressor) (d : Decompressor) : Prop where
  nb : d.nb = c.nb
  reads : d.Reads (phraseToken c) c.phrase
  caughtUp : CaughtUp c (d.after (phraseToken c) c.phrase)

theorem phraseToken_of_mem {c : Compressor} (h : c.phrase ∈ c.pend) :
    phraseToken c = literalOf (c.phrase.headD 0#16) :=
  if_pos h

theorem phraseToken_of_not_mem {c : Compressor} (h : c.phrase ∉ c.pend) {k : Nat}
    (hk : codeOf c.dict c.phrase = some k) : phraseToken c = .dictCode k := by
  rw [phraseToken, if_neg h, hk, Option.getD_some]

theorem CaughtUp.codes {c : Compressor} {d : Decompressor} (h : CaughtUp c d) (hdict : DictInv c.dict c.next) :
    d.dict.map Prod.fst = codesBelow d.next := by
  rw [h.dict, h.next, List.map_map, ← hdict.codes]
  rfl

/-- The next free code is no entry's. -/
theorem CaughtUp.next_not_mem {c : Compressor} {d : Decompressor} (h : CaughtUp c d) (hdict : DictInv c.dict c.next) :
    d.next ∉ d.dict.map Prod.fst := by
  rw [h.codes hdict]
  exact fun hmem => Nat.lt_irrefl _ (mem_codesBelow.mp hmem).2

theorem CaughtUp.lookup {c : Compressor} {d : Decompressor} (h : CaughtUp c d) (hdict : DictInv c.dict c.next)
    {s : Str} {k : Nat} (hk : codeOf c.dict s = some k) : 3 ≤ k ∧ k < d.next ∧ entryOf d.dict k = some s := by
  obtain ⟨hlow, hhigh⟩ := mem_codesBelow.mp (hdict.codes ▸ (mem_of_codeOf hk).2)
  refine ⟨hlow, h.next ▸ hhigh, h.dict ▸ entryOf_of_codeOf ?_ hk⟩
  rw [hdict.codes]
  exact codesBelow_nodup _

/-- The token of a new character's literal (R175). -/
theorem reads_literalOf {d : Decompressor} (x : Elem) (hnb : 2 ≤ d.nb) (hnext : d.next ∉ d.dict.map Prod.fst) :
    d.Reads (literalOf x) [x] := by
  obtain ⟨ht, hwf, hlt⟩ := literalOf_cases x
  have hpow : 2 ^ 2 ≤ 2 ^ d.nb := Nat.pow_le_pow_right (by decide) hnb
  have hlook : lookupEntry d.next (d.added [x]) = .ok [x] := by
    refine lookupEntry_eq_ok (Nat.lt_succ_self _) ?_
    rw [Decompressor.added, entryOf_append, entryOf_eq_none hnext]
    exact if_pos rfl
  refine ⟨hwf, ?_, by omega, ?_⟩
  · rcases ht with h | h <;> rw [h] <;> exact nofun
  · rcases ht with h | h <;> rw [h] <;> exact hlook

/-- After the literal of `x` (R175, R179). -/
theorem after_literalOf (d : Decompressor) (x : Elem) :
    d.after (literalOf x) [x] = { (d.added [x]).added (d.word ++ [x]) with word := [x], entry := [x] } := by
  rcases (literalOf_cases x).1 with h | h <;> rw [h] <;> rfl

section
variable {p : Params} {c c₁ : Compressor} {d : Decompressor} {x : Elem}

theorem Compressor.LoopInv.phrase_mem (h : c.LoopInv) (hphrase : c.phrase ≠ []) : c.phrase ∈ c.keys :=
  h.good.phrase.resolve_left hphrase

/-- A new character's registration does not change the phrase's token, nor the countdown after it. -/
theorem registered_phraseToken (h : c.LoopInv) (hphrase : c.phrase ≠ []) (hx : [x] ∉ c.keys) :
    phraseToken (c.registered x) = phraseToken c ∧ (c.registered x).emitted.enl = c.emitted.enl ∧
      (c.registered x).emitted.nb = c.emitted.nb := by
  have hmem := h.phrase_mem hphrase
  have hne : c.phrase ≠ [x] := fun he => hx (he ▸ hmem)
  obtain ⟨k, hk⟩ := exists_codeOf hmem
  have hk' : codeOf (c.registered x).dict c.phrase = some k := by
    rw [Compressor.registered, codeOf_append, hk, Option.some_or]
  by_cases hp : c.phrase ∈ c.pend
  · have hp' : (c.registered x).phrase ∈ (c.registered x).pend := List.mem_append_left _ hp
    refine ⟨(phraseToken_of_mem hp').trans (phraseToken_of_mem hp).symm, ?_⟩
    simp only [Compressor.emitted, if_pos hp, if_pos hp']
    exact ⟨rfl, rfl⟩
  · have hp' : (c.registered x).phrase ∉ (c.registered x).pend := by simp [hp, hne]
    refine ⟨(phraseToken_of_not_mem hp' hk').trans (phraseToken_of_not_mem hp hk).symm, ?_⟩
    simp only [Compressor.emitted, if_neg hp, if_neg hp']
    exact ⟨rfl, rfl⟩

/-- The next phrase is a character that has been registered: it is read by its code. -/
theorem follows_inserted_old (h : c.LoopInv) (hx : [x] ∈ c.keys) (hins : (c.inserted x).LoopInv) (hd : CaughtUp c d) :
    Follows (c.inserted x) d := by
  obtain ⟨k, hk⟩ := exists_codeOf hx
  have hk' : codeOf (c.inserted x).dict (c.inserted x).phrase = some k := by
    rw [Compressor.inserted_phrase, Compressor.inserted, Compressor.emitted_dict, codeOf_append, hk, Option.some_or]
  have hnot : (c.inserted x).phrase ∉ (c.inserted x).pend := by
    rw [Compressor.inserted_pend]
    rcases h.pend with e | e <;> simp [e]
  have htok := phraseToken_of_not_mem hnot hk'
  obtain ⟨hlow, hhigh, hentry⟩ := hd.lookup h.good.dict hk
  have hemitted : (c.inserted x).emitted = (c.inserted x).grown := if_neg hnot
  refine ⟨hd.nb, ?_, ?_⟩
  · rw [htok]
    exact ⟨decide_eq_true hlow, nofun, hd.nb ▸ hins.phraseToken_lt htok, lookupEntry_eq_ok hhigh hentry⟩
  · rw [htok]
    refine ⟨?_, ?_, ?_, ?_, rfl⟩
    · show d.dict ++ [(d.next, d.word ++ [x])] = _
      simp [Compressor.inserted, hd.dict, hd.next, hd.word]
    · show d.next + 1 = c.emitted.next + 1
      rw [hd.next, Compressor.emitted_next]
    · show (grow d.enl d.nb).1 = _
      rw [hemitted, hd.enl, hd.nb]
      rfl
    · show (grow d.enl d.nb).2 = _
      rw [hemitted, hd.enl, hd.nb]
      rfl

/-- The next phrase is a character that is pending: it is read by its literal. -/
theorem follows_inserted_new (h : c.LoopInv) (hphrase : c.phrase ≠ []) (hx : [x] ∉ c.keys)
    (hins : ((c.registered x).inserted x).LoopInv) (hd : CaughtUp c d) : Follows ((c.registered x).inserted x) d := by
  have hne : c.phrase ≠ [x] := fun he => hx (he ▸ h.phrase_mem hphrase)
  obtain ⟨_, henl, hnb⟩ := registered_phraseToken h hphrase hx
  have hmem : ((c.registered x).inserted x).phrase ∈ ((c.registered x).inserted x).pend := by
    rw [Compressor.inserted_pend, Compressor.inserted_phrase, Compressor.registered_phrase,
      List.mem_erase_of_ne (Ne.symm hne)]
    simp
  have hnb' : d.nb = ((c.registered x).inserted x).nb := hd.nb.trans hnb.symm
  have henl' : d.enl = ((c.registered x).inserted x).enl := hd.enl.trans henl.symm
  have hreads := reads_literalOf x (hnb' ▸ hins.good.nb) (hd.next_not_mem h.good.dict)
  refine ⟨hnb', ?_, ?_⟩
  · rw [phraseToken_of_mem hmem]
    exact hreads
  · rw [phraseToken_of_mem hmem]
    show CaughtUp _ (d.after (literalOf x) [x])
    rw [after_literalOf]
    refine ⟨?_, ?_, ?_, ?_, rfl⟩
    · show d.dict ++ [(d.next, [x])] ++ [(d.next + 1, d.word ++ [x])] = _
      simp [Compressor.inserted, Compressor.registered, hd.dict, hd.next, hd.word]
    · show d.next + 1 + 1 = (c.registered x).emitted.next + 1
      rw [hd.next, Compressor.emitted_next]
      rfl
    · show (grow (grow d.enl d.nb).1 (grow d.enl d.nb).2).1 = _
      rw [Compressor.emitted, if_pos hmem, henl', hnb']
      rfl
    · show (grow (grow d.enl d.nb).1 (grow d.enl d.nb).2).2 = _
      rw [Compressor.emitted, if_pos hmem, henl', hnb']
      rfl

/-- With the entry that follows its word's, the decompressor looks a word up even where that entry is yet to be made
(R177). -/
theorem lookupEntry_extended {w : Str} {k : Nat}
    (hnodup : ((d.dict ++ [(d.next, d.word ++ [w.headD 0#16])]).map Prod.fst).Nodup) (hk : k < d.next + 1)
    (hentry : entryOf (d.dict ++ [(d.next, d.word ++ [w.headD 0#16])]) k = some (w ++ [x])) :
    lookupEntry k d = .ok (w ++ [x]) := by
  rw [entryOf_append] at hentry
  rcases Nat.lt_or_eq_of_le (Nat.le_of_lt_succ hk) with hlt | rfl
  · rw [entryOf_eq_none (l := [_]) (by simpa using Nat.ne_of_lt hlt), Option.or_none] at hentry
    exact lookupEntry_eq_ok hlt hentry
  · rw [List.map_append] at hnodup
    obtain ⟨_, _, hdisjoint⟩ := List.nodup_append.mp hnodup
    have hfresh : d.next ∉ d.dict.map Prod.fst := fun hmem => hdisjoint _ hmem _ (List.mem_singleton_self _) rfl
    rw [entryOf_eq_none hfresh, Option.none_or, entryOf, if_pos rfl, Option.some_inj] at hentry
    have hword : d.word = w := (List.append_inj' hentry rfl).1
    rw [lookupEntry, if_neg (Nat.lt_irrefl _), if_pos rfl, ← hentry, hword]

/-- A phrase that grows by a character is read by the longer phrase's code: an entry's, or the next free one, whose
entry the decompressor makes of its word (R177). -/
theorem follows_extended (h : c.LoopInv) (hphrase : c.phrase ≠ []) {c' : Compressor} {k : Nat}
    (hk : codeOf c.dict (c.phrase ++ [x]) = some k) (hc' : c' = { c with phrase := c.phrase ++ [x], pos := c.pos + 1 })
    (hext : c'.LoopInv) (hd : Follows c d) : Follows c' d := by
  have hcand := (mem_of_codeOf hk).1
  have hpend : c.pend = [] := h.pend.resolve_right fun e => h.good.pendLeaf c.phrase (by simp [e]) x hcand
  have hnot : c.phrase ∉ c.pend := by simp [hpend]
  have hnot' : c'.phrase ∉ c'.pend := by rw [hc']; simp [hpend]
  obtain ⟨k₀, hk₀⟩ := exists_codeOf (h.phrase_mem hphrase)
  have htok := phraseToken_of_not_mem hnot hk₀
  have htok' : phraseToken c' = .dictCode k := phraseToken_of_not_mem hnot' (hc' ▸ hk)
  have hhead : (c.phrase ++ [x]).headD 0#16 = c.phrase.headD 0#16 := by
    obtain ⟨y, ys, hy⟩ := List.exists_cons_of_ne_nil hphrase
    rw [hy]
    rfl
  have hcaught := hd.caughtUp
  rw [htok] at hcaught
  obtain ⟨hlow, hhigh, hentry⟩ := hcaught.lookup h.good.dict hk
  have hnodup : ((d.after (.dictCode k₀) c.phrase).dict.map Prod.fst).Nodup :=
    hcaught.codes h.good.dict ▸ codesBelow_nodup _
  have hread : lookupEntry k d = .ok (c.phrase ++ [x]) := lookupEntry_extended hnodup hhigh hentry
  have hemitted : c'.emitted.enl = c.emitted.enl ∧ c'.emitted.nb = c.emitted.nb := by
    rw [Compressor.emitted, if_neg hnot', Compressor.emitted, if_neg hnot, hc']
    exact ⟨rfl, rfl⟩
  have hafter : (d.after (.dictCode k) (c.phrase ++ [x])).dict = (d.after (.dictCode k₀) c.phrase).dict := by
    show d.dict ++ [(d.next, d.word ++ [(c.phrase ++ [x]).headD 0#16])] = _
    rw [hhead]
    rfl
  have hphrase' : c'.phrase = c.phrase ++ [x] := by rw [hc']
  have hnb : d.nb = c'.nb := by rw [hc']; exact hd.nb
  refine ⟨hnb, ?_, ?_⟩ <;> rw [htok', hphrase']
  · exact ⟨decide_eq_true hlow, nofun, hnb ▸ hext.phraseToken_lt htok', hread⟩
  · exact ⟨hafter.trans (by rw [hcaught.dict, hc']), hcaught.next.trans (by rw [hc']),
      hcaught.enl.trans hemitted.1.symm, hcaught.nb.trans hemitted.2.symm, hphrase'.symm⟩

/-- C_POS matters to neither engine's reading. -/
theorem Follows.setPos (h : Follows c d) (n : Nat) : Follows { c with pos := n } d := by
  have hemitted : { c with pos := n }.emitted.enl = c.emitted.enl ∧ { c with pos := n }.emitted.nb = c.emitted.nb := by
    unfold Compressor.emitted
    by_cases hp : c.phrase ∈ c.pend
    · simp only [if_pos hp]
      exact ⟨rfl, rfl⟩
    · simp only [if_neg hp]
      exact ⟨rfl, rfl⟩
  obtain ⟨hdict, hnext, henl, hnb, hword⟩ := h.caughtUp
  exact ⟨h.nb, h.reads, hdict, hnext, henl.trans hemitted.1.symm, hnb.trans hemitted.2.symm, hword⟩

/-- A character that extends the phrase to a key has been registered before. -/
theorem register_extended (h : c.LoopInv) (hphrase : c.phrase ≠ []) (hreg : register p x c = .ok c₁)
    (hcand : c₁.phrase ++ [x] ∈ c₁.keys) : c₁ = c := by
  rcases register_cases hreg with ⟨_, rfl⟩ | ⟨hx, rfl⟩
  · rfl
  · rw [Compressor.registered_keys, Compressor.registered_phrase, List.mem_append, List.mem_singleton] at hcand
    rcases hcand with hcand | hcand
    · exact absurd (h.good.dict.chars _ _ hcand) hx
    · exact absurd (List.append_inj' (s₂ := []) hcand rfl).1 hphrase

/-- When the phrase has been written and the candidate inserted, a decompressor that has caught up follows. -/
theorem follows_inserted (h : c.LoopInv) (hphrase : c.phrase ≠ []) (hreg : register p x c = .ok c₁)
    (hins : (c₁.inserted x).LoopInv) (hd : CaughtUp c d) : Follows (c₁.inserted x) d := by
  rcases register_cases hreg with ⟨hx, rfl⟩ | ⟨hx, rfl⟩
  · exact follows_inserted_old h hx hins hd
  · exact follows_inserted_new h hphrase hx hins hd

/-- Registering a character does not change what is written for the phrase. -/
theorem register_phraseToken (h : c.LoopInv) (hphrase : c.phrase ≠ []) (hreg : register p x c = .ok c₁) :
    phraseToken c₁ = phraseToken c ∧ c₁.nb = c.nb := by
  rcases register_cases hreg with ⟨_, rfl⟩ | ⟨hx, rfl⟩
  · exact ⟨rfl, rfl⟩
  · exact ⟨(registered_phraseToken h hphrase hx).1, rfl⟩

end

/-! #### The compressor's run -/

/-- The compressor has been given the input `u` and has written the stream `bs`; the rest of `u` is the phrase. -/
structure Ahead (p : Params) (bs : List Bool) (u : Str) (c : Compressor) : Prop where
  inv : c.LoopInv
  phrase : c.phrase ≠ []
  cap : c.next ≤ p.dictCap
  written : (∃ x, bs = [] ∧ u = [x] ∧ c = .afterOne x) ∨
    ∃ out d, Decoded p bs out d ∧ Follows c d ∧ u = out ++ c.phrase

/-- With the phrase's token the stream decodes to the whole input. -/
theorem Ahead.decoded {p : Params} {bs : List Bool} {u : Str} {c : Compressor} (h : Ahead p bs u c) :
    ∃ d, Decoded p (bs ++ tokenBits c.nb (phraseToken c)) u d ∧ CaughtUp c d := by
  rcases h.written with ⟨x, rfl, rfl, rfl⟩ | ⟨out, d, hdec, hd, rfl⟩
  · refine ⟨.afterFirst x, ?_, rfl, rfl, ?_, (nb_emitted_afterOne x).symm, rfl⟩
    · rw [phraseToken_afterOne]
      exact .firstToken x
    · rw [Compressor.emitted, if_pos (show (Compressor.afterOne x).phrase ∈ (Compressor.afterOne x).pend from
        List.mem_singleton_self [x])]
      rfl
  · exact ⟨_, hd.nb ▸ hdec.token hd.reads (hd.caughtUp.next ▸ h.cap), hd.caughtUp⟩

/-- One input character (R149). -/
theorem compressStep_ahead {p : Params} {adp : Adapter} {bs : List Bool} {u : Str} {x : Elem} {r r' : Run}
    (h : Ahead p bs u r.eng.c) (hr : r.Packs p adp bs) (hstep : compressStep p adp x r = .ok r') :
    ∃ bs', r'.Packs p adp bs' ∧ Ahead p bs' (u ++ [x]) r'.eng.c := by
  obtain ⟨hinv', hphrase', _⟩ := compressStep_loopInv h.inv hstep
  obtain ⟨c, hreg, ⟨⟨k, hk⟩, rfl⟩ | ⟨hk, hcap, r₁, htok, rfl⟩⟩ := compressStep_ok hstep
  · obtain rfl := register_extended h.inv h.phrase hreg (mem_of_codeOf hk).1
    refine ⟨bs, hr.setC _, hinv', hphrase', h.cap, .inr ?_⟩
    rcases h.written with ⟨y, rfl, rfl, hc⟩ | ⟨out, d, hdec, hd, rfl⟩
    · rw [hc] at hk
      exact absurd (mem_of_codeOf hk).1 (by simp [Compressor.afterOne])
    · exact ⟨out, d, hdec, follows_extended h.inv h.phrase hk rfl hinv' hd, by simp⟩
  · obtain ⟨htoken, hnb⟩ := register_phraseToken h.inv h.phrase hreg
    obtain ⟨d, hdec, hd⟩ := h.decoded
    have hins : (c.inserted x).LoopInv := ⟨{ hinv'.good with }, hinv'.pend⟩
    refine ⟨bs ++ tokenBits c.nb (phraseToken c), (emitToken_packs (hr.setC c) htok).setC _, hinv', hphrase', hcap,
      .inr ?_⟩
    rw [htoken, hnb]
    exact ⟨u, d, hdec, (follows_inserted h.inv h.phrase hreg hins hd).setPos _, by simp⟩

theorem compressLoop_ahead {p : Params} {adp : Adapter} {bs : List Bool} {u v : Str} {r r' : Run}
    (h : Ahead p bs u r.eng.c) (hr : r.Packs p adp bs) (hloop : compressLoop p adp v r = .ok r') :
    ∃ bs', r'.Packs p adp bs' ∧ Ahead p bs' (u ++ v) r'.eng.c := by
  induction v generalizing r bs u with
  | nil => cases hloop; exact ⟨bs, hr, by rwa [List.append_nil]⟩
  | cons x xs ih =>
    obtain ⟨r₁, h1, h2⟩ := bind_eq_ok.mp hloop
    obtain ⟨bs₁, hr₁, hahead⟩ := compressStep_ahead h hr h1
    rw [List.append_cons]
    exact ih hahead hr₁ h2

/-- The first character leaves nothing written and itself as the phrase. -/
theorem compressStep_first {p : Params} {adp : Adapter} {x : Elem} {r r' : Run} (hcap : 4 ≤ p.dictCap)
    (h : compressStep p adp x (compressInit adp.bpu r) = .ok r') :
    r'.Packs p adp [] ∧ Ahead p [] [x] r'.eng.c := by
  obtain ⟨r₁, h1, h2⟩ := bind_eq_ok.mp (compressLoop_one adp x r hcap)
  cases h.symm.trans h1
  cases h2
  obtain ⟨hinv, hphrase, _⟩ := compressStep_loopInv (compressInit_loopInv adp.bpu r) h
  exact ⟨(writerInit_packs p adp r).setC _, hinv, hphrase, hcap, .inl ⟨x, rfl, rfl, rfl⟩⟩

/-- The stream of a compressed input: its tokens, which decode to it, and the End marker (R147, R152). -/
def StreamOf (p : Params) (v : Str) (bs : List Bool) : Prop :=
  (v = [] ∧ bs = tokenBits 2 .endOfStream) ∨
  ∃ tokens d, Decoded p tokens v d ∧ bs = tokens ++ tokenBits d.nb .endOfStream

/-- What the Compress Engine gives the Bit Writer before the final flush (R149). -/
theorem compressCore_stream {p : Params} {adp : Adapter} {v : Str} {r r' : Run} (hcap : 4 ≤ p.dictCap)
    (h : compressCore p adp v r = .ok r') :
    ∃ bs r₁, StreamOf p v bs ∧ r₁.Packs p adp bs ∧ flush p adp r₁ = .ok r' := by
  obtain ⟨r₁, hloop, hfinish⟩ := bind_eq_ok.mp h
  obtain ⟨r₂, hlast, hrest⟩ := bind_eq_ok.mp hfinish
  obtain ⟨r₃, hend, hflush⟩ := bind_eq_ok.mp hrest
  cases v with
  | nil =>
    cases hloop
    cases hlast
    exact ⟨_, r₃, .inl ⟨rfl, rfl⟩, emitToken_packs ((writerInit_packs p adp r).setC _) hend, hflush⟩
  | cons x xs =>
    obtain ⟨r₀, hfirst, hxs⟩ := bind_eq_ok.mp hloop
    obtain ⟨hpacks₀, hahead₀⟩ := compressStep_first hcap hfirst
    obtain ⟨bs, hpacks₁, hahead⟩ := compressLoop_ahead hahead₀ hpacks₀ hxs
    obtain ⟨d, hdec, hd⟩ := hahead.decoded
    rw [emitLastPhrase, if_pos hahead.phrase] at hlast
    obtain ⟨r₄, htok, rfl⟩ := emitPhrase_ok hlast
    refine ⟨_, r₃, .inr ⟨_, d, hdec, rfl⟩, ?_, hflush⟩
    rw [hd.nb]
    exact emitToken_packs ((emitToken_packs hpacks₁ htok).setC _) hend

end Sys2Proof.Machine
end

section
/-! ### A compress result cut by its last unit (R113, R127, R200, R203, R204) -/

namespace Sys2Proof.Machine

/-! #### The result of a compress command -/

/-- What the adapter's framing puts after the units (R203, R204). -/
def IsFraming : Adapter → Str → Prop
  | .base64, f => ∃ k, f = List.replicate k 0x3D#16
  | .utf16, f => f = [0x0020#16]
  | .uri, f | .bytes, f | .plain, f => f = []

theorem Run.Holds.putOuts {p : Params} {vs ws : Str} {r r' : Run} (h : r.Holds vs) (hcap : r.eng.oLen ≤ p.outCap)
    (hput : putOuts p ws r = .ok r') : r'.Holds (vs ++ ws) ∧ r'.eng.oLen ≤ p.outCap := by
  have hle := putOuts_oLen_le hput hcap
  have hroom : vs.length + ws.length ≤ p.outCap := by
    rw [(putOuts_ok hput).1] at hle
    rwa [← h.1]
  obtain ⟨r₁, h₁, hholds, _⟩ := putOuts_holds h ws hroom
  cases hput.symm.trans h₁
  exact ⟨hholds, hle⟩

theorem compressFraming_holds {p : Params} {adp : Adapter} {vs : Str} {r r' : Run} (h : r.Holds vs)
    (hcap : r.eng.oLen ≤ p.outCap) (hframe : compressFraming p adp r = .ok r') :
    ∃ f, IsFraming adp f ∧ r'.Holds (vs ++ f) ∧ r'.eng.oLen ≤ p.outCap := by
  cases adp with
  | base64 => exact ⟨_, ⟨_, rfl⟩, h.putOuts hcap hframe⟩
  | utf16 => exact ⟨_, rfl, h.putOuts hcap hframe⟩
  | uri => cases hframe; exact ⟨[], rfl, by rwa [List.append_nil], hcap⟩
  | bytes => cases hframe; exact ⟨[], rfl, by rwa [List.append_nil], hcap⟩
  | plain => cases hframe; exact ⟨[], rfl, by rwa [List.append_nil], hcap⟩

theorem StreamOf.ne_nil {p : Params} {v : Str} {bs : List Bool} (h : StreamOf p v bs) : bs ≠ [] := by
  rcases h with ⟨_, rfl⟩ | ⟨tokens, d, hdec, rfl⟩
  · exact List.cons_ne_nil _ _
  · have hlen : (tokenBits d.nb .endOfStream).length = d.nb := fieldBits_length _ _
    have hnb := hdec.nb
    exact List.append_ne_nil_of_right_ne_nil _ (List.ne_nil_of_length_pos (by omega))

/-- A compress run puts out the chunks of the stream, the last one completed with zeros, and the framing. -/
theorem runCompress_stream {p : Params} {adp : Adapter} {v : Str} {r r' : Run} (hcap : 4 ≤ p.dictCap)
    (hnone : p.flushAligned = .none) (h : runCompress p adp v r = .ok r') :
    ∃ (bs : List Bool) (cs : List (List Bool)) (k : Nat) (f : Str), StreamOf p v bs ∧
      (∀ c ∈ cs, c.length = adp.bpu.width) ∧ k < adp.bpu.width ∧ cs.flatten = bs ++ List.replicate k false ∧
      IsFraming adp f ∧ r'.Holds ((cs.map packBits).flatMap (encodeUnit adp) ++ f) ∧ r'.eng.oLen ≤ p.outCap := by
  obtain ⟨r₁, hcore, hframe⟩ := bind_eq_ok.mp h
  obtain ⟨bs, r₀, hbs, hpacks, hflush⟩ := compressCore_stream hcap hcore
  obtain ⟨cs, k, hcs, hk, hflat, hholds, hroom⟩ := flush_packs hpacks hnone hflush
  obtain ⟨f, hf, hholds', hroom'⟩ := compressFraming_holds hholds hroom hframe
  exact ⟨bs, cs, k, f, hbs, hcs, hk, hflat, hf, hholds', hroom'⟩

/-! #### The cut result -/

theorem filter_encodeUnit_base64 {us : List (BitVec 16)} (hus : ∀ u ∈ us, u.toNat < 2 ^ Adapter.base64.bpu.width) :
    (us.flatMap (encodeUnit .base64)).filter (· ≠ 0x3D#16) = us.flatMap (encodeUnit .base64) := by
  refine List.filter_eq_self.mpr fun e he => ?_
  obtain ⟨u, hu, he⟩ := List.mem_flatMap.mp he
  rw [List.mem_singleton.mp he]
  exact decide_eq_true (tabAt_ne_padding b64Tab_mem (hus u hu))

/-- Cutting a result leaves the elements of all units but the last. -/
theorem withoutLastUnit_eq {adp : Adapter} {us : List (BitVec 16)} {u : BitVec 16} {f : Str}
    (hus : ∀ u' ∈ us ++ [u], u'.toNat < 2 ^ adp.bpu.width) (hf : IsFraming adp f) :
    withoutLastUnit adp ((us ++ [u]).flatMap (encodeUnit adp) ++ f) = us.flatMap (encodeUnit adp) := by
  have hunits : (us ++ [u]).flatMap (encodeUnit adp) = us.flatMap (encodeUnit adp) ++ encodeUnit adp u := by simp
  cases adp with
  | base64 =>
    obtain ⟨k, rfl⟩ := hf
    have hpad : (List.replicate k 0x3D#16).filter (· ≠ 0x3D#16) = [] := by simp
    rw [withoutLastUnit, List.filter_append, hpad, List.append_nil, filter_encodeUnit_base64 hus, hunits]
    exact List.dropLast_concat
  | utf16 =>
    rw [withoutLastUnit, show f = [0x0020#16] from hf, List.dropLast_concat, hunits]
    exact List.dropLast_concat
  | uri => rw [withoutLastUnit, show f = [] from hf, List.append_nil, hunits]; exact List.dropLast_concat
  | plain => rw [withoutLastUnit, show f = [] from hf, List.append_nil, hunits]; exact List.dropLast_concat
  | bytes =>
    rw [withoutLastUnit, show f = [] from hf, List.append_nil, hunits]
    show ((us.flatMap (encodeUnit .bytes) ++ ([_] ++ [_])).dropLast).dropLast = _
    rw [← List.append_assoc, List.dropLast_concat, List.dropLast_concat]

theorem flatMap_encodeUnit_length (adp : Adapter) (us : List (BitVec 16)) :
    (us.flatMap (encodeUnit adp)).length = us.length * adp.unitLen := by
  rw [List.flatMap_def, length_flatten_of_length (n := adp.unitLen) (by simp), List.length_map]

theorem unitCount_mul (adp : Adapter) (n : Nat) : unitCount adp (n * adp.unitLen) = n := by
  cases adp with
  | bytes => exact Nat.mul_div_cancel n Nat.zero_lt_two
  | base64 => exact Nat.mul_one n
  | utf16 => exact Nat.mul_one n
  | uri => exact Nat.mul_one n
  | plain => exact Nat.mul_one n

/-- The units are decoded from their elements (R109, R129). -/
theorem decodeUnit_flatMap_encodeUnit {adp : Adapter} {us : List (BitVec 16)}
    (hus : ∀ u ∈ us, u.toNat < 2 ^ adp.bpu.width) {IN : Nat → Elem} (hin : ∀ i (h : i < (us.flatMap (encodeUnit adp)).length),
      IN i = (us.flatMap (encodeUnit adp))[i]) {i : Nat} (hi : i < us.length) :
    decodeUnit adp IN i = us.getD i 0#16 := by
  rw [List.getD_eq_getElem _ _ hi]
  refine decodeUnit_of_encodeUnit (hus _ (List.getElem_mem hi)) fun k hk => ?_
  have hlt : adp.unitLen * i + k < (us.flatMap (encodeUnit adp)).length := by
    rw [flatMap_encodeUnit_length, Nat.mul_comm]
    calc i * adp.unitLen + k < i * adp.unitLen + adp.unitLen := Nat.add_lt_add_left hk _
      _ = (i + 1) * adp.unitLen := (Nat.succ_mul _ _).symm
      _ ≤ us.length * adp.unitLen := Nat.mul_le_mul_right _ hi
  rw [hin _ hlt, ← List.getD_eq_getElem _ 0#16, List.flatMap_def,
    getD_flatten_of_length (n := adp.unitLen) (by simp) _ hk]
  simp [hi]

/-- The Bit Reader takes from the elements of full chunks the chunks' bits (R125). -/
theorem feedsAt_encoded {adp : Adapter} {cs : List (List Bool)} (hcs : ∀ c ∈ cs, c.length = adp.bpu.width)
    {IN : Nat → Elem} (hin : ∀ i (h : i < ((cs.map packBits).flatMap (encodeUnit adp)).length),
      IN i = ((cs.map packBits).flatMap (encodeUnit adp))[i]) (rest : List Bool) :
    FeedsAt (decodeUnit adp IN) adp.bpu cs.length 0 (cs.flatten ++ rest) := by
  intro j _ hj
  have hwidth := bpu_width_le adp.bpu
  rw [Nat.zero_add] at hj ⊢
  have hunit : j / adp.bpu.width < (cs.map packBits).length := by
    rw [List.length_map]
    exact Nat.div_lt_of_lt_mul (by rwa [Nat.mul_comm])
  rw [List.getD_append _ _ _ _ (length_flatten_of_length hcs ▸ hj), ← getLsbD_map_packBits hcs hwidth hj, streamBit,
    decodeUnit_flatMap_encodeUnit (map_packBits_lt hcs hwidth) hin hunit]

/-! #### The decompress command on it -/

theorem exec_compressOf_eq (adp : Adapter) (inNull : Bool) (s : State) :
    exec (compressOf adp inNull) s = .next (executeCompress adp inNull s) := by cases adp <;> rfl

theorem exec_decompressOf_eq (adp : Adapter) (inNull : Bool) (s : State) :
    exec (decompressOf adp inNull) s = .next (executeDecompress adp inNull s) := by cases adp <;> rfl

/-- A decompress command with an input ends as its run does (R202, R205). -/
theorem exec_decompressOf {s : State} {w : Str} (adp : Adapter) (hin : hasInput s w) :
    exec (decompressOf adp false) s =
      .next (finishRun s (runDecompress s.params adp s.inElem w.length s.run)) := by
  obtain ⟨hlen, hcap, _⟩ := hin
  rw [exec_decompressOf_eq, executeDecompress, execute, if_neg Bool.false_ne_true, if_neg (by omega), hlen]

theorem complete_endsNull (c : NCause) (s : State) : endsNull (complete (.null c) s) c :=
  ⟨⟨rfl, rfl, rfl, rfl, rfl, rfl⟩, rfl⟩

/-- Without its framing and last unit, a compress run's result is the elements of full chunks that end within the
stream. -/
theorem runCompress_cut {p : Params} {adp : Adapter} {v : Str} {r r' : Run} (hcap : 4 ≤ p.dictCap)
    (hnone : p.flushAligned = .none) (h : runCompress p adp v r = .ok r') :
    ∃ (w : Str) (cs : List (List Bool)) (rest : List Bool), r'.Holds w ∧ r'.eng.oLen ≤ p.outCap ∧
      (∀ c ∈ cs, c.length = adp.bpu.width) ∧ rest ≠ [] ∧ StreamOf p v (cs.flatten ++ rest) ∧
      withoutLastUnit adp w = (cs.map packBits).flatMap (encodeUnit adp) := by
  obtain ⟨bs, cs, k, f, hbs, hcs, hk, hflat, hf, hholds, hroom⟩ := runCompress_stream hcap hnone h
  rcases List.eq_nil_or_concat cs with rfl | ⟨cs, c, rfl⟩
  · exact absurd (List.append_eq_nil_iff.mp hflat.symm).1 hbs.ne_nil
  rw [List.concat_eq_append] at hcs hflat hholds
  have hinit : ∀ c' ∈ cs, c'.length = adp.bpu.width := fun c' hc' => hcs c' (List.mem_append_left _ hc')
  have hlt : cs.flatten.length < bs.length := by
    have hlen := congrArg List.length hflat
    have hc := hcs c (List.mem_append_right _ (List.mem_singleton_self c))
    simp only [List.flatten_append, List.flatten_singleton, List.length_append, List.length_replicate] at hlen
    omega
  obtain ⟨rest, rfl⟩ : cs.flatten <+: bs := by
    refine List.prefix_of_prefix_length_le (l₃ := bs ++ List.replicate k false) ?_ (List.prefix_append _ _)
      (Nat.le_of_lt hlt)
    rw [← hflat, List.flatten_append]
    exact List.prefix_append _ _
  refine ⟨_, cs, rest, hholds, hroom, hinit, ?_, hbs, ?_⟩
  · rintro rfl
    simp at hlt
  · rw [List.map_append, List.map_singleton]
    refine withoutLastUnit_eq ?_ hf
    rw [← List.map_singleton (f := packBits), ← List.map_append]
    exact map_packBits_lt hcs (bpu_width_le _)

/-- The decompress run on the elements of full chunks that end within a stream finds it truncated, unless OUT_MEM is
too small for its input (R127). -/
theorem runDecompress_cut {p : Params} {adp : Adapter} {v : Str} {cs : List (List Bool)} {rest : List Bool}
    (hnull : p.pastEnd = .null) (hcs : ∀ c ∈ cs, c.length = adp.bpu.width) (hne : cs ≠ []) (hrest : rest ≠ [])
    (hstream : StreamOf p v (cs.flatten ++ rest)) {IN : Nat → Elem}
    (hin : ∀ i (h : i < ((cs.map packBits).flatMap (encodeUnit adp)).length),
      IN i = ((cs.map packBits).flatMap (encodeUnit adp))[i]) (r : Run) :
    runDecompress p adp IN ((cs.map packBits).flatMap (encodeUnit adp)).length r = .error (.null .truncated) ∨
    (runDecompress p adp IN ((cs.map packBits).flatMap (encodeUnit adp)).length r = .error (.err .outFull) ∧
      p.outCap < v.length) := by
  have hpos : 0 < cs.length := List.length_pos_of_ne_nil hne
  have hrest' : 0 < rest.length := List.length_pos_of_ne_nil hrest
  have hflat := length_flatten_of_length hcs
  have hfeed := feedsAt_encoded hcs hin rest
  have hrun : runDecompress p adp IN ((cs.map packBits).flatMap (encodeUnit adp)).length r =
      decompressCore p (decodeUnit adp IN) adp.bpu cs.length r := by
    have hunits : 0 < cs.length * adp.unitLen := Nat.mul_pos hpos (by cases adp <;> decide)
    have heven : ¬(adp = .bytes ∧ cs.length * adp.unitLen % 2 = 1) := by
      rintro ⟨rfl, hodd⟩
      simp only [Adapter.unitLen] at hodd
      omega
    rw [flatMap_encodeUnit_length, List.length_map, runDecompress, if_neg (Nat.ne_of_gt hunits), if_neg heven,
      unitCount_mul]
  rw [hrun]
  rcases hstream with ⟨_, hbs⟩ | ⟨tokens, d, hdec, hbs⟩
  · have hlen : (cs.flatten ++ rest).length = 2 := by rw [hbs]; rfl
    have hunit : 6 ≤ adp.bpu.width := by cases adp <;> decide
    have := Nat.mul_le_mul hpos hunit
    rw [List.length_append] at hlen
    omega
  · rw [hbs] at hfeed
    refine decompressCore_truncated hdec hnull hfeed ?_
    rw [← hbs, List.length_append]
    omega

theorem runDecompress_nil (p : Params) (adp : Adapter) (IN : Nat → Elem) (r : Run) :
    runDecompress p adp IN 0 r = .error (.null .emptyInput) := if_pos rfl

theorem params_capacities {p : Params} (h : p.wf = true) : 4 ≤ p.dictCap ∧ p.outCap ≤ 2 ^ 26 := by
  simp only [Params.wf, Bool.and_eq_true, decide_eq_true_eq] at h
  omega

/-- A compress command without an error has a result, which its run has put out. -/
theorem exec_compressOf_result {s t : State} {v : Str} {adp : Adapter} (hwf : s.params.wf = true) (hin : hasInput s v)
    (hexec : exec (compressOf adp false) s = .next t) (herr : t.status.err = .none) :
    ∃ r, runCompress s.params adp v s.run = .ok r ∧
      ∀ w, r.Holds w → r.eng.oLen ≤ s.params.outCap → t.resultView = w := by
  cases hexec.symm.trans (exec_compressOf_eq adp false s)
  rcases executeCompress_cases adp false s with ⟨r, n, he, ⟨hf, _⟩ | ⟨_, _, hrun, rfl⟩⟩ | ⟨e, he, hcase⟩
  · exact nomatch hf
  · refine ⟨r, hin.input ▸ hrun, fun w hw hroom => ?_⟩
    obtain ⟨_, hcap⟩ := params_capacities hwf
    obtain ⟨_, _, hview⟩ := complete_endsString hw (by rw [← hw.1]; omega) s
    rw [he, hview]
  · rw [he] at herr
    rcases hcase with rfl | rfl | ⟨rfl, _⟩ <;> exact nomatch herr

/-- Settles O39: the cut result ends within the stream, so its decompression is truncated where it has any unit. -/
theorem truncationDetected : Obligations.TruncationDetected := by
  intro adp s₁ s₂ t₁ v hwf hparams hnull hnone hin₁ hexec herr w hin₂
  obtain ⟨r, hrun, hview⟩ := exec_compressOf_result hwf hin₁ hexec herr
  obtain ⟨hdict, _⟩ := params_capacities hwf
  obtain ⟨out, cs, rest, hholds, hroom, hcs, hrest, hstream, hcut⟩ := runCompress_cut hdict hnone hrun
  have hw : w = (cs.map packBits).flatMap (encodeUnit adp) := by rw [← hcut, ← hview out hholds hroom]
  clear_value w
  subst hw
  refine ⟨_, exec_decompressOf adp hin₂, ?_⟩
  by_cases hne : cs = []
  · subst hne
    rw [List.map_nil, List.flatMap_nil, List.length_nil, runDecompress_nil]
    exact ⟨fun _ => complete_endsNull _ _, fun _ => rfl⟩
  · have hunits : (cs.map packBits).flatMap (encodeUnit adp) ≠ [] := by
      refine List.ne_nil_of_length_pos ?_
      rw [flatMap_encodeUnit_length, List.length_map]
      exact Nat.mul_pos (List.length_pos_of_ne_nil hne) (by cases adp <;> decide)
    obtain ⟨_, _, helem⟩ := hin₂
    rw [if_neg hunits, hparams]
    rcases runDecompress_cut hnull hcs hne hrest hstream helem s₂.run with hx | ⟨hx, hfull⟩ <;> rw [hx]
    · exact ⟨fun _ => complete_endsNull _ _, fun _ => rfl⟩
    · exact ⟨nofun, fun hroom₂ => absurd hfull (Nat.not_lt.mpr hroom₂)⟩

end Sys2Proof.Machine
end

section
/-! ### The Bit Reader past the end, and the number `readBits` gathers (R124 to R127) -/

namespace Sys2Proof.Machine

/-! #### Past the end

`fetchUnit fetch len` is the input of `len` units with zero units after it, here read as an input of `n` units. -/

theorem fetchUnit_fetchUnit {fetch : Nat → BitVec 16} {len n i : Nat} (h : i < n) :
    fetchUnit (fetchUnit fetch len) n i = fetchUnit fetch len i := if_pos h

/-- With `P_PAST_END = ZERO` the input reads as one with zero units after it (R127). -/
theorem readBit_of_zeroExtended {p : Params} {fetch : Nat → BitVec 16} {r r' : Reader} {n : Nat} {b : Bool}
    (hp : p.pastEnd = .zero) (hn : r.index < n)
    (h : readBit p (fetchUnit fetch r.len) { r with len := n } = .ok (b, r')) :
    readBit p fetch r = .ok (b, { r' with len := r.len }) := by
  simp only [readBit, hp, reduceCtorEq, and_false, if_false, fetchUnit_fetchUnit hn] at h ⊢
  split at h
  · next hlast => cases h; rw [if_pos hlast]
  · next hinside => cases h; rw [if_neg hinside]

theorem readerAt_zeroExtended {fetch : Nat → BitVec 16} {bpu : Bpu} {len n j : Nat} (h : j / bpu.width < n) :
    readerAt (fetchUnit fetch len) bpu n j = { readerAt fetch bpu len j with len := n } := by
  rw [readerAt, fetchUnit_fetchUnit h, readerAt]

theorem streamBit_zeroExtended {fetch : Nat → BitVec 16} {bpu : Bpu} {len j : Nat} (h : len * bpu.width ≤ j) :
    streamBit (fetchUnit fetch len) bpu j = false := by
  have hunit : len ≤ j / bpu.width := (Nat.le_div_iff_mul_le (bpu_width_pos bpu)).mpr h
  rw [streamBit, fetchUnit, if_neg (Nat.not_lt.mpr hunit), BitVec.getLsbD_zero]

theorem readBit_readerAt_past_zero {p : Params} {fetch : Nat → BitVec 16} {bpu : Bpu} {len j : Nat}
    (hp : p.pastEnd = .zero) (h : len * bpu.width ≤ j) :
    readBit p fetch (readerAt fetch bpu len j) = .ok (false, readerAt fetch bpu len (j + 1)) := by
  have hunit := Nat.div_le_self j bpu.width
  have hunit' := Nat.div_le_self (j + 1) bpu.width
  have hinside : j < (j + 2) * bpu.width :=
    Nat.lt_of_lt_of_le (by omega) (Nat.le_mul_of_pos_right _ (bpu_width_pos bpu))
  have hread := readBit_readerAt_inside (p := p) (fetch := fetchUnit fetch len) hinside
  rw [streamBit_zeroExtended h, readerAt_zeroExtended (by omega), readerAt_zeroExtended (by omega)] at hread
  exact readBit_of_zeroExtended hp (show 1 + j / bpu.width < j + 2 by omega) hread

/-- Settles O17: within the input by `readBit_readerAt_inside`, past it by the value of `P_PAST_END`. -/
theorem readerTakesBitsInOrder : Obligations.ReaderTakesBitsInOrder := fun _ fetch bpu len _ =>
  ⟨readerInit_eq_readerAt fetch bpu len, exhausted_readerAt, readBit_readerAt_inside,
    fun h hp => readBit_readerAt_past hp h, fun h hp => readBit_readerAt_past_zero hp h⟩

/-! #### The number gathered -/

/-- The number whose bit `i` is stream bit `j + i`, for `i` below `n` (R124). -/
def streamNumber (fetch : Nat → BitVec 16) (bpu : Bpu) (j n : Nat) : Nat :=
  Nat.ofBits fun i : Fin n => streamBit fetch bpu (j + i)

theorem streamNumber_lt (fetch : Nat → BitVec 16) (bpu : Bpu) (j n : Nat) : streamNumber fetch bpu j n < 2 ^ n :=
  Nat.ofBits_lt_two_pow _

theorem testBit_streamNumber (fetch : Nat → BitVec 16) (bpu : Bpu) (j : Nat) {n i : Nat} (hi : i < n) :
    (streamNumber fetch bpu j n).testBit i = streamBit fetch bpu (j + i) :=
  Nat.testBit_ofBits_lt _ i hi

theorem readBits_readerAt_inside {p : Params} {fetch : Nat → BitVec 16} {bpu : Bpu} {len j n : Nat}
    (h : j + n ≤ len * bpu.width) :
    readBits p fetch n (readerAt fetch bpu len j) =
      .ok (streamNumber fetch bpu j n, readerAt fetch bpu len (j + n)) := by
  have hread := readBitsFrom_inside (p := p) (i := 0) (v := streamNumber fetch bpu j n) h fun k hk => by
    rw [Nat.zero_add, testBit_streamNumber fetch bpu j hk]
  rwa [Nat.pow_zero, Nat.mod_one, Nat.zero_add, Nat.mod_eq_of_lt (streamNumber_lt fetch bpu j n)] at hread

/-- Settles O18: the number read is `streamNumber`. -/
theorem readBitsFirstBitLowest : Obligations.ReadBitsFirstBitLowest := fun _ fetch bpu _ j n h =>
  ⟨streamNumber fetch bpu j n, readBits_readerAt_inside h, streamNumber_lt fetch bpu j n,
    fun _ hi => testBit_streamNumber fetch bpu j hi⟩

end Sys2Proof.Machine
end

section
/-! ### The reverse lookup of any character, and the value of any input unit (R129 to R136) -/

namespace Sys2Proof.Machine

theorem exists_tabAt_of_mem {t : List Elem} (ht : t ∈ [b64Tab, uriTab]) {c : Elem} (hc : c ∈ t) :
    ∃ k, k ≤ 64 ∧ tabAt t k = c := by
  obtain ⟨k, hk, hget⟩ := List.mem_iff_getElem.mp hc
  refine ⟨k, ?_, (List.getD_eq_getElem _ _ hk).trans hget⟩
  rw [alphabet_length ht] at hk
  omega

/-- A character has an index in the table, or its reverse lookup is 0 (R130). -/
theorem rev_cases {t : List Elem} (ht : t ∈ [b64Tab, uriTab]) (c : Elem) :
    (∃ k, k ≤ 64 ∧ tabAt t k = c ∧ rev t c = k) ∨ rev t c = 0 := by
  by_cases hc : c ∈ t
  · obtain ⟨k, hk, rfl⟩ := exists_tabAt_of_mem ht hc
    exact .inl ⟨k, hk, rfl, rev_tabAt ht hk⟩
  · exact .inr (if_neg hc)

theorem rev_le {t : List Elem} (ht : t ∈ [b64Tab, uriTab]) (c : Elem) : rev t c ≤ 64 := by
  rcases rev_cases ht c with ⟨k, hk, _, hrev⟩ | hrev <;> omega

/-- Settles O20: `rev_tabAt` where the table has the character, and `rev_cases` where it has not. -/
theorem reverseLookup : Obligations.ReverseLookup := by
  intro t ht c
  refine ⟨fun k hk hc => hc ▸ rev_tabAt ht hk, fun hnone => ?_, rev_le ht c⟩
  rcases rev_cases ht c with ⟨k, hk, hc, _⟩ | hrev
  · exact absurd hc (hnone k hk)
  · exact hrev

theorem toNat_ofNat_rev {t : List Elem} (ht : t ∈ [b64Tab, uriTab]) (c : Elem) :
    (BitVec.ofNat 16 (rev t c)).toNat = rev t c := by
  have hle := rev_le ht c
  rw [BitVec.toNat_ofNat, Nat.mod_eq_of_lt (by omega)]

/-- The shifted-UTF16 value as an integer difference (R134). -/
theorem toNat_sub_and_lowMask (c : Elem) :
    (((c - 32#16) &&& 0x7FFF#16).toNat : Int) = ((c.toNat : Int) - 32) % 2 ^ 15 := by
  have hmask : ((c - 32#16) &&& 0x7FFF#16).toNat = (c - 32#16).toNat % 2 ^ 15 := by
    rw [BitVec.toNat_and]
    exact Nat.and_two_pow_sub_one_eq_mod _ 15
  rw [hmask, BitVec.toNat_sub]
  simp only [BitVec.toNat_ofNat]
  omega

/-- A byte pair, high byte first (R136). -/
theorem toNat_lowByte_append_lowByte (a b : Elem) :
    (a.setWidth 8 ++ b.setWidth 8 : BitVec 16).toNat = a.toNat % 256 * 256 + b.toNat % 256 := by
  rw [BitVec.toNat_append, BitVec.toNat_setWidth, BitVec.toNat_setWidth, Nat.shiftLeft_eq, Nat.mul_comm _ (2 ^ 8),
    ← Nat.two_pow_add_eq_or_of_lt (Nat.mod_lt _ (Nat.two_pow_pos 8)), Nat.mul_comm]

/-- Settles O21: one clause per adapter's decoder, the two alphabets' by `rev_le`. -/
theorem alphabetDecodeValues : Obligations.AlphabetDecodeValues := fun IN i =>
  ⟨toNat_ofNat_rev uriTab_mem (spaceRepair (IN i)), toNat_ofNat_rev b64Tab_mem (IN i), toNat_sub_and_lowMask (IN i),
    rfl, toNat_lowByte_append_lowByte (IN (2 * i)) (IN (2 * i + 1))⟩

end Sys2Proof.Machine
end

section
/-! ### The code-width countdown: one step of it, and its closed form (R143, R151) -/

namespace Sys2Proof.Machine

/-- Settles O23: `grow` is the two cases of its own definition, and `grow_balance` keeps ENL from 0. -/
theorem growStep : Obligations.GrowStep := by
  intro enl nb henl
  refine ⟨fun h1 => if_pos (by omega), fun h2 => if_neg (by omega), ?_⟩
  obtain ⟨_, hpos, _⟩ := grow_balance henl nb
  exact hpos

/-- A countdown keeps ENL within the half of the codes that the width added. -/
theorem two_mul_grow_le {enl nb : Nat} (h : 2 * enl ≤ 2 ^ nb) : 2 * (grow enl nb).1 ≤ 2 ^ (grow enl nb).2 := by
  unfold grow
  split
  · exact (Nat.pow_succ'.symm).le
  · simp only
    omega

/-- The countdown (ENL, NB) after `e` calls of `grow` from (2, 2). -/
def countdown (e : Nat) : Nat × Nat := (fun x : Nat × Nat => grow x.1 x.2)^[e] (2, 2)

theorem countdown_succ (e : Nat) : countdown (e + 1) = grow (countdown e).1 (countdown e).2 :=
  Function.iterate_succ_apply' _ e (2, 2)

/-- The countdown's balance, and the bounds on ENL that fix the width it stands at. -/
theorem countdown_invariant (e : Nat) :
    (countdown e).1 + 2 + e = 2 ^ (countdown e).2 ∧ 1 ≤ (countdown e).1 ∧
      2 * (countdown e).1 ≤ 2 ^ (countdown e).2 ∧ 2 ≤ (countdown e).2 := by
  induction e with
  | zero => decide
  | succ e ih =>
    obtain ⟨hsum, hpos, hhalf, hnb⟩ := ih
    obtain ⟨hbal, hpos', hmono⟩ := grow_balance hpos (countdown e).2
    have hhalf' := two_mul_grow_le hhalf
    rw [countdown_succ]
    omega

/-- Settles O24: by `countdown_invariant`, `e + 2` has the width's number of binary digits. -/
theorem countdownClosedForm : Obligations.CountdownClosedForm := by
  intro e
  obtain ⟨hsum, hpos, hhalf, hnb⟩ := countdown_invariant e
  refine ⟨hsum, hnb, fun m hm => ?_⟩
  change (countdown e).2 = m ↔ _
  have hlog : Nat.log 2 (e + 2) + 1 = (countdown e).2 := by
    have hpow : 2 ^ (countdown e).2 = 2 * 2 ^ ((countdown e).2 - 1) := by
      rw [← Nat.pow_succ', Nat.succ_eq_add_one, Nat.sub_add_cancel (by omega)]
    have := (Nat.log_eq_iff (b := 2) (m := (countdown e).2 - 1) (n := e + 2) (.inl (by omega))).mpr
      ⟨by omega, by rw [Nat.sub_add_cancel (by omega)]; omega⟩
    omega
  have hiff := Nat.log_eq_iff (b := 2) (m := m - 1) (n := e + 2) (.inl (by omega))
  rw [Nat.sub_add_cancel (by omega)] at hiff
  rw [← hiff, ← hlog]
  omega

end Sys2Proof.Machine
end

section
/-! ### The result of the empty input (R152, R202, R203, R204) -/

namespace Sys2Proof.Machine

/-! #### A run that puts out known elements, or finds no room for them -/

/-- An engine run whose elements are `v`: it ends with them in OUT_MEM, or with OUT_FULL where they do not fit. -/
def PutsOut (p : Params) (v : Str) (x : Except Stop Run) : Prop :=
  (v.length ≤ p.outCap → ∃ r, x = .ok r ∧ r.Holds v) ∧ (p.outCap < v.length → x = .error (.err .outFull))

/-- What the framing puts after `n` elements (R203, R204). -/
def framingOf : Adapter → Nat → Str
  | .base64, n => List.replicate (if n % 4 = 0 then 0 else 4 - n % 4) 0x3D#16
  | .utf16, _ => [0x0020#16]
  | .uri, _ | .bytes, _ | .plain, _ => []

theorem compressFraming_eq_putOuts (p : Params) (adp : Adapter) (r : Run) :
    compressFraming p adp r = putOuts p (framingOf adp r.eng.oLen) r := by cases adp <;> rfl

theorem PutsOut.framing {p : Params} {v : Str} {x : Except Stop Run} (h : PutsOut p v x) (adp : Adapter) :
    PutsOut p (v ++ framingOf adp v.length) (x >>= compressFraming p adp) := by
  obtain ⟨hfits, hfull⟩ := h
  rcases Nat.lt_or_ge p.outCap v.length with hv | hv
  · exact ⟨fun h => by rw [List.length_append] at h; omega, fun _ => bind_eq_error.mpr (.inl (hfull hv))⟩
  · obtain ⟨r, hx, hr⟩ := hfits hv
    have hframe : compressFraming p adp r = putOuts p (framingOf adp v.length) r := by
      rw [compressFraming_eq_putOuts, hr.1]
    refine ⟨fun h => ?_, fun h => bind_eq_error.mpr (.inr ⟨r, hx, ?_⟩)⟩
    · obtain ⟨r', hput, hholds, _⟩ := putOuts_holds hr _ (List.length_append ▸ h)
      exact ⟨r', bind_eq_ok.mpr ⟨r, hx, hframe.trans hput⟩, hholds⟩
    · exact hframe.trans (putOuts_outFull hr hv (List.length_append ▸ h))

/-- A compress command ends as its run does: with the elements, or with OUT_FULL. -/
theorem exec_compressOf_putsOut {s : State} {v w : Str} (adp : Adapter) (hin : hasInput s v)
    (hrun : PutsOut s.params w (runCompress s.params adp v s.run)) (hlen : w.length < 2 ^ 32) :
    ∃ t, exec (compressOf adp false) s = .next t ∧ commandFrame s t ∧
      (w.length ≤ s.params.outCap → endsString t w) ∧ (s.params.outCap < w.length → endsError t .outFull) := by
  obtain ⟨hfits, hfull⟩ := hrun
  rcases Nat.lt_or_ge s.params.outCap w.length with hw | hw
  · have hend : executeCompress adp false s = complete (.error .outFull) s := by
      have hinput := hin.input
      obtain ⟨hinLen, hcap, _⟩ := hin
      rw [executeCompress, hinput, hfull hw, execute, if_neg Bool.false_ne_true, if_neg (by omega), finishRun]
    exact ⟨_, exec_compressOf_eq adp false s, hend ▸ complete_commandFrame _ s s.run, fun h => absurd hw (by omega),
      fun _ => hend ▸ complete_endsError _ s⟩
  · obtain ⟨r, hr, hholds⟩ := hfits hw
    obtain ⟨t, ht, hframe, hend⟩ := exec_compressOf adp hin hr hholds hlen
    exact ⟨t, ht, hframe, fun _ => hend, fun h => absurd hw (by omega)⟩

/-! #### The End marker alone -/

/-- A flush of pending bits needs room for one unit more (R106). -/
theorem flush_oLen_le {p : Params} {adp : Adapter} {bs : List Bool} {r r' : Run} (h : r.Packs p adp bs)
    (hpend : r.eng.w.cnt ≠ 0) (hflush : flush p adp r = .ok r') : r.eng.oLen + adp.unitLen ≤ p.outCap := by
  have hcnt : r.eng.w.cnt < r.eng.w.bpu.width := by
    obtain ⟨_, _, _, _, hpacked, _⟩ := h
    rw [hpacked.cnt, hpacked.bpu]
    exact hpacked.lt
  rw [flush, if_neg fun h0 => hpend h0.1] at hflush
  obtain ⟨_, ⟨_, _, _, _, _, hcap⟩, _⟩ := flushLoop_packs h hcnt hflush
  obtain ⟨_, _, _, hlen⟩ := flushLoop_ok hcnt (Nat.le_add_left _ _) hflush
  rwa [hlen, encodeUnit_length] at hcap

theorem flush_stop {p : Params} {adp : Adapter} {r : Run} {e : Stop} (h : flush p adp r = .error e) :
    e = .err .outFull := by
  unfold flush at h
  split at h
  · exact nomatch h
  · exact flushLoop_stop h

/-- Bits of less than a unit, flushed, are one unit (R106). -/
theorem flush_putsOut {p : Params} {adp : Adapter} {bs : List Bool} {r : Run} (h : r.Packed adp [] bs) (hbs : bs ≠ []) :
    PutsOut p (encodeUnit adp (padUnit adp.bpu.width bs)) (flush p adp r) := by
  refine ⟨fun hfits => ?_, fun hfull => ?_⟩
  · obtain ⟨r', hflush, hpacked⟩ := flush_packed h (p := p) hbs (by simpa using hfits)
    exact ⟨r', hflush, by simpa using hpacked.holds⟩
  · cases hflush : flush p adp r with
    | error e => rw [flush_stop hflush]
    | ok r' =>
      have hzero : r.eng.oLen = 0 := h.holds.1
      have hpacks : r.Packs p adp bs := ⟨[], bs, nofun, rfl, h, by omega⟩
      have hroom := flush_oLen_le hpacks (by rw [h.cnt]; exact mt List.length_eq_zero_iff.mp hbs) hflush
      rw [encodeUnit_length] at hfull
      omega

/-- The End marker at width 2, the one code of an empty input (R152), flushed to a unit, with the framing. -/
def emptyResult (adp : Adapter) : Str :=
  let unit := encodeUnit adp (padUnit adp.bpu.width (tokenBits 2 .endOfStream))
  unit ++ framingOf adp unit.length

theorem runCompress_nil (p : Params) (adp : Adapter) (r : Run) :
    PutsOut p (emptyResult adp) (runCompress p adp [] r) := by
  obtain ⟨r₁, hend, hpacked⟩ := emitBits_packed ((writerInit_packed adp r).setC (compressInit adp.bpu r).eng.c) p
    (tokenBits 2 .endOfStream) (by cases adp <;> decide)
  have hcore : compressCore p adp [] r = flush p adp r₁ := congrArg (· >>= flush p adp) hend
  rw [runCompress, hcore]
  exact (flush_putsOut hpacked (List.cons_ne_nil _ _)).framing adp

/-- Settles O34: the run is `runCompress_nil`'s, and the unit and framing are each adapter's elements. -/
theorem compressEmptyInput : Obligations.CompressEmptyInput := by
  intro s adp hlen v
  have hv : v = emptyResult adp := by cases adp <;> decide
  have hin : hasInput s [] := ⟨by rw [hlen]; rfl, Nat.zero_le _, nofun⟩
  rw [hv]
  exact exec_compressOf_putsOut adp hin (runCompress_nil _ _ _) (by cases adp <;> decide)

end Sys2Proof.Machine
end

section
/-! ### A compress command with room for its dictionary and output completes (R148, R209) -/

namespace Sys2Proof.Machine

/-! #### Bits that have room -/

section
variable {p : Params} {adp : Adapter} {bs : List Bool} {n : Nat} {r : Run}

theorem length_flatMap_encodeUnit_le {us : List (BitVec 16)} {m : Nat} (adp : Adapter) (hus : us.length ≤ m) :
    (us.flatMap (encodeUnit adp)).length ≤ adp.unitLen * m := by
  rw [flatMap_encodeUnit_length, Nat.mul_comm]
  exact Nat.mul_le_mul_left _ hus

theorem flatMap_encodeUnit_ne_nil {us : List (BitVec 16)} (adp : Adapter) (hus : us ≠ []) :
    us.flatMap (encodeUnit adp) ≠ [] := by
  refine List.ne_nil_of_length_pos ?_
  rw [flatMap_encodeUnit_length]
  exact Nat.mul_pos (List.length_pos_of_ne_nil hus) (by cases adp <;> decide)

/-- A bit is taken when the units full by then have room. -/
theorem emitBit_room (h : r.Packs p adp bs) (b : Bool) (hn : bs.length + 1 ≤ n)
    (hroom : adp.unitLen * (n / adp.bpu.width) ≤ p.outCap) :
    ∃ r', emitBit p adp b r = .ok r' ∧ r'.Packs p adp (bs ++ [b]) := by
  suffices hok : ∃ r', emitBit p adp b r = .ok r' from hok.imp fun r' hb => ⟨hb, emitBit_packs h hb⟩
  obtain ⟨cs, ps, hcs, rfl, hpacked, _⟩ := h
  have hlt := hpacked.lt
  by_cases hfull : ps.length + 1 = adp.bpu.width
  · have hunits : (cs.map packBits ++ [packBits (ps ++ [b])]).length ≤ n / adp.bpu.width := by
      rw [Nat.le_div_iff_mul_le (bpu_width_pos _), List.length_append, List.length_map, List.length_singleton,
        Nat.succ_mul]
      rw [List.length_append, length_flatten_of_length hcs] at hn
      omega
    obtain ⟨r', hb, _⟩ := emitBit_fills hpacked b hfull ((length_flatMap_encodeUnit_le adp hunits).trans hroom)
    exact ⟨r', hb⟩
  · obtain ⟨r', hb, _⟩ := emitBit_packed hpacked p b (by omega)
    exact ⟨r', hb⟩

theorem emitBits_room {cs : List Bool} (h : r.Packs p adp bs) (hn : bs.length + cs.length ≤ n)
    (hroom : adp.unitLen * (n / adp.bpu.width) ≤ p.outCap) :
    ∃ r', emitBits p adp cs r = .ok r' ∧ r'.Packs p adp (bs ++ cs) := by
  induction cs generalizing r bs with
  | nil => exact ⟨r, rfl, by rwa [List.append_nil]⟩
  | cons c cs ih =>
    rw [List.length_cons] at hn
    obtain ⟨r₁, h1, hr₁⟩ := emitBit_room h c (by omega) hroom
    obtain ⟨r₂, h2, hr₂⟩ := ih hr₁ (by rw [List.length_append, List.length_singleton]; omega)
    exact ⟨r₂, bind_eq_ok.mpr ⟨r₁, h1, h2⟩, by rwa [List.append_cons]⟩

/-- A flush takes room for one unit more at most, whatever P_FLUSH_ALIGNED is (R106). -/
theorem flush_room (h : r.Packs p adp bs) (hbs : bs ≠ []) (hn : bs.length ≤ n)
    (hroom : adp.unitLen * (n / adp.bpu.width + 1) ≤ p.outCap) :
    ∃ r' vs, flush p adp r = .ok r' ∧ r'.Holds vs ∧ vs ≠ [] ∧ vs.length ≤ adp.unitLen * (n / adp.bpu.width + 1) := by
  obtain ⟨cs, ps, hcs, rfl, hpacked, _⟩ := h
  have hunits : (cs.map packBits).length ≤ n / adp.bpu.width := by
    rw [Nat.le_div_iff_mul_le (bpu_width_pos _), List.length_map, ← length_flatten_of_length hcs]
    rw [List.length_append] at hn
    omega
  by_cases hnone : r.eng.w.cnt = 0 ∧ p.flushAligned = .none
  · obtain rfl : ps = [] := List.length_eq_zero_iff.mp (hpacked.cnt ▸ hnone.1)
    have hcs' : cs ≠ [] := by rintro rfl; exact hbs rfl
    exact ⟨r, _, if_pos hnone, hpacked.holds, flatMap_encodeUnit_ne_nil adp (mt List.map_eq_nil_iff.mp hcs'),
      length_flatMap_encodeUnit_le adp (Nat.le_succ_of_le hunits)⟩
  · have hlen := length_flatMap_encodeUnit_le adp (us := cs.map packBits ++ [padUnit adp.bpu.width ps])
      (m := n / adp.bpu.width + 1) (by rw [List.length_append, List.length_singleton]; omega)
    obtain ⟨r', hloop, hpacked'⟩ := flushLoop_packed hpacked (n := adp.bpu.width) (Nat.le_add_left _ _)
      (hlen.trans hroom)
    exact ⟨r', _, (if_neg hnone).trans (hpacked.bpu ▸ hloop), hpacked'.holds,
      flatMap_encodeUnit_ne_nil adp (List.concat_ne_nil _ _), hlen⟩

end

/-! #### The code width of a bounded dictionary -/

/-- Codes below 2^29, the greatest DICT_CAP (R7), have at most 29 bits. -/
theorem Compressor.Good.nb_le {c : Compressor} (h : c.Good) (hhalf : 2 * c.enl ≤ 2 ^ c.nb) (hnext : c.next ≤ 2 ^ 29) :
    c.nb ≤ 29 := by
  have hcount := h.countdown
  have hlt : 2 ^ c.nb < 2 ^ 30 := by omega
  exact Nat.le_of_lt_succ ((Nat.pow_lt_pow_iff_right Nat.one_lt_two).mp hlt)

theorem Compressor.two_mul_emitted_enl_le {c : Compressor} (h : 2 * c.enl ≤ 2 ^ c.nb) :
    2 * c.emitted.enl ≤ 2 ^ c.emitted.nb := by
  unfold Compressor.emitted
  split
  · exact two_mul_grow_le (two_mul_grow_le h)
  · exact two_mul_grow_le h

theorem Compressor.Good.emitted_nb_le {c : Compressor} (h : c.Good) (hhalf : 2 * c.enl ≤ 2 ^ c.nb)
    (hnext : c.next ≤ 2 ^ 29) : c.emitted.nb ≤ 30 := by
  obtain ⟨hcount, _, _⟩ := h.emitted_countdown
  have hhalf' := two_mul_emitted_enl_le hhalf
  have hle : 2 ^ c.emitted.nb ≤ 2 ^ 30 := by omega
  exact (Nat.pow_le_pow_iff_right Nat.one_lt_two).mp hle

theorem length_tokenBits_phraseToken_le (c : Compressor) : (tokenBits c.nb (phraseToken c)).length ≤ c.nb + 16 := by
  unfold phraseToken literalOf
  split
  · split <;> simp [tokenBits]
  · simp [tokenBits]

/-! #### One character -/

theorem register_room {p : Params} {c : Compressor} (x : Elem) (h : c.next < p.dictCap) :
    ∃ c', register p x c = .ok c' ∧ c'.next ≤ c.next + 1 ∧ c'.enl = c.enl ∧ c'.nb = c.nb := by
  cases hk : codeOf c.dict [x] with
  | some k => exact ⟨c, register_eq_ok.mpr (.inl ⟨⟨k, hk⟩, rfl⟩), Nat.le_succ _, rfl, rfl⟩
  | none => exact ⟨c.registered x, register_eq_ok.mpr (.inr ⟨hk, h, rfl⟩), Nat.le_refl _, rfl, rfl⟩

section
variable {p : Params} {adp : Adapter} {x : Elem} {r : Run} {c : Compressor}

/-- A character that extends the phrase to a key writes nothing (R142). -/
theorem compressStep_extends {k : Nat} (hreg : register p x r.eng.c = .ok c)
    (hk : codeOf c.dict (c.phrase ++ [x]) = some k) :
    compressStep p adp x r = .ok (r.setC { c with phrase := c.phrase ++ [x], pos := c.pos + 1 }) := by
  have hext : extendOrEmit p adp x (r.setC c) = .ok (r.setC { c with phrase := c.phrase ++ [x] }) := by
    simp only [extendOrEmit, Run.setC_c, hk]
    rfl
  exact bind_eq_ok.mpr ⟨c, hreg, bind_eq_ok.mpr ⟨_, hext, rfl⟩⟩

/-- A character that does not has the phrase's token written, and the candidate inserted (R142, R146). -/
theorem compressStep_emits {r₁ : Run} (hreg : register p x r.eng.c = .ok c)
    (hk : codeOf c.dict (c.phrase ++ [x]) = none) (hcap : c.next < p.dictCap)
    (htok : emitToken p adp c.nb (phraseToken c) (r.setC c) = .ok r₁) :
    compressStep p adp x r = .ok (r₁.setC { c.inserted x with pos := (c.inserted x).pos + 1 }) := by
  have hphrase : emitPhrase p adp (r.setC c) = .ok (r₁.setC c.emitted) := bind_eq_ok.mpr ⟨r₁, htok, rfl⟩
  have hins : insertCandidate p (c.phrase ++ [x]) x c.emitted = .ok (c.inserted x) :=
    bind_eq_ok.mpr ⟨_, allocCode_eq_ok.mpr ⟨by rwa [Compressor.emitted_next], rfl, rfl⟩, rfl⟩
  have hext : extendOrEmit p adp x (r.setC c) = .ok (r₁.setC (c.inserted x)) := by
    simp only [extendOrEmit, Run.setC_c, hk]
    exact bind_eq_ok.mpr ⟨_, hphrase, bind_eq_ok.mpr ⟨_, hins, rfl⟩⟩
  exact bind_eq_ok.mpr ⟨c, hreg, bind_eq_ok.mpr ⟨_, hext, rfl⟩⟩

end

/-! #### The run's budget -/

/-- Room for a compress command on `n` characters: a DICT_CAP in its range (R7) that has two codes for each of them
(R148), and OUT_MEM elements for `46·n + 30` stream bits and a flush (R209). -/
structure CompressRoom (p : Params) (adp : Adapter) (n : Nat) : Prop where
  dictCap : p.dictCap ≤ 2 ^ 29
  dict : 2 * n + 3 ≤ p.dictCap
  out : adp.unitLen * ((46 * n + 30) / adp.bpu.width + 1) ≤ p.outCap

/-- The stream bits a phrase can still take: none, or a code of 29 bits and a payload of 16. -/
def Compressor.owed (c : Compressor) : Nat := if c.phrase = [] then 0 else 45

/-- A compress run within its budget: two codes and 45 stream bits a character (R148, R209). That ENL is at most half
of 2^NB makes the codes bound the width. -/
structure Run.OnBudget (p : Params) (adp : Adapter) (r : Run) : Prop where
  inv : r.eng.c.LoopInv
  half : 2 * r.eng.c.enl ≤ 2 ^ r.eng.c.nb
  next : r.eng.c.next ≤ 2 * r.eng.c.pos + 3
  bits : ∃ bs, r.Packs p adp bs ∧ bs.length + r.eng.c.owed ≤ 45 * r.eng.c.pos

theorem compressInit_onBudget (p : Params) (adp : Adapter) (r : Run) : (compressInit adp.bpu r).OnBudget p adp where
  inv := compressInit_loopInv adp.bpu r
  half := Nat.le_refl _
  next := Nat.le_refl _
  bits := ⟨[], (writerInit_packs p adp r).setC _, Nat.le_refl _⟩

section
variable {p : Params} {adp : Adapter} {n : Nat} {r : Run}

theorem CompressRoom.emitToken {bs : List Bool} {nb : Nat} {t : Token} (hp : CompressRoom p adp n)
    (h : r.Packs p adp bs) (hn : bs.length + (tokenBits nb t).length ≤ 46 * n + 30) :
    ∃ r', emitToken p adp nb t r = .ok r' ∧ r'.Packs p adp (bs ++ tokenBits nb t) := by
  rw [emitToken_eq_emitBits]
  exact emitBits_room h hn ((Nat.mul_le_mul_left _ (Nat.le_succ _)).trans hp.out)

/-- The next character of `n` has room, and keeps the budget. -/
theorem compressStep_onBudget (hp : CompressRoom p adp n) (h : r.OnBudget p adp) (x : Elem)
    (hpos : r.eng.c.pos < n) : ∃ r', compressStep p adp x r = .ok r' ∧ r'.OnBudget p adp := by
  have hcap := hp.dictCap
  have hdict := hp.dict
  have hnext := h.next
  obtain ⟨bs, hpacks, hbits⟩ := h.bits
  obtain ⟨c, hreg, hcnext, henl, hnb⟩ := register_room x (show r.eng.c.next < p.dictCap by omega)
  obtain ⟨hgood, hx, hphrase, hcpos, _, _⟩ := h.inv.register hreg
  have hhalf : 2 * c.enl ≤ 2 ^ c.nb := by rw [henl, hnb]; exact h.half
  cases hk : codeOf c.dict (c.phrase ++ [x]) with
  | some k =>
    have hstep := compressStep_extends (adp := adp) hreg hk
    obtain ⟨hinv, hne, _⟩ := compressStep_loopInv h.inv hstep
    refine ⟨_, hstep, hinv, hhalf, ?_, bs, hpacks.setC _, ?_⟩
    · simp only [Run.setC_c]
      omega
    · rw [Compressor.owed, if_neg hne]
      simp only [Run.setC_c]
      omega
  | none =>
    have howed : r.eng.c.owed = 45 := if_neg fun hnil => by
      rw [hphrase, hnil] at hk
      exact codeOf_eq_none.mp hk hx
    have hlen := length_tokenBits_phraseToken_le c
    have hwidth := hgood.nb_le hhalf (by omega)
    obtain ⟨r₁, htok, hpacks₁⟩ := hp.emitToken (hpacks.setC c)
      (show bs.length + (tokenBits c.nb (phraseToken c)).length ≤ _ by omega)
    have hstep := compressStep_emits hreg hk (by omega) htok
    obtain ⟨hinv, hne, hpos'⟩ := compressStep_loopInv h.inv hstep
    refine ⟨_, hstep, hinv, Compressor.two_mul_emitted_enl_le hhalf, ?_, _, hpacks₁.setC _, ?_⟩
    · rw [hpos']
      simp only [Run.setC_c, Compressor.inserted, Compressor.emitted_next]
      omega
    · rw [hpos', Compressor.owed, if_neg hne, List.length_append]
      omega

theorem compressLoop_onBudget (hp : CompressRoom p adp n) (h : r.OnBudget p adp) {v : Str}
    (hpos : r.eng.c.pos + v.length ≤ n) :
    ∃ r', compressLoop p adp v r = .ok r' ∧ r'.OnBudget p adp := by
  induction v generalizing r with
  | nil => exact ⟨r, rfl, h⟩
  | cons x xs ih =>
    rw [List.length_cons] at hpos
    obtain ⟨r₁, h1, hr₁⟩ := compressStep_onBudget hp h x (by omega)
    obtain ⟨_, _, hpos₁⟩ := compressStep_loopInv h.inv h1
    obtain ⟨r₂, h2, hr₂⟩ := ih hr₁ (by omega)
    exact ⟨r₂, bind_eq_ok.mpr ⟨r₁, h1, h2⟩, hr₂⟩

/-- The last phrase takes what it owes, and the width is at most 30 after it. -/
theorem emitLastPhrase_onBudget (hp : CompressRoom p adp n) (h : r.OnBudget p adp) (hpos : r.eng.c.pos = n) :
    ∃ r' bs, emitLastPhrase p adp r = .ok r' ∧ r'.Packs p adp bs ∧ bs.length ≤ 45 * n ∧
      2 ≤ r'.eng.c.nb ∧ r'.eng.c.nb ≤ 30 := by
  have hcap := hp.dictCap
  have hdict := hp.dict
  have hnext := h.next
  obtain ⟨bs, hpacks, hbits⟩ := h.bits
  have hwidth := h.inv.good.nb_le h.half (by omega)
  by_cases hnil : r.eng.c.phrase = []
  · exact ⟨r, bs, if_neg (not_not_intro hnil), hpacks, by omega, h.inv.good.nb, by omega⟩
  · have howed : r.eng.c.owed = 45 := if_neg hnil
    have hlen := length_tokenBits_phraseToken_le r.eng.c
    obtain ⟨r₁, htok, hpacks₁⟩ := hp.emitToken hpacks
      (show bs.length + (tokenBits r.eng.c.nb (phraseToken r.eng.c)).length ≤ _ by omega)
    obtain ⟨_, _, hnb⟩ := h.inv.good.emitted_countdown
    refine ⟨_, _, (if_pos hnil).trans (bind_eq_ok.mpr ⟨r₁, htok, rfl⟩), hpacks₁.setC _, ?_, hnb,
      h.inv.good.emitted_nb_le h.half (by omega)⟩
    rw [List.length_append]
    omega

end

/-! #### The whole command -/

/-- The engine run puts out at least one unit. -/
theorem compressCore_room {p : Params} {adp : Adapter} {v : Str} (hp : CompressRoom p adp v.length) (r : Run) :
    ∃ r' vs, compressCore p adp v r = .ok r' ∧ r'.Holds vs ∧ vs ≠ [] ∧
      vs.length ≤ adp.unitLen * ((46 * v.length + 30) / adp.bpu.width + 1) := by
  obtain ⟨r₁, hloop, hr₁⟩ := compressLoop_onBudget hp (compressInit_onBudget p adp r) (v := v) (Nat.zero_add _).le
  obtain ⟨_, _, hpos⟩ := compressLoop_loopInv (compressInit_loopInv adp.bpu r) hloop
  obtain ⟨r₂, bs, hlast, hpacks, hbits, hnb, hnb'⟩ := emitLastPhrase_onBudget hp hr₁ (hpos.trans (Nat.zero_add _))
  have hend : (tokenBits r₂.eng.c.nb .endOfStream).length = r₂.eng.c.nb := fieldBits_length _ _
  have hlen : (bs ++ tokenBits r₂.eng.c.nb .endOfStream).length ≤ 46 * v.length + 30 := by
    rw [List.length_append]
    omega
  have hne : bs ++ tokenBits r₂.eng.c.nb .endOfStream ≠ [] :=
    List.append_ne_nil_of_right_ne_nil _ (List.ne_nil_of_length_pos (by omega))
  obtain ⟨r₃, htok, hpacks₃⟩ := hp.emitToken hpacks (List.length_append ▸ hlen)
  obtain ⟨r₄, vs, hflush, hvs⟩ := flush_room hpacks₃ hne hlen hp.out
  exact ⟨r₄, vs, bind_eq_ok.mpr ⟨r₁, hloop, bind_eq_ok.mpr ⟨r₂, hlast, bind_eq_ok.mpr ⟨r₃, htok, hflush⟩⟩⟩, hvs⟩

theorem length_framingOf_le (adp : Adapter) (n : Nat) : (framingOf adp n).length ≤ 3 := by
  cases adp with
  | base64 => rw [framingOf, List.length_replicate]; split <;> omega
  | utf16 => exact Nat.le_add_left 1 2
  | uri => exact Nat.zero_le 3
  | bytes => exact Nat.zero_le 3
  | plain => exact Nat.zero_le 3

theorem outNeeded_eq (adp : Adapter) (n : Nat) :
    outNeeded adp n = adp.unitLen * ((46 * n + 30) / adp.bpu.width + 1) + 3 := by cases adp <;> rfl

theorem runCompress_room {p : Params} {adp : Adapter} {v : Str} (hp : CompressRoom p adp v.length)
    (hout : outNeeded adp v.length ≤ p.outCap) (r : Run) :
    ∃ r' w, runCompress p adp v r = .ok r' ∧ r'.Holds w ∧ w ≠ [] ∧ w.length ≤ outNeeded adp v.length := by
  obtain ⟨r₁, vs, hcore, hholds, hne, hlen⟩ := compressCore_room hp r
  have hputs : PutsOut p vs (compressCore p adp v r) :=
    ⟨fun _ => ⟨r₁, hcore, hholds⟩, fun hfull => absurd (hlen.trans hp.out) (Nat.not_le.mpr hfull)⟩
  have hle : (vs ++ framingOf adp vs.length).length ≤ outNeeded adp v.length := by
    rw [List.length_append, outNeeded_eq]
    exact Nat.add_le_add hlen (length_framingOf_le adp _)
  obtain ⟨hfits, _⟩ := hputs.framing adp
  obtain ⟨r', hrun, hw⟩ := hfits (hle.trans hout)
  exact ⟨r', _, hrun, hw, List.append_ne_nil_of_left_ne_nil hne _, hle⟩

theorem hasInput_input {s : State} (h : s.latch.len.toNat ≤ s.params.inCap) : hasInput s s.input := by
  simp [hasInput, State.input, h]

/-- R7's DICT_CAP and the two premises of R148 and R209. -/
theorem compressRoom_of_outNeeded {p : Params} {adp : Adapter} {n : Nat} (hwf : p.wf = true)
    (hdict : 2 * n + 3 ≤ p.dictCap) (hout : outNeeded adp n ≤ p.outCap) : CompressRoom p adp n where
  dictCap := by
    simp only [Params.wf, Bool.and_eq_true, decide_eq_true_eq] at hwf
    omega
  dict := hdict
  out := (Nat.le_add_right _ 3).trans (outNeeded_eq adp n ▸ hout)

/-- Settles O33: the run has room for its dictionary, its stream and its framing, so it does not stop. -/
theorem compressCompletes : Obligations.CompressCompletes := by
  intro s adp hwf hin hdict hout
  have hlen : s.latch.len.toNat = s.input.length := by simp [State.input]
  rw [hlen] at hdict hout ⊢
  obtain ⟨_, hcap⟩ := params_capacities hwf
  obtain ⟨r, w, hrun, hw, hne, hle⟩ := runCompress_room (compressRoom_of_outNeeded hwf hdict hout) hout s.run
  obtain ⟨t, ht, hframe, hend⟩ := exec_compressOf adp (hasInput_input hin) hrun hw (by omega)
  exact ⟨t, w, ht, hend, hne, hle, hframe⟩

end Sys2Proof.Machine
end

section
/-! ### The lookup of a code, and the loop's iterations against the input's bits (R174, R177, R178, R185) -/

namespace Sys2Proof.Machine

/-! #### The three cases of the lookup -/

theorem lookupEntry_present {d : Decompressor} {k : Nat} (hk : k < d.next) :
    lookupEntry k d = .ok ((entryOf d.dict k).getD []) :=
  if_pos hk

theorem lookupEntry_next (d : Decompressor) : lookupEntry d.next d = .ok (d.word ++ [d.word.headD 0#16]) :=
  (if_neg (Nat.lt_irrefl _)).trans (if_pos rfl)

theorem lookupEntry_unknown {d : Decompressor} {k : Nat} (hk : d.next < k) :
    lookupEntry k d = .error (.null .badCode) :=
  (if_neg (Nat.lt_asymm hk)).trans (if_neg (Nat.ne_of_gt hk))

/-- Settles O28: reading a code leaves the dictionary as it is, and the lookup has three cases. -/
theorem unknownCodeIsBadCode : Obligations.UnknownCodeIsBadCode := by
  intro p fetch r r' code hex hread hcode
  obtain ⟨rd, rfl⟩ := runBits_ok hread
  refine ⟨fun hgt => ?_, fun hnext => hnext ▸ lookupEntry_next r.eng.d, lookupEntry_present⟩
  have hlit : literalCode p fetch code (r.setR rd) = .ok (code, r.setR rd) := if_neg (by omega)
  have hlook : lookupEntry code (r.setR rd).eng.d = .error (.null .badCode) := lookupEntry_unknown hgt
  rw [decompressStep, if_neg (Bool.eq_false_iff.mp hex)]
  refine bind_eq_error.mpr (.inr ⟨_, hread, (if_neg (by omega)).trans ?_⟩)
  exact bind_eq_error.mpr (.inr ⟨_, hlit, bind_eq_error.mpr (.inl hlook)⟩)

/-! #### How far a read moves the Bit Reader -/

section
variable {p : Params} {fetch : Nat → BitVec 16} {bpu : Bpu} {len : Nat}

theorem readBit_readerAt_ok {j : Nat} {b : Bool} {rd : Reader}
    (h : readBit p fetch (readerAt fetch bpu len j) = .ok (b, rd)) : rd = readerAt fetch bpu len (j + 1) := by
  rcases Nat.lt_or_ge j (len * bpu.width) with hin | hend
  · cases h.symm.trans (readBit_readerAt_inside hin)
    rfl
  · cases hp : p.pastEnd with
    | null => exact nomatch h.symm.trans (readBit_readerAt_past hp hend)
    | zero =>
      cases h.symm.trans (readBit_readerAt_past_zero hp hend)
      rfl

theorem readBitsFrom_readerAt_ok {n i acc j v : Nat} {rd : Reader}
    (h : readBitsFrom p fetch n i acc (readerAt fetch bpu len j) = .ok (v, rd)) :
    rd = readerAt fetch bpu len (j + n) := by
  induction n generalizing i acc j with
  | zero => cases h; rfl
  | succ n ih =>
    obtain ⟨⟨b, rd₁⟩, hbit, hrest⟩ := bind_eq_ok.mp h
    obtain rfl := readBit_readerAt_ok hbit
    rw [ih hrest, Nat.add_right_comm, Nat.add_assoc]

/-- The Bit Reader stands at bit `j` of the input's `len` units, or after it. -/
def Run.HasTaken (fetch : Nat → BitVec 16) (bpu : Bpu) (len j : Nat) (r : Run) : Prop :=
  ∃ j', j ≤ j' ∧ r.eng.r = readerAt fetch bpu len j'

variable {j : Nat} {r r' : Run}

theorem decompressInit_hasTaken (r : Run) : (decompressInit fetch bpu len r).HasTaken fetch bpu len 0 :=
  ⟨0, Nat.le_refl 0, readerInit_eq_readerAt fetch bpu len⟩

theorem Run.HasTaken.of_add {n : Nat} (h : r.HasTaken fetch bpu len (j + n)) : r.HasTaken fetch bpu len j := by
  obtain ⟨j', hj, hr⟩ := h
  exact ⟨j', Nat.le_of_add_right_le hj, hr⟩

theorem Run.HasTaken.setD (h : r.HasTaken fetch bpu len j) (d : Decompressor) : (r.setD d).HasTaken fetch bpu len j :=
  h

theorem Run.HasTaken.exhausted (h : r.HasTaken fetch bpu len j) (hend : len * bpu.width ≤ j) :
    r.eng.r.exhausted = true := by
  obtain ⟨j', hj, hr⟩ := h
  rw [hr, exhausted_readerAt]
  exact Nat.le_trans hend hj

theorem runBits_hasTaken {n v : Nat} (h : r.HasTaken fetch bpu len j) (hread : runBits p fetch n r = .ok (v, r')) :
    r'.HasTaken fetch bpu len (j + n) := by
  obtain ⟨j', hj, hr⟩ := h
  obtain ⟨⟨v', rd⟩, hbits, hset⟩ := bind_eq_ok.mp hread
  cases hset
  rw [hr] at hbits
  exact ⟨j' + n, Nat.add_le_add_right hj n, readBitsFrom_readerAt_ok hbits⟩

theorem payload_hasTaken {n : Nat} {x : Elem} (h : r.HasTaken fetch bpu len j)
    (hread : payload p fetch n r = .ok (x, r')) : r'.HasTaken fetch bpu len j := by
  obtain ⟨⟨v, r₁⟩, hbits, hset⟩ := bind_eq_ok.mp hread
  cases hset
  exact (runBits_hasTaken h hbits).of_add

theorem literalCode_hasTaken {n k : Nat} (h : r.HasTaken fetch bpu len j)
    (hlit : literalCode p fetch n r = .ok (k, r')) : r'.HasTaken fetch bpu len j := by
  unfold literalCode at hlit
  split at hlit
  · obtain ⟨⟨x, r₁⟩, hpay, hrest⟩ := bind_eq_ok.mp hlit
    obtain ⟨⟨k', d⟩, _, hset⟩ := bind_eq_ok.mp hrest
    cases hset
    exact (payload_hasTaken h hpay).setD d
  · cases hlit
    exact h

theorem putOuts_hasTaken {vs : Str} (h : r.HasTaken fetch bpu len j) (hput : putOuts p vs r = .ok r') :
    r'.HasTaken fetch bpu len j := by
  obtain ⟨j', hj, hr⟩ := h
  exact ⟨j', hj, (putOuts_wrote hput).reader.trans hr⟩

theorem emitEntry_hasTaken (h : r.HasTaken fetch bpu len j) (hemit : emitEntry p r = .ok r') :
    r'.HasTaken fetch bpu len j := by
  obtain ⟨r₁, _, _, hput, _, rfl⟩ := emitEntry_ok hemit
  exact (putOuts_hasTaken h hput).setD _

theorem firstToken_hasTaken {goOn : Bool} (h : r.HasTaken fetch bpu len j)
    (hfirst : firstToken p fetch r = .ok (goOn, r')) : r'.HasTaken fetch bpu len j := by
  obtain ⟨⟨t, r₁⟩, hbits, hrest⟩ := bind_eq_ok.mp hfirst
  have h₁ := (runBits_hasTaken h hbits).of_add
  simp only at hrest
  split at hrest
  · obtain ⟨⟨x, r₂⟩, hpay, hrest⟩ := bind_eq_ok.mp hrest
    obtain ⟨r₃, hput, hset⟩ := bind_eq_ok.mp hrest
    cases hset
    exact putOuts_hasTaken ((payload_hasTaken h₁ hpay).setD _) hput
  · cases hrest
    exact h₁

/-- An iteration takes at least the bits of its code (R185). -/
theorem decompressStep_hasTaken {goOn : Bool} (h : r.HasTaken fetch bpu len j)
    (hstep : decompressStep p fetch r = .ok (goOn, r')) : r'.HasTaken fetch bpu len (j + r.eng.d.nb) := by
  unfold decompressStep at hstep
  split at hstep
  · exact nomatch hstep
  · obtain ⟨⟨n, r₁⟩, hbits, hrest⟩ := bind_eq_ok.mp hstep
    have h₁ := runBits_hasTaken h hbits
    simp only at hrest
    split at hrest
    · cases hrest
      exact h₁
    · obtain ⟨⟨k, r₂⟩, hlit, hrest⟩ := bind_eq_ok.mp hrest
      obtain ⟨e, _, hrest⟩ := bind_eq_ok.mp hrest
      obtain ⟨r₃, hemit, hset⟩ := bind_eq_ok.mp hrest
      cases hset
      exact emitEntry_hasTaken ((literalCode_hasTaken h₁ hlit).setD _) hemit

/-! #### The bound on the iterations -/

theorem decompressLoop_succ (n : Nat) (r : Run) : decompressLoop p fetch (n + 1) r =
    decompressStep p fetch r >>= fun x => if x.1 then decompressLoop p fetch n x.2 else pure x.2 := rfl

theorem Decompressor.inv.nb {d : Decompressor} (h : d.inv) : 3 ≤ d.nb := by
  obtain ⟨_, _, _, _, _, _, _, hnb⟩ := h
  exact hnb

/-- A loop that has three bits of input left for each iteration it may do never does them all (R185). -/
theorem decompressLoop_eq_of_le {n m : Nat} (hinv : r.eng.d.inv) (h : r.HasTaken fetch bpu len j)
    (hleft : len * bpu.width ≤ 3 * n + j) (hnm : n ≤ m) : decompressLoop p fetch m r = decompressLoop p fetch n r := by
  induction n generalizing m r j with
  | zero =>
    cases m with
    | zero => rfl
    | succ m => exact bind_eq_error.mpr (.inl (if_pos (h.exhausted (by omega))))
  | succ n ih =>
    obtain ⟨m, rfl⟩ : ∃ m', m = m' + 1 := Nat.exists_eq_add_one_of_ne_zero (by omega)
    rw [decompressLoop_succ, decompressLoop_succ]
    cases hstep : decompressStep p fetch r with
    | error e => rfl
    | ok x =>
      obtain ⟨goOn, r₁⟩ := x
      cases goOn with
      | false => rfl
      | true =>
        obtain ⟨_, hkeeps⟩ := decompressLoopInvariant p fetch bpu len r r₁
        have hnb := hinv.nb
        exact ih (hkeeps hinv hstep) (decompressStep_hasTaken h hstep) (by omega) (by omega)

end

/-- Settles O27: `decompressLoop_eq_of_le` after the first token, where the bound has the whole input left. -/
theorem iterationBoundSuffices : Obligations.IterationBoundSuffices := by
  intro p fetch bpu len n r r' hfirst hn
  obtain ⟨hinit, _⟩ := decompressLoopInvariant p fetch bpu len r r'
  refine decompressLoop_eq_of_le (hinit hfirst) (firstToken_hasTaken (decompressInit_hasTaken r) hfirst) ?_ hn
  unfold iterationBound
  omega

end Sys2Proof.Machine
end

section
/-! ### A decompress command that puts out known elements, and the stream whose first token ends it (R172, R202) -/

namespace Sys2Proof.Machine

/-! #### The command's end for what its run gives -/

/-- A run that puts out `v` ends its command with the result `v`, or with OUT_FULL. -/
theorem finishRun_putsOut {s : State} {v : Str} {x : Except Stop Run} (h : PutsOut s.params v x)
    (hlen : v.length < 2 ^ 32) :
    commandFrame s (finishRun s x) ∧ (v.length ≤ s.params.outCap → endsString (finishRun s x) v) ∧
      (s.params.outCap < v.length → endsError (finishRun s x) .outFull) := by
  obtain ⟨hfits, hfull⟩ := h
  rcases Nat.lt_or_ge s.params.outCap v.length with hv | hv
  · rw [hfull hv]
    exact ⟨complete_commandFrame _ s s.run, fun h => absurd hv (Nat.not_lt.mpr h), fun _ => complete_endsError _ s⟩
  · obtain ⟨r, rfl, hr⟩ := hfits hv
    exact ⟨complete_commandFrame _ s r, fun _ => complete_endsString hr hlen s, fun h => absurd h (Nat.not_lt.mpr hv)⟩

theorem exec_decompressOf_putsOut {s : State} {w v : Str} (adp : Adapter) (hin : hasInput s w)
    (hrun : PutsOut s.params v (runDecompress s.params adp s.inElem w.length s.run)) (hlen : v.length < 2 ^ 32) :
    ∃ t, exec (decompressOf adp false) s = .next t ∧ commandFrame s t ∧
      (v.length ≤ s.params.outCap → endsString t v) ∧ (s.params.outCap < v.length → endsError t .outFull) :=
  ⟨_, exec_decompressOf adp hin, finishRun_putsOut hrun hlen⟩

/-- An input that is not empty, nor a byte array of odd length, is given to the engine (R202, R217). -/
theorem runDecompress_eq_core {p : Params} {adp : Adapter} {IN : Nat → Elem} {n : Nat} (hn : 0 < n)
    (heven : adp = .bytes → n % 2 = 0) (r : Run) :
    runDecompress p adp IN n r = decompressCore p (decodeUnit adp IN) adp.bpu (unitCount adp n) r := by
  have hodd : ¬(adp = .bytes ∧ n % 2 = 1) := fun ⟨hadp, h1⟩ => by have := heven hadp; omega
  rw [runDecompress, if_neg (Nat.ne_of_gt hn), if_neg hodd]

theorem unitCount_pos {adp : Adapter} {n : Nat} (hn : 0 < n) (heven : adp = .bytes → n % 2 = 0) :
    0 < unitCount adp n := by
  cases adp with
  | bytes =>
    have := heven rfl
    exact Nat.div_pos (by omega) Nat.zero_lt_two
  | base64 => exact hn
  | utf16 => exact hn
  | uri => exact hn
  | plain => exact hn

/-! #### A first token that ends the run -/

theorem two_le_bpu_width (bpu : Bpu) : 2 ≤ bpu.width := by cases bpu <;> decide

/-- A first token of 2 or 3, which has its second bit set, ends the run with nothing put out (R172). -/
theorem decompressCore_empty {p : Params} {fetch : Nat → BitVec 16} {bpu : Bpu} {len : Nat} (hlen : 0 < len)
    (hbit : streamBit fetch bpu 1 = true) (r : Run) : PutsOut p [] (decompressCore p fetch bpu len r) := by
  have hin : 0 + 2 ≤ len * bpu.width := Nat.le_trans (two_le_bpu_width bpu) (Nat.le_mul_of_pos_left _ hlen)
  have hvalue : 2 ≤ streamNumber fetch bpu 0 2 :=
    Nat.ge_two_pow_of_testBit (i := 1) ((testBit_streamNumber fetch bpu 0 Nat.one_lt_two).trans hbit)
  have hread : readBits p fetch 2 (readerInit fetch bpu len) =
      .ok (streamNumber fetch bpu 0 2, readerAt fetch bpu len 2) := by
    rw [readerInit_eq_readerAt, readBits_readerAt_inside hin]
  have hfirst : firstToken p fetch (decompressInit fetch bpu len r) =
      .ok (false, (decompressInit fetch bpu len r).setR (readerAt fetch bpu len 2)) :=
    bind_eq_ok.mpr ⟨_, bind_eq_ok.mpr ⟨_, hread, rfl⟩, if_neg (by omega)⟩
  exact ⟨fun _ => ⟨_, bind_eq_ok.mpr ⟨_, hfirst, rfl⟩, rfl, nofun⟩, fun h => absurd h (Nat.not_lt_zero _)⟩

/-- The second stream bit is the second highest of unit 0 (R125). -/
theorem streamBit_one (fetch : Nat → BitVec 16) (bpu : Bpu) :
    streamBit fetch bpu 1 = (fetch 0).getLsbD (bpu.width - 2) := by cases bpu <;> rfl

/-- Settles O36: the input has a unit, and its second stream bit makes the first token end the run. -/
theorem decompressEmptyStream : Obligations.DecompressEmptyStream := by
  intro s adp hpos hcap heven hbit
  have hlen : s.input.length = s.latch.len.toNat := by simp [State.input]
  rw [← hlen] at hpos heven
  have hrun : PutsOut s.params [] (runDecompress s.params adp s.inElem s.input.length s.run) := by
    rw [runDecompress_eq_core hpos heven]
    exact decompressCore_empty (unitCount_pos hpos heven) ((streamBit_one _ _).trans hbit) _
  obtain ⟨t, ht, hframe, hend, _⟩ := exec_decompressOf_putsOut adp (hasInput_input hcap) hrun (by decide)
  exact ⟨t, ht, hend (Nat.zero_le _), hframe⟩

end Sys2Proof.Machine
end

section
/-! ### P_PAST_END matters only where a run would be truncated (R123, R127, R174) -/

namespace Sys2Proof.Machine

/-- The parameters with `P_PAST_END = NULL`. -/
def strictParams (p : Params) : Params := { p with pastEnd := .null }

/-- The run `x` is found truncated, or `y` is the same run. -/
def TruncatedOr {α : Type} (x y : Except Stop α) : Prop := x = .error (.null .truncated) ∨ x = y

theorem TruncatedOr.refl {α : Type} (x : Except Stop α) : TruncatedOr x x := .inr rfl

theorem TruncatedOr.bind {α β : Type} {x y : Except Stop α} {f g : α → Except Stop β} (h : TruncatedOr x y)
    (hf : ∀ a, TruncatedOr (f a) (g a)) : TruncatedOr (x >>= f) (y >>= g) := by
  rcases h with rfl | rfl
  · exact .inl rfl
  · cases x with
    | error e => exact .refl _
    | ok a => exact hf a

section
variable (p : Params) (fetch : Nat → BitVec 16)

theorem readBit_strict (r : Reader) : TruncatedOr (readBit (strictParams p) fetch r) (readBit p fetch r) := by
  by_cases hex : r.exhausted = true
  · exact .inl (if_pos ⟨hex, rfl⟩)
  · exact .inr ((if_neg fun h => hex h.1).trans (if_neg fun h => hex h.1).symm)

theorem readBitsFrom_strict (n i acc : Nat) (r : Reader) :
    TruncatedOr (readBitsFrom (strictParams p) fetch n i acc r) (readBitsFrom p fetch n i acc r) := by
  induction n generalizing i acc r with
  | zero => exact .refl _
  | succ n ih => exact (readBit_strict p fetch r).bind fun _ => ih _ _ _

theorem runBits_strict (n : Nat) (r : Run) :
    TruncatedOr (runBits (strictParams p) fetch n r) (runBits p fetch n r) :=
  (readBitsFrom_strict p fetch n 0 0 r.eng.r).bind fun _ => .refl _

theorem payload_strict (n : Nat) (r : Run) :
    TruncatedOr (payload (strictParams p) fetch n r) (payload p fetch n r) :=
  (runBits_strict p fetch _ r).bind fun _ => .refl _

theorem putOuts_strict (vs : Str) (r : Run) : putOuts (strictParams p) vs r = putOuts p vs r := by
  induction vs generalizing r with
  | nil => rfl
  | cons v vs ih => exact congrArg (putOut p v r >>= ·) (funext ih)

theorem firstToken_strict (r : Run) :
    TruncatedOr (firstToken (strictParams p) fetch r) (firstToken p fetch r) := by
  refine (runBits_strict p fetch 2 r).bind fun ⟨t, r₁⟩ => ?_
  by_cases ht : t = 0 ∨ t = 1
  · simp only [if_pos ht, putOuts_strict]
    exact (payload_strict p fetch t r₁).bind fun _ => .refl _
  · simp only [if_neg ht]
    exact .refl _

theorem literalCode_strict (n : Nat) (r : Run) :
    TruncatedOr (literalCode (strictParams p) fetch n r) (literalCode p fetch n r) := by
  by_cases hn : n = 0 ∨ n = 1
  · simp only [literalCode, if_pos hn]
    exact (payload_strict p fetch n r).bind fun _ => .refl _
  · simp only [literalCode, if_neg hn]
    exact .refl _

theorem emitEntry_strict (r : Run) : emitEntry (strictParams p) r = emitEntry p r :=
  congrArg (· >>= _) (putOuts_strict p r.eng.d.entry r)

theorem decompressStep_strict (r : Run) :
    TruncatedOr (decompressStep (strictParams p) fetch r) (decompressStep p fetch r) := by
  by_cases hex : r.eng.r.exhausted = true
  · exact .inl (if_pos hex)
  · simp only [decompressStep, if_neg hex, emitEntry_strict]
    refine (runBits_strict p fetch r.eng.d.nb r).bind fun ⟨n, r₁⟩ => ?_
    by_cases hn : n = 2
    · simp only [if_pos hn]
      exact .refl _
    · simp only [if_neg hn]
      exact (literalCode_strict p fetch n r₁).bind fun _ => .refl _

theorem decompressLoop_strict (n : Nat) (r : Run) :
    TruncatedOr (decompressLoop (strictParams p) fetch n r) (decompressLoop p fetch n r) := by
  induction n generalizing r with
  | zero => exact .refl _
  | succ n ih =>
    refine (decompressStep_strict p fetch r).bind fun ⟨goOn, r₁⟩ => ?_
    cases goOn with
    | true => exact ih r₁
    | false => exact .refl _

theorem decompressCore_strict (bpu : Bpu) (len : Nat) (r : Run) :
    TruncatedOr (decompressCore (strictParams p) fetch bpu len r) (decompressCore p fetch bpu len r) := by
  refine (firstToken_strict p fetch (decompressInit fetch bpu len r)).bind fun ⟨goOn, r₁⟩ => ?_
  cases goOn with
  | true => exact decompressLoop_strict p fetch _ r₁
  | false => exact .refl _

end

/-- Elements put out, or an OUT_MEM too small for them, are no truncation. -/
theorem PutsOut.of_strict {p : Params} {v : Str} {x y : Except Stop Run} (h : PutsOut (strictParams p) v x)
    (hxy : TruncatedOr x y) : PutsOut p v y := by
  obtain ⟨hfits, hfull⟩ := h
  rcases hxy with rfl | rfl
  · refine ⟨fun hv => ?_, fun hv => nomatch hfull hv⟩
    obtain ⟨r, hr, _⟩ := hfits hv
    exact nomatch hr
  · exact ⟨hfits, hfull⟩

/-- What a stream decodes to does not depend on P_PAST_END. -/
theorem Decoded.strict {p : Params} {bs : List Bool} {out : Str} {d : Decompressor} (h : Decoded p bs out d) :
    Decoded (strictParams p) bs out d := by
  induction h with
  | firstToken x => exact .firstToken x
  | token _ ht hcap ih => exact ih.token ht hcap

end Sys2Proof.Machine
end

section
/-! ### The decompress run on a whole stream (R172 to R180, R186) -/

namespace Sys2Proof.Machine

section
variable {p : Params} {fetch : Nat → BitVec 16} {bpu : Bpu} {len : Nat} {out : Str} {d : Decompressor} {r : Run}

/-- The End marker ends the loop with what has been put out (R176). -/
theorem decompressStep_endMarker {j : Nat} (hp : p.pastEnd = .null) (hr : r.At p fetch bpu len j out d)
    (hnb : 3 ≤ d.nb) (hfeed : FeedsAt fetch bpu len j (tokenBits d.nb .endOfStream))
    (hin : j + d.nb ≤ len * bpu.width) : ∃ r', decompressStep p fetch r = .ok (false, r') ∧ r'.Holds out := by
  have hfits : 2 < 2 ^ d.nb := Nat.lt_of_lt_of_le (by decide) (Nat.pow_le_pow_right (by decide) hnb)
  have hex : ¬r.eng.r.exhausted = true := by
    rw [hr.reader, exhausted_readerAt]; omega
  rcases runBits_field hp hr hfits hfeed with ⟨r', hread, hat⟩ | ⟨_, hend⟩
  · rw [← hr.registers] at hread
    exact ⟨r', (if_neg hex).trans (bind_eq_ok.mpr ⟨_, hread, rfl⟩), hat.holds⟩
  · exact absurd hin (Nat.not_le.mpr hend)

/-- Tokens and an End marker within the input decode to what the tokens stand for, for both values of P_PAST_END. -/
theorem decompressCore_tokens {bs : List Bool} (h : Decoded p bs out d)
    (hfeed : FeedsAt fetch bpu len 0 (bs ++ tokenBits d.nb .endOfStream))
    (hin : (bs ++ tokenBits d.nb .endOfStream).length ≤ len * bpu.width) :
    PutsOut p out (decompressCore p fetch bpu len r) := by
  refine PutsOut.of_strict ?_ (decompressCore_strict p fetch bpu len r)
  obtain ⟨hbs, hmarker⟩ := feedsAt_append hfeed
  have hlen : (tokenBits d.nb .endOfStream).length = d.nb := fieldBits_length _ _
  have hnb := h.nb
  rw [List.length_append, hlen] at hin
  rw [Nat.zero_add] at hmarker
  rcases decompressCore_decoded (r := r) h.strict rfl hbs with ⟨n, r₁, hcore, hat, hbound⟩ | ⟨_, hend⟩ | ⟨hcore, hfull⟩
  · obtain ⟨m, rfl⟩ : ∃ m, n = m + 1 := Nat.exists_eq_add_one_of_ne_zero (by omega)
    obtain ⟨r₂, hstep, hholds⟩ := decompressStep_endMarker rfl hat hnb hmarker hin
    rw [hcore]
    exact ⟨fun _ => ⟨r₂, bind_eq_ok.mpr ⟨_, hstep, rfl⟩, hholds⟩, fun hfull => absurd hat.room (Nat.not_le.mpr hfull)⟩
  · omega
  · exact ⟨fun hfits => absurd hfits (Nat.not_le.mpr hfull), fun _ => hcore⟩

/-- The stream of a compressed input decodes to the input (R186). -/
theorem decompressCore_streamOf {v : Str} {bs : List Bool} (h : StreamOf p v bs) (hfeed : FeedsAt fetch bpu len 0 bs)
    (hin : bs.length ≤ len * bpu.width) : PutsOut p v (decompressCore p fetch bpu len r) := by
  rcases h with ⟨rfl, rfl⟩ | ⟨tokens, d, hdec, rfl⟩
  · have hbits : 2 ≤ len * bpu.width := hin
    have hlen : 0 < len := Nat.pos_of_mul_pos_right (Nat.lt_of_lt_of_le Nat.zero_lt_two hbits)
    refine decompressCore_empty hlen ?_ r
    exact hfeed 1 Nat.one_lt_two (by omega)
  · exact decompressCore_tokens hdec hfeed hin

end

end Sys2Proof.Machine
end

section
/-! ### The round trip (R186), and the self-reference of one unit (R177, R187) -/

namespace Sys2Proof.Machine

/-! #### The stream in a compress result -/

/-- The flush completes the bits to chunks with zeros, whatever P_FLUSH_ALIGNED is (R106). -/
theorem flush_chunks {p : Params} {adp : Adapter} {bs : List Bool} {r r' : Run} (h : r.Packs p adp bs)
    (hflush : flush p adp r = .ok r') :
    ∃ (cs : List (List Bool)) (k : Nat), (∀ c ∈ cs, c.length = adp.bpu.width) ∧
      cs.flatten = bs ++ List.replicate k false ∧ r'.Holds ((cs.map packBits).flatMap (encodeUnit adp)) ∧
      r'.eng.oLen ≤ p.outCap := by
  by_cases hnone : r.eng.w.cnt = 0 ∧ p.flushAligned = .none
  · obtain ⟨cs, k, hcs, _, hflat, hholds, hcap⟩ := flush_packs h hnone.2 hflush
    exact ⟨cs, k, hcs, hflat, hholds, hcap⟩
  · have hcnt : r.eng.w.cnt < r.eng.w.bpu.width := by
      obtain ⟨_, _, _, _, hpacked, _⟩ := h
      rw [hpacked.cnt, hpacked.bpu]
      exact hpacked.lt
    rw [flush, if_neg hnone] at hflush
    obtain ⟨k, ⟨cs, ps, hcs, hbs, hpacked, hcap⟩, _⟩ := flushLoop_packs h hcnt hflush
    obtain ⟨hend, _⟩ := flushLoop_ok hcnt (Nat.le_add_left _ _) hflush
    obtain rfl : ps = [] := List.length_eq_zero_iff.mp (hpacked.cnt ▸ hend)
    exact ⟨cs, k, hcs, by simpa using hbs.symm, hpacked.holds, hcap⟩

/-- A compress run puts out the chunks of the stream, completed with zeros, and the framing. -/
theorem runCompress_chunks {p : Params} {adp : Adapter} {v : Str} {r r' : Run} (hcap : 4 ≤ p.dictCap)
    (h : runCompress p adp v r = .ok r') :
    ∃ (bs : List Bool) (cs : List (List Bool)) (k : Nat) (f : Str), StreamOf p v bs ∧
      (∀ c ∈ cs, c.length = adp.bpu.width) ∧ cs.flatten = bs ++ List.replicate k false ∧ IsFraming adp f ∧
      r'.Holds ((cs.map packBits).flatMap (encodeUnit adp) ++ f) ∧ r'.eng.oLen ≤ p.outCap := by
  obtain ⟨r₁, hcore, hframe⟩ := bind_eq_ok.mp h
  obtain ⟨bs, r₀, hbs, hpacks, hflush⟩ := compressCore_stream hcap hcore
  obtain ⟨cs, k, hcs, hflat, hholds, hroom⟩ := flush_chunks hpacks hflush
  obtain ⟨f, hf, hholds', hroom'⟩ := compressFraming_holds hholds hroom hframe
  exact ⟨bs, cs, k, f, hbs, hcs, hflat, hf, hholds', hroom'⟩

/-! #### The decompress run on it -/

/-- A stream that ends within the first units of an input is the longer input's too. -/
theorem FeedsAt.of_inside {fetch : Nat → BitVec 16} {bpu : Bpu} {len len' j : Nat} {bs : List Bool}
    (h : FeedsAt fetch bpu len j bs) (hin : j + bs.length ≤ len * bpu.width) : FeedsAt fetch bpu len' j bs :=
  fun i hi _ => h i hi (by omega)

/-- Framing comes after the units: it takes none of them away, and a byte array has none. -/
theorem unitCount_framed {adp : Adapter} {n : Nat} {f : Str} (hf : IsFraming adp f) :
    n ≤ unitCount adp (n * adp.unitLen + f.length) ∧ (adp = .bytes → (n * adp.unitLen + f.length) % 2 = 0) := by
  cases adp with
  | bytes =>
    rw [show f = [] from hf]
    exact ⟨(unitCount_mul .bytes n).ge, fun _ => Nat.mul_mod_left n 2⟩
  | base64 => exact ⟨Nat.le_add_right_of_le (Nat.mul_one n).ge, nofun⟩
  | utf16 => exact ⟨Nat.le_add_right_of_le (Nat.mul_one n).ge, nofun⟩
  | uri => exact ⟨Nat.le_add_right_of_le (Nat.mul_one n).ge, nofun⟩
  | plain => exact ⟨Nat.le_add_right_of_le (Nat.mul_one n).ge, nofun⟩

/-- The decompress run on the elements of a compressed input's stream, zeros and framing gives the input back (R186). -/
theorem runDecompress_chunks {p : Params} {adp : Adapter} {v f : Str} {bs : List Bool} {cs : List (List Bool)} {k : Nat}
    (hstream : StreamOf p v bs) (hcs : ∀ c ∈ cs, c.length = adp.bpu.width)
    (hflat : cs.flatten = bs ++ List.replicate k false) (hf : IsFraming adp f) {IN : Nat → Elem}
    (hin : ∀ i (h : i < ((cs.map packBits).flatMap (encodeUnit adp) ++ f).length),
      IN i = ((cs.map packBits).flatMap (encodeUnit adp) ++ f)[i]) (r : Run) :
    PutsOut p v (runDecompress p adp IN ((cs.map packBits).flatMap (encodeUnit adp) ++ f).length r) := by
  have hlen : ((cs.map packBits).flatMap (encodeUnit adp) ++ f).length = cs.length * adp.unitLen + f.length := by
    rw [List.length_append, flatMap_encodeUnit_length, List.length_map]
  have hbits : bs.length ≤ cs.length * adp.bpu.width := by
    rw [← length_flatten_of_length hcs, hflat, List.length_append]
    exact Nat.le_add_right _ _
  have hfeed : FeedsAt (decodeUnit adp IN) adp.bpu cs.length 0 (cs.flatten ++ []) := by
    refine feedsAt_encoded hcs (fun i hi => ?_) []
    rw [hin i (by rw [List.length_append]; omega), List.getElem_append_left hi]
  rw [List.append_nil, hflat] at hfeed
  obtain ⟨hfeed, _⟩ := feedsAt_append hfeed
  obtain ⟨hunits, heven⟩ := unitCount_framed (n := cs.length) hf
  have hpos : 0 < cs.length * adp.unitLen := by
    have hbs := List.length_pos_of_ne_nil hstream.ne_nil
    exact Nat.mul_pos (Nat.pos_of_mul_pos_right (Nat.lt_of_lt_of_le hbs hbits)) (by cases adp <;> decide)
  rw [hlen, runDecompress_eq_core (by omega) heven]
  exact decompressCore_streamOf hstream (hfeed.of_inside (by omega))
    (hbits.trans (Nat.mul_le_mul_right _ hunits))

/-- Settles O37: the result is the chunks of a stream that decodes to the input. -/
theorem roundTrip : Obligations.RoundTrip := by
  intro adp s₁ s₂ t₁ v hwf hparams hin₁ hexec herr hin₂
  obtain ⟨r, hrun, hview⟩ := exec_compressOf_result hwf hin₁ hexec herr
  obtain ⟨hdict, _⟩ := params_capacities hwf
  obtain ⟨bs, cs, k, f, hstream, hcs, hflat, hf, hholds, hroom⟩ := runCompress_chunks hdict hrun
  rw [hview _ hholds hroom] at hin₂
  have hlen : v.length < 2 ^ 32 := by
    obtain ⟨hlen, _⟩ := hin₁
    exact hlen ▸ s₁.latch.len.isLt
  have ⟨_, _, helem⟩ := hin₂
  refine exec_decompressOf_putsOut adp hin₂ ?_ hlen
  rw [hparams]
  exact runDecompress_chunks hstream hcs hflat hf helem _

/-! #### The self-reference -/

/-- The next free code straight after the first literal stands for its character twice (R177). -/
theorem reads_selfReference (x : Elem) : (Decompressor.afterFirst x).Reads (.dictCode 4) [x, x] where
  wf := rfl
  goesOn := nofun
  fits := show 4 < 2 ^ 3 by decide
  lookup := rfl

theorem decoded_selfReference {p : Params} (x : Elem) (hcap : 5 ≤ p.dictCap) :
    Decoded p (tokenBits 2 (literalOf x) ++ tokenBits 3 (.dictCode 4)) [x, x, x]
      ((Decompressor.afterFirst x).after (.dictCode 4) [x, x]) :=
  (Decoded.firstToken x).token (reads_selfReference x) hcap

/-- A unit of 16 bits holds a stream of 16 bits, the first highest (R103, R125). -/
theorem feedsAt_unit {fetch : Nat → BitVec 16} {bs : List Bool}
    (h : ∀ i, i < bs.length → (fetch 0).getLsbD (15 - i) = bs.getD i false) : FeedsAt fetch .sixteen 1 0 bs := by
  intro i hi hin
  rw [Nat.zero_add] at hin ⊢
  have hlt : i < 16 := hin
  rw [streamBit, ← h i hi]
  show (fetch (i / 16)).getLsbD (15 - i % 16) = _
  rw [Nat.div_eq_of_lt hlt, Nat.mod_eq_of_lt hlt]

/-- The unit of a literal below 256, the code 4 and the End marker at width 3, bit by bit. -/
theorem selfReference_bits {x u : Elem} (h15 : u.getLsbD 15 = false) (h14 : u.getLsbD 14 = false)
    (hx : ∀ k, k < 8 → u.getLsbD (13 - k) = x.getLsbD k) (hu : u.toNat % 64 = 0b001010) {i : Nat} (hi : i < 16) :
    u.getLsbD (15 - i) =
      ([false, false] ++ (fieldBits x.toNat 8 ++ [false, false, true, false, true, false])).getD i false := by
  have hlow : ∀ k, k < 6 → u.getLsbD k = Nat.testBit 0b001010 k := fun k hk => by
    rw [← hu, show 64 = 2 ^ 6 from rfl, Nat.testBit_mod_two_pow, decide_eq_true hk, Bool.true_and]
    rfl
  rcases Nat.lt_or_ge i 2 with h2 | h2
  · rw [List.getD_append _ _ _ _ h2]
    obtain rfl | rfl : i = 0 ∨ i = 1 := by omega
    · exact h15
    · exact h14
  rw [List.getD_append_right _ _ _ _ h2]
  obtain ⟨k, rfl⟩ := Nat.exists_eq_add_of_le h2
  show u.getLsbD (15 - (2 + k)) = (fieldBits x.toNat 8 ++ _).getD (2 + k - 2) false
  rw [Nat.add_sub_cancel_left, show 15 - (2 + k) = 13 - k by omega]
  rcases Nat.lt_or_ge k 8 with h8 | h8
  · rw [hx k h8, fieldBits_append_getD h8]
    rfl
  · rw [List.getD_append_right _ _ _ _ (by rwa [fieldBits_length]), fieldBits_length]
    obtain ⟨m, rfl⟩ := Nat.exists_eq_add_of_le h8
    have hm : m < 6 := by omega
    rw [Nat.add_sub_cancel_left, hlow _ (by omega)]
    clear * - hm
    revert m
    decide

/-- Settles O38: the unit's stream is the literal, the code 4 and the End marker, and decodes to `x` three times. -/
theorem decompressSelfReference : Obligations.DecompressSelfReference := by
  intro s x u hin hx hdict hout h15 h14 hbits hlow
  have ⟨_, _, helem⟩ := hin
  have hunit : decodeUnit .plain s.inElem 0 = u := helem 0 Nat.one_pos
  have hstream : tokenBits 2 (literalOf x) ++ tokenBits 3 (.dictCode 4) ++ tokenBits 3 .endOfStream =
      [false, false] ++ (fieldBits x.toNat 8 ++ [false, false, true, false, true, false]) := by
    rw [literalOf, if_pos hx]
    rfl
  have hlen : (tokenBits 2 (literalOf x) ++ tokenBits 3 (.dictCode 4) ++ tokenBits 3 .endOfStream).length = 16 := by
    rw [hstream]
    simp
  have hfeed : FeedsAt (decodeUnit .plain s.inElem) .sixteen 1 0
      (tokenBits 2 (literalOf x) ++ tokenBits 3 (.dictCode 4) ++ tokenBits 3 .endOfStream) := by
    refine feedsAt_unit fun i hi => ?_
    rw [hunit, hstream]
    exact selfReference_bits h15 h14 hbits hlow (hlen ▸ hi)
  have hrun : PutsOut s.params [x, x, x] (runDecompress s.params .plain s.inElem [u].length s.run) := by
    rw [List.length_singleton, runDecompress_eq_core (adp := .plain) Nat.one_pos nofun]
    exact decompressCore_tokens (decoded_selfReference x hdict) hfeed hlen.le
  obtain ⟨t, ht, hframe, hend, _⟩ := exec_decompressOf_putsOut .plain hin hrun (by simp)
  exact ⟨t, ht, hend hout, hframe⟩

end Sys2Proof.Machine
end

section
/-! ### The framing of a compress result, and what a NULL, an empty or an odd-length input gives (R202 to R204, R217) -/

namespace Sys2Proof.Machine

/-! #### The framing -/

/-- `putOuts` stops exactly where OUT_MEM has no room for all of its elements. -/
theorem putOuts_eq_error {p : Params} {vs : Str} {r : Run} {e : Stop} :
    putOuts p vs r = .error e ↔ vs ≠ [] ∧ p.outCap < r.eng.oLen + vs.length ∧ e = .err .outFull := by
  constructor
  · intro h
    refine ⟨fun hnil => ?_, ?_, putOuts_stop h⟩
    · rw [hnil] at h
      exact nomatch h
    · induction vs generalizing r with
      | nil => exact nomatch h
      | cons v vs ih =>
        rw [List.length_cons]
        rcases bind_eq_error.mp h with h | ⟨r₁, h1, h⟩
        · obtain ⟨hfull, _⟩ := putOut_eq_error.mp h
          omega
        · obtain ⟨_, rfl⟩ := putOut_eq_ok.mp h1
          have := ih h
          simp only at this
          omega
  · rintro ⟨hne, hfull, rfl⟩
    cases h : putOuts p vs r with
    | error e => rw [putOuts_stop h]
    | ok r' =>
      obtain ⟨heng, _, _, hcap, _⟩ := putOuts_ok h
      have := hcap hne
      rw [heng] at this
      exact absurd hfull (Nat.not_lt.mpr this)

theorem putOuts_room {p : Params} {vs : Str} {r : Run} (h : r.eng.oLen + vs.length ≤ p.outCap ∨ vs = []) :
    ∃ r', putOuts p vs r = .ok r' := by
  cases hput : putOuts p vs r with
  | ok r' => exact ⟨r', rfl⟩
  | error e =>
    obtain ⟨hne, hfull, _⟩ := putOuts_eq_error.mp hput
    exact absurd hfull (Nat.not_lt.mpr (h.resolve_right hne))

/-- Settles O29: the padding is `k` times `=`, put out by `putOuts`. -/
theorem base64Padding : Obligations.Base64Padding := by
  intro p r k
  have hpad : framingOf .base64 r.eng.oLen = List.replicate k 0x3D#16 :=
    congrArg (List.replicate · 0x3D#16) (by split <;> omega)
  have hlen : (List.replicate k 0x3D#16).length = k := List.length_replicate
  rw [compressFraming_eq_putOuts, hpad]
  refine ⟨fun hroom => ?_, fun hfull hk => putOuts_eq_error.mpr ⟨?_, by rwa [hlen], rfl⟩, rfl⟩
  · obtain ⟨r', hput⟩ := putOuts_room (vs := List.replicate k 0x3D#16) (r := r) (p := p)
      (by rwa [hlen, List.replicate_eq_nil_iff])
    obtain ⟨heng, hnew, hold, _, _⟩ := putOuts_ok hput
    rw [hlen] at heng hnew hold
    refine ⟨r', hput, by rw [heng], by rw [heng]; show (r.eng.oLen + k) % 4 = 0; omega, fun j hj hjk => ?_, hold⟩
    obtain ⟨i, rfl⟩ := Nat.exists_eq_add_of_le hj
    rw [hnew i (by omega), List.getD_replicate _ (by omega)]
  · exact fun hnil => Nat.ne_of_gt hk ((List.replicate_eq_nil_iff _).mp hnil)

/-- Settles O30: the trailer is one element put out by `putOuts`. -/
theorem utf16Trailer : Obligations.Utf16Trailer := by
  intro p r
  refine ⟨fun hroom => ?_, fun hfull => putOuts_eq_error.mpr ⟨List.cons_ne_nil _ _, Nat.lt_succ_of_le hfull, rfl⟩⟩
  obtain ⟨r', hput⟩ := putOuts_room (vs := [0x0020#16]) (.inl hroom)
  obtain ⟨heng, hnew, hold, _, _⟩ := putOuts_ok hput
  exact ⟨r', hput, by rw [heng]; rfl, hnew 0 Nat.one_pos,
    fun j hj => hold j (by rw [List.length_singleton]; omega)⟩

/-! #### NULL, empty and odd-length inputs -/

/-- A NULL input gives "" (R202), and leaves alone what every completion does. -/
theorem execute_null (run : Except Stop Run) (s : State) :
    endsString (execute true run s) [] ∧ commandFrame s (execute true run s) :=
  ⟨⟨⟨rfl, rfl, rfl, rfl, rfl, rfl⟩, rfl, rfl⟩, complete_commandFrame (.str 0) s s.run⟩

/-- A decompress command whose run stops with a cause ends with NULL. -/
theorem exec_decompressOf_null {s : State} {w : Str} {c : NCause} (adp : Adapter) (hin : hasInput s w)
    (hrun : runDecompress s.params adp s.inElem w.length s.run = .error (.null c)) :
    ∃ t, exec (decompressOf adp false) s = .next t ∧ endsNull t c ∧ commandFrame s t := by
  refine ⟨_, exec_decompressOf adp hin, ?_⟩
  rw [hrun]
  exact ⟨complete_endsNull c s, complete_commandFrame (.null c) s s.run⟩

/-- Settles O31: a NULL input is looked at before everything else, and the other two before the engine runs. -/
theorem nullEmptyContract : Obligations.NullEmptyContract := by
  intro s adp
  refine ⟨⟨_, exec_compressOf_eq adp true s, execute_null _ s⟩, ⟨_, exec_decompressOf_eq adp true s, execute_null _ s⟩,
    fun hlen => ?_, fun hodd hcap => ?_⟩
  · have hin : hasInput s [] := ⟨by rw [hlen]; rfl, Nat.zero_le _, nofun⟩
    exact exec_decompressOf_null adp hin (runDecompress_nil _ _ _ _)
  · have hlen : s.input.length = s.latch.len.toNat := by simp [State.input]
    refine exec_decompressOf_null .bytes (hasInput_input hcap) ?_
    rw [hlen, runDecompress, if_neg (by omega), if_pos ⟨rfl, hodd⟩]

end Sys2Proof.Machine
end

section
/-! ### Two runs side by side: related as far as both go, and stopped alike where they run under the same conditions -/

namespace Sys2Proof.Machine

/-- Two computations give related values where both succeed, and under `same` they stop alike. -/
def Agree {α β : Type} (same : Prop) (R : α → β → Prop) (x : Except Stop α) (y : Except Stop β) : Prop :=
  (∀ a b, x = .ok a → y = .ok b → R a b) ∧ (same → ∀ e, x = .error e ↔ y = .error e)

section
variable {α β γ δ : Type} {same : Prop} {R : α → β → Prop} {Q : γ → δ → Prop}

theorem Agree.ok {a : α} {b : β} (h : R a b) : Agree same R (.ok a) (.ok b) :=
  ⟨fun _ _ ha hb => by cases ha; cases hb; exact h, fun _ _ => ⟨nofun, nofun⟩⟩

theorem Agree.error (e : Stop) : Agree same R (.error e) (.error e) :=
  ⟨nofun, fun _ _ => by rw [Except.error.injEq, Except.error.injEq]⟩

theorem Agree.refl (x : Except Stop α) : Agree same Eq x x :=
  ⟨fun _ _ ha hb => Except.ok.inj (ha.symm.trans hb), fun _ _ => Iff.rfl⟩

theorem Agree.imp {R' : α → β → Prop} {x : Except Stop α} {y : Except Stop β} (h : Agree same R x y)
    (hR : ∀ a b, R a b → R' a b) : Agree same R' x y :=
  ⟨fun a b ha hb => hR a b (h.1 a b ha hb), h.2⟩

theorem Agree.bind {x : Except Stop α} {y : Except Stop β} {f : α → Except Stop γ} {g : β → Except Stop δ}
    (h : Agree same R x y) (hf : ∀ a b, R a b → Agree same Q (f a) (g b)) : Agree same Q (x >>= f) (y >>= g) := by
  obtain ⟨hok, herr⟩ := h
  cases x with
  | ok a =>
    cases y with
    | ok b => exact hf a b (hok a b rfl rfl)
    | error e => exact ⟨nofun, fun hs => nomatch (herr hs e).mpr rfl⟩
  | error e =>
    cases y with
    | ok b => exact ⟨nofun, fun hs => nomatch (herr hs e).mp rfl⟩
    | error e' =>
      refine ⟨nofun, fun hs => ?_⟩
      cases (herr hs e).mp rfl
      exact (Agree.error (same := same) (R := Q) e).2 hs

end

/-- Two parameter sets have the same values where an engine run reads them (R206). -/
structure SameRunParams (p q : Params) : Prop where
  outCap : p.outCap = q.outCap
  dictCap : p.dictCap = q.dictCap
  pastEnd : p.pastEnd = q.pastEnd
  flushAligned : p.flushAligned = q.flushAligned

theorem SameRunParams.refl (p : Params) : SameRunParams p p := ⟨rfl, rfl, rfl, rfl⟩

/-- Two runs have put out the same elements, which fit OUT_MEM. -/
def Run.SameOut (p : Params) (r₁ r₂ : Run) : Prop := ∃ vs, r₁.Holds vs ∧ r₂.Holds vs ∧ vs.length ≤ p.outCap

theorem putOuts_sameOut {p₁ p₂ : Params} {same : Prop} (hp : SameRunParams p₁ p₂) {r₁ r₂ : Run} (h : r₁.SameOut p₁ r₂)
    (ws : Str) : Agree same (Run.SameOut p₁) (putOuts p₁ ws r₁) (putOuts p₂ ws r₂) := by
  obtain ⟨vs, h₁, h₂, hroom⟩ := h
  constructor
  · intro a b ha hb
    obtain ⟨hholds₁, hroom₁⟩ := h₁.putOuts (h₁.1.trans_le hroom) ha
    obtain ⟨hholds₂, _⟩ := h₂.putOuts (h₂.1.trans_le (hp.outCap ▸ hroom)) hb
    exact ⟨vs ++ ws, hholds₁, hholds₂, hholds₁.1 ▸ hroom₁⟩
  · intro _ e
    rw [putOuts_eq_error, putOuts_eq_error, h₁.1, h₂.1, hp.outCap]

end Sys2Proof.Machine
end

section
/-! ### Two compress runs on one input: the same units, in each adapter's elements (R109, R142 to R152, R206, R208) -/

namespace Sys2Proof.Machine

/-! #### What one run has put out -/

/-- What has been put out is the units' elements (R108). -/
theorem Run.Packs.holds {p : Params} {adp : Adapter} {bs : List Bool} {r : Run} (h : r.Packs p adp bs) :
    r.Holds (r.eng.w.out.flatMap (encodeUnit adp)) ∧ (∀ u ∈ r.eng.w.out, u.toNat < 2 ^ adp.bpu.width) ∧
      r.eng.oLen ≤ p.outCap := by
  obtain ⟨cs, ps, hcs, _, hpacked, hcap⟩ := h
  rw [hpacked.out]
  exact ⟨hpacked.holds, map_packBits_lt hcs (bpu_width_le _), hcap⟩

theorem Run.Packs.oLen {p : Params} {adp : Adapter} {bs : List Bool} {r : Run} (h : r.Packs p adp bs) :
    r.eng.oLen = r.eng.w.out.length * adp.unitLen := by
  obtain ⟨⟨hlen, _⟩, _⟩ := h.holds
  rw [hlen, flatMap_encodeUnit_length]

/-- A bit stops the run exactly where it fills a unit that OUT_MEM has no room for. -/
theorem emitBit_eq_error {p : Params} {adp : Adapter} {b : Bool} {r : Run} {e : Stop} :
    emitBit p adp b r = .error e ↔
      r.eng.w.cnt = r.eng.w.bpu.width - 1 ∧ p.outCap < r.eng.oLen + adp.unitLen ∧ e = .err .outFull := by
  have hunit : ∀ u, encodeUnit adp u ≠ [] := fun u => by cases adp <;> exact List.cons_ne_nil _ _
  unfold emitBit
  split
  · next hfull =>
    simp only [putUnit, bind_eq_error, putOuts_eq_error, encodeUnit_length, hfull]
    simp [hunit, pure, Except.pure]
  · next hpend => exact ⟨nofun, fun ⟨hfull, _⟩ => absurd hfull hpend⟩

/-! #### Two runs -/

/-- Two compress runs stand at the same place: the Compress Engine's and the Bit Writer's registers are the same, and
each has put out its adapter's elements of the units. -/
structure Run.Twin (p₁ p₂ : Params) (adp₁ adp₂ : Adapter) (r₁ r₂ : Run) : Prop where
  compressor : r₁.eng.c = r₂.eng.c
  writer : r₁.eng.w = r₂.eng.w
  left : ∃ bs, r₁.Packs p₁ adp₁ bs
  right : ∃ bs, r₂.Packs p₂ adp₂ bs

section
variable {p₁ p₂ : Params} {adp₁ adp₂ : Adapter} {r₁ r₂ : Run}

theorem Run.Twin.setC (h : Run.Twin p₁ p₂ adp₁ adp₂ r₁ r₂) (c : Compressor) :
    Run.Twin p₁ p₂ adp₁ adp₂ (r₁.setC c) (r₂.setC c) :=
  ⟨rfl, h.writer, h.left.imp fun _ hpacks => hpacks.setC c, h.right.imp fun _ hpacks => hpacks.setC c⟩

theorem compressInit_twin (hbpu : adp₁.bpu = adp₂.bpu) (r₁ r₂ : Run) :
    Run.Twin p₁ p₂ adp₁ adp₂ (compressInit adp₁.bpu r₁) (compressInit adp₂.bpu r₂) where
  compressor := rfl
  writer := congrArg (fun bpu => Writer.mk bpu 0#16 0 []) hbpu
  left := ⟨[], (writerInit_packs p₁ adp₁ r₁).setC _⟩
  right := ⟨[], (writerInit_packs p₂ adp₂ r₂).setC _⟩

/-- The Bit Writer's registers after a bit depend on those before it alone. -/
theorem emitBit_writer {b : Bool} {a₁ a₂ : Run} (hw : r₁.eng.w = r₂.eng.w) (h₁ : emitBit p₁ adp₁ b r₁ = .ok a₁)
    (h₂ : emitBit p₂ adp₂ b r₂ = .ok a₂) : a₁.eng.w = a₂.eng.w := by
  rcases emitBit_ok h₁ with ⟨hfull₁, _, _, rfl⟩ | ⟨hpend₁, rfl⟩ <;>
    rcases emitBit_ok h₂ with ⟨hfull₂, _, _, rfl⟩ | ⟨hpend₂, rfl⟩
  · simp only [Run.setW, hw]
  · exact absurd (hw ▸ hfull₁) hpend₂
  · exact absurd (hw ▸ hfull₂) hpend₁
  · simp only [Run.setW, hw]

variable (hp : SameRunParams p₁ p₂)
include hp

theorem emitBit_twin (h : Run.Twin p₁ p₂ adp₁ adp₂ r₁ r₂) (b : Bool) :
    Agree (adp₁ = adp₂) (Run.Twin p₁ p₂ adp₁ adp₂) (emitBit p₁ adp₁ b r₁) (emitBit p₂ adp₂ b r₂) := by
  obtain ⟨hc, hw, ⟨bs₁, hpacks₁⟩, ⟨bs₂, hpacks₂⟩⟩ := h
  constructor
  · intro a₁ a₂ h₁ h₂
    refine ⟨?_, emitBit_writer hw h₁ h₂, ⟨_, emitBit_packs hpacks₁ h₁⟩, ⟨_, emitBit_packs hpacks₂ h₂⟩⟩
    rw [(emitBit_wrote h₁).compressor, (emitBit_wrote h₂).compressor, hc]
  · rintro rfl e
    rw [emitBit_eq_error, emitBit_eq_error, hpacks₁.oLen, hpacks₂.oLen, hw, hp.outCap]

theorem emitBits_twin (h : Run.Twin p₁ p₂ adp₁ adp₂ r₁ r₂) (bs : List Bool) :
    Agree (adp₁ = adp₂) (Run.Twin p₁ p₂ adp₁ adp₂) (emitBits p₁ adp₁ bs r₁) (emitBits p₂ adp₂ bs r₂) := by
  induction bs generalizing r₁ r₂ with
  | nil => exact .ok h
  | cons b bs ih => exact (emitBit_twin hp h b).bind fun _ _ h' => ih h'

theorem emitToken_twin (h : Run.Twin p₁ p₂ adp₁ adp₂ r₁ r₂) (nb : Nat) (t : Token) :
    Agree (adp₁ = adp₂) (Run.Twin p₁ p₂ adp₁ adp₂) (emitToken p₁ adp₁ nb t r₁) (emitToken p₂ adp₂ nb t r₂) := by
  rw [emitToken_eq_emitBits, emitToken_eq_emitBits]
  exact emitBits_twin hp h _

theorem flushLoop_twin (h : Run.Twin p₁ p₂ adp₁ adp₂ r₁ r₂) (n : Nat) :
    Agree (adp₁ = adp₂) (Run.Twin p₁ p₂ adp₁ adp₂) (flushLoop p₁ adp₁ n r₁) (flushLoop p₂ adp₂ n r₂) := by
  induction n generalizing r₁ r₂ with
  | zero => exact .ok h
  | succ n ih =>
    simp only [flushLoop, h.writer]
    refine (emitBit_twin hp h false).bind fun a₁ a₂ h' => ?_
    by_cases hlast : r₂.eng.w.cnt = r₂.eng.w.bpu.width - 1
    · simp only [decide_eq_true hlast]
      exact .ok h'
    · simp only [decide_eq_false hlast]
      exact ih h'

theorem flush_twin (h : Run.Twin p₁ p₂ adp₁ adp₂ r₁ r₂) :
    Agree (adp₁ = adp₂) (Run.Twin p₁ p₂ adp₁ adp₂) (flush p₁ adp₁ r₁) (flush p₂ adp₂ r₂) := by
  rw [flush, flush, h.writer, hp.flushAligned]
  split
  · exact .ok h
  · exact flushLoop_twin hp h _

theorem emitPhrase_twin (h : Run.Twin p₁ p₂ adp₁ adp₂ r₁ r₂) :
    Agree (adp₁ = adp₂) (Run.Twin p₁ p₂ adp₁ adp₂) (emitPhrase p₁ adp₁ r₁) (emitPhrase p₂ adp₂ r₂) := by
  rw [emitPhrase, emitPhrase, h.compressor]
  exact (emitToken_twin hp h _ _).bind fun _ _ h' => .ok (h'.setC _)

omit r₁ r₂ in
theorem register_congr (x : Elem) (c : Compressor) : register p₁ x c = register p₂ x c := by
  simp only [register, allocCode, hp.dictCap]

theorem extendOrEmit_twin (h : Run.Twin p₁ p₂ adp₁ adp₂ r₁ r₂) (x : Elem) :
    Agree (adp₁ = adp₂) (Run.Twin p₁ p₂ adp₁ adp₂) (extendOrEmit p₁ adp₁ x r₁) (extendOrEmit p₂ adp₂ x r₂) := by
  simp only [extendOrEmit, h.compressor]
  split
  · exact .ok (h.setC _)
  · refine (emitPhrase_twin hp h).bind fun a₁ a₂ h' => ?_
    simp only [insertCandidate, allocCode, hp.dictCap, h'.compressor]
    refine (Agree.refl _).bind ?_
    rintro c _ rfl
    exact .ok (h'.setC c)

theorem compressStep_twin (h : Run.Twin p₁ p₂ adp₁ adp₂ r₁ r₂) (x : Elem) :
    Agree (adp₁ = adp₂) (Run.Twin p₁ p₂ adp₁ adp₂) (compressStep p₁ adp₁ x r₁) (compressStep p₂ adp₂ x r₂) := by
  rw [compressStep, compressStep, h.compressor, register_congr hp]
  refine (Agree.refl _).bind ?_
  rintro c _ rfl
  refine (extendOrEmit_twin hp (h.setC c) x).bind fun a₁ a₂ h' => ?_
  rw [h'.compressor]
  exact .ok (h'.setC _)

theorem compressLoop_twin (h : Run.Twin p₁ p₂ adp₁ adp₂ r₁ r₂) (v : Str) :
    Agree (adp₁ = adp₂) (Run.Twin p₁ p₂ adp₁ adp₂) (compressLoop p₁ adp₁ v r₁) (compressLoop p₂ adp₂ v r₂) := by
  induction v generalizing r₁ r₂ with
  | nil => exact .ok h
  | cons x xs ih => exact (compressStep_twin hp h x).bind fun _ _ h' => ih h'

theorem emitLastPhrase_twin (h : Run.Twin p₁ p₂ adp₁ adp₂ r₁ r₂) :
    Agree (adp₁ = adp₂) (Run.Twin p₁ p₂ adp₁ adp₂) (emitLastPhrase p₁ adp₁ r₁) (emitLastPhrase p₂ adp₂ r₂) := by
  rw [emitLastPhrase, emitLastPhrase, h.compressor]
  split
  · exact emitPhrase_twin hp h
  · exact .ok h

theorem compressFinish_twin (h : Run.Twin p₁ p₂ adp₁ adp₂ r₁ r₂) :
    Agree (adp₁ = adp₂) (Run.Twin p₁ p₂ adp₁ adp₂) (compressFinish p₁ adp₁ r₁) (compressFinish p₂ adp₂ r₂) := by
  refine (emitLastPhrase_twin hp h).bind fun a₁ a₂ h' => ?_
  rw [h'.compressor]
  exact (emitToken_twin hp h' _ _).bind fun _ _ h'' => flush_twin hp h''

omit r₁ r₂ in
/-- Compressing one input for two adapters with the same unit width gives the same units, whatever was in the
registers and in OUT_MEM before. -/
theorem compressCore_twin (hbpu : adp₁.bpu = adp₂.bpu) (v : Str) (r₁ r₂ : Run) :
    Agree (adp₁ = adp₂) (Run.Twin p₁ p₂ adp₁ adp₂) (compressCore p₁ adp₁ v r₁) (compressCore p₂ adp₂ v r₂) :=
  (compressLoop_twin hp (compressInit_twin hbpu r₁ r₂) v).bind fun _ _ h => compressFinish_twin hp h

end

end Sys2Proof.Machine
end

section
/-! ### The results of two adapters compared, and the elements of a shifted-UTF16 result (R208) -/

namespace Sys2Proof.Machine

/-! #### The units of a result -/

/-- A compress command without an error had an input that fits IN_MEM (R240, R267). -/
theorem hasInput_of_no_error {s t : State} {adp : Adapter} (hexec : exec (compressOf adp false) s = .next t)
    (herr : t.status.err = .none) : hasInput s s.input := by
  refine hasInput_input (Nat.not_lt.mp fun hlong => ?_)
  cases hexec.symm.trans (exec_compressOf_eq adp false s)
  rw [executeCompress, execute, if_neg Bool.false_ne_true, if_pos hlong] at herr
  exact nomatch herr

/-- The result of a compress command is its units' elements and the framing (R109, R200). -/
theorem exec_compressOf_units {s t : State} {adp : Adapter} (hwf : s.params.wf = true)
    (hexec : exec (compressOf adp false) s = .next t) (herr : t.status.err = .none) :
    ∃ r, compressCore s.params adp s.input s.run = .ok r ∧ (∀ u ∈ r.eng.w.out, u.toNat < 2 ^ adp.bpu.width) ∧
      t.resultView = r.eng.w.out.flatMap (encodeUnit adp) ++
        framingOf adp (r.eng.w.out.flatMap (encodeUnit adp)).length := by
  obtain ⟨r', hrun, hview⟩ := exec_compressOf_result hwf (hasInput_of_no_error hexec herr) hexec herr
  obtain ⟨r, hcore, hframe⟩ := bind_eq_ok.mp hrun
  obtain ⟨_, _, ⟨bs, hpacks⟩, _⟩ := (compressCore_twin (.refl _) rfl s.input s.run s.run).1 r r hcore hcore
  obtain ⟨hholds, hunits, hroom⟩ := hpacks.holds
  rw [compressFraming_eq_putOuts, hholds.1] at hframe
  obtain ⟨hholds', hroom'⟩ := hholds.putOuts hroom hframe
  exact ⟨r, hcore, hunits, hview _ hholds' hroom'⟩

/-- Two adapters with the same unit width give the same units. -/
theorem exec_compressOf_same_units {s t₁ t₂ : State} {adp₁ adp₂ : Adapter} (hbpu : adp₁.bpu = adp₂.bpu)
    (hwf : s.params.wf = true) (hexec₁ : exec (compressOf adp₁ false) s = .next t₁)
    (hexec₂ : exec (compressOf adp₂ false) s = .next t₂) (herr₁ : t₁.status.err = .none)
    (herr₂ : t₂.status.err = .none) :
    ∃ us : List (BitVec 16), (∀ u ∈ us, u.toNat < 2 ^ adp₁.bpu.width) ∧
      t₁.resultView = us.flatMap (encodeUnit adp₁) ++ framingOf adp₁ (us.flatMap (encodeUnit adp₁)).length ∧
      t₂.resultView = us.flatMap (encodeUnit adp₂) ++ framingOf adp₂ (us.flatMap (encodeUnit adp₂)).length := by
  obtain ⟨r₁, hcore₁, hunits, hview₁⟩ := exec_compressOf_units hwf hexec₁ herr₁
  obtain ⟨r₂, hcore₂, _, hview₂⟩ := exec_compressOf_units hwf hexec₂ herr₂
  have htwin := (compressCore_twin (.refl _) hbpu s.input s.run s.run).1 r₁ r₂ hcore₁ hcore₂
  rw [← htwin.writer] at hview₂
  exact ⟨r₁.eng.w.out, hunits, hview₁, hview₂⟩

/-! #### The obligations -/

/-- The byte array's two elements of a unit are its bytes, the high one first (R69). -/
theorem encodeUnit_bytes (u : BitVec 16) :
    encodeUnit .bytes u = [BitVec.ofNat 16 (u.toNat / 256), BitVec.ofNat 16 (u.toNat % 256)] := by
  have hhigh : (u.extractLsb' 8 8).setWidth 16 = BitVec.ofNat 16 (u.toNat / 256) :=
    BitVec.eq_of_toNat_eq (by simp [Nat.shiftRight_eq_div_pow]; omega)
  have hlow : (u.extractLsb' 0 8).setWidth 16 = BitVec.ofNat 16 (u.toNat % 256) :=
    BitVec.eq_of_toNat_eq (by simp)
  rw [encodeUnit, hhigh, hlow]

/-- Settles O41: neither adapter has framing, and the plain string's elements are the units. -/
theorem byteArrayIsPlainStringSplit : Obligations.ByteArrayIsPlainStringSplit := by
  intro s t₁ t₂ hwf hexec₁ hexec₂ herr₁ herr₂
  obtain ⟨us, _, hview₁, hview₂⟩ :=
    exec_compressOf_same_units (adp₁ := .bytes) (adp₂ := .plain) rfl hwf hexec₁ hexec₂ herr₁ herr₂
  have hplain : us.flatMap (encodeUnit .plain) = us := List.flatMap_singleton' us
  rw [hview₁, hview₂, hplain, framingOf, framingOf, List.append_nil, List.append_nil]
  exact List.flatMap_congr fun u _ => encodeUnit_bytes u

/-- The two alphabets differ at index 63 alone, `/` against `-` (R110, R111). -/
theorem uriTab_eq_b64Tab {k : Nat} (hk : k < 64) :
    (if tabAt b64Tab k = 0x2F#16 then 0x2D#16 else tabAt b64Tab k) = tabAt uriTab k := by
  revert k
  decide

/-- Settles O42: the padding completes the length to a multiple of 4, no unit is written as `=`, and the units are
characters at the same indices of the two alphabets. -/
theorem base64AndUriSafeAgree : Obligations.Base64AndUriSafeAgree := by
  intro s t₁ t₂ hwf hexec₁ hexec₂ herr₁ herr₂
  obtain ⟨us, hus, hview₁, hview₂⟩ :=
    exec_compressOf_same_units (adp₁ := .base64) (adp₂ := .uri) rfl hwf hexec₁ hexec₂ herr₁ herr₂
  rw [hview₁, hview₂]
  constructor
  · rw [List.length_append, framingOf, List.length_replicate]
    split <;> omega
  · have hpad : ∀ n, (framingOf .base64 n).filter (· ≠ 0x3D#16) = [] := fun n => by simp [framingOf]
    rw [List.filter_append, filter_encodeUnit_base64 hus, hpad, List.append_nil, List.map_flatMap, framingOf,
      List.append_nil]
    exact List.flatMap_congr fun u hu => congrArg ([·]) (uriTab_eq_b64Tab (hus u hu))

/-- Settles O43: the trailer is the last element, and the others are in the range O22 gives a unit's element. -/
theorem utf16ElementRange : Obligations.Utf16ElementRange := by
  intro s t hwf hexec herr
  obtain ⟨r, _, hunits, hview⟩ := exec_compressOf_units (adp := .utf16) hwf hexec herr
  refine ⟨_, hview, fun e he => ?_⟩
  obtain ⟨u, hu, he⟩ := List.mem_flatMap.mp he
  exact (alphabetDecodeUndoesEncode .utf16 u (hunits u hu)).2 e he

end Sys2Proof.Machine
end

section
/-! ### Two decompress runs on one input: the same elements, whatever was in the registers before (R170 to R187, R206) -/

namespace Sys2Proof.Machine

/-- Two decompress runs stand at the same place of an input of `len` units: the Bit Reader's and the Decompress
Engine's registers are the same, and so are the elements put out. -/
structure Run.ReadsAlike (p : Params) (len : Nat) (r₁ r₂ : Run) : Prop where
  reader : r₁.eng.r = r₂.eng.r
  len : r₂.eng.r.len = len
  decompressor : r₁.eng.d = r₂.eng.d
  out : r₁.SameOut p r₂

/-- The same value, and runs that stand at the same place. -/
def ValueAndRunsAlike {α : Type} (p : Params) (len : Nat) (x y : α × Run) : Prop :=
  x.1 = y.1 ∧ Run.ReadsAlike p len x.2 y.2

section
variable {p₁ p₂ : Params} {fetch₁ fetch₂ : Nat → BitVec 16} {len : Nat} {r₁ r₂ : Run}

theorem Run.ReadsAlike.setR (h : Run.ReadsAlike p₁ len r₁ r₂) {rd : Reader} (hlen : rd.len = len) :
    Run.ReadsAlike p₁ len (r₁.setR rd) (r₂.setR rd) :=
  ⟨rfl, hlen, h.decompressor, h.out⟩

theorem Run.ReadsAlike.setD (h : Run.ReadsAlike p₁ len r₁ r₂) (d : Decompressor) :
    Run.ReadsAlike p₁ len (r₁.setD d) (r₂.setD d) :=
  ⟨h.reader, h.len, rfl, h.out⟩

theorem readBit_len {p : Params} {fetch : Nat → BitVec 16} {rd rd' : Reader} {b : Bool}
    (h : readBit p fetch rd = .ok (b, rd')) : rd'.len = rd.len := by
  rcases readBit_cases h with ⟨_, _, h⟩ | ⟨_, rd₁, h, ⟨_, rfl⟩ | ⟨_, rfl⟩⟩ <;> cases h <;> rfl

theorem decompressInit_readsAlike (hfetch : fetchUnit fetch₁ len = fetchUnit fetch₂ len) (bpu : Bpu) (r₁ r₂ : Run) :
    Run.ReadsAlike p₁ len (decompressInit fetch₁ bpu len r₁) (decompressInit fetch₂ bpu len r₂) where
  reader := by simp only [decompressInit, readerInit, hfetch]
  len := rfl
  decompressor := rfl
  out := ⟨[], ⟨rfl, nofun⟩, ⟨rfl, nofun⟩, Nat.zero_le _⟩

variable (hp : SameRunParams p₁ p₂)
include hp

theorem putOuts_alike (h : Run.ReadsAlike p₁ len r₁ r₂) (vs : Str) :
    Agree True (Run.ReadsAlike p₁ len) (putOuts p₁ vs r₁) (putOuts p₂ vs r₂) := by
  obtain ⟨hok, hstop⟩ := putOuts_sameOut (same := True) hp h.out vs
  refine ⟨fun a b ha hb => ⟨?_, ?_, ?_, hok a b ha hb⟩, hstop⟩
  · rw [(putOuts_wrote ha).reader, (putOuts_wrote hb).reader, h.reader]
  · rw [(putOuts_wrote hb).reader, h.len]
  · rw [(putOuts_wrote ha).decompressor, (putOuts_wrote hb).decompressor, h.decompressor]

omit r₁ r₂ in
theorem addEntry_congr (e : Str) (d : Decompressor) : addEntry p₁ e d = addEntry p₂ e d := by
  simp only [addEntry, allocCode, hp.dictCap]

theorem emitEntry_alike (h : Run.ReadsAlike p₁ len r₁ r₂) :
    Agree True (Run.ReadsAlike p₁ len) (emitEntry p₁ r₁) (emitEntry p₂ r₂) := by
  rw [emitEntry, emitEntry, h.decompressor]
  refine (putOuts_alike hp h _).bind fun a b hab => ?_
  rw [hab.decompressor, addEntry_congr hp]
  refine (Agree.refl _).bind ?_
  rintro x _ rfl
  exact .ok (hab.setD _)

variable (hfetch : fetchUnit fetch₁ len = fetchUnit fetch₂ len)
include hfetch

omit r₁ r₂ in
theorem readBit_congr {rd : Reader} (hlen : rd.len = len) : readBit p₁ fetch₁ rd = readBit p₂ fetch₂ rd := by
  simp only [readBit, hp.pastEnd, hlen, hfetch]

omit r₁ r₂ in
theorem readBitsFrom_alike (n i acc : Nat) {rd : Reader} (hlen : rd.len = len) :
    Agree True (fun x y => x = y ∧ y.2.len = len) (readBitsFrom p₁ fetch₁ n i acc rd)
      (readBitsFrom p₂ fetch₂ n i acc rd) := by
  induction n generalizing i acc rd with
  | zero => exact .ok ⟨rfl, hlen⟩
  | succ n ih =>
    rw [readBitsFrom, readBitsFrom, readBit_congr hp hfetch hlen]
    cases hbit : readBit p₂ fetch₂ rd with
    | error e => exact .error e
    | ok x => exact ih _ _ ((readBit_len hbit).trans hlen)

theorem runBits_alike (h : Run.ReadsAlike p₁ len r₁ r₂) (n : Nat) :
    Agree True (ValueAndRunsAlike p₁ len) (runBits p₁ fetch₁ n r₁) (runBits p₂ fetch₂ n r₂) := by
  rw [runBits, runBits, h.reader]
  refine (readBitsFrom_alike hp hfetch n 0 0 h.len).bind ?_
  rintro x _ ⟨rfl, hlen⟩
  exact .ok ⟨rfl, h.setR hlen⟩

theorem payload_alike (h : Run.ReadsAlike p₁ len r₁ r₂) (n : Nat) :
    Agree True (ValueAndRunsAlike p₁ len) (payload p₁ fetch₁ n r₁) (payload p₂ fetch₂ n r₂) := by
  refine (runBits_alike hp hfetch h _).bind ?_
  rintro ⟨x, a⟩ ⟨_, b⟩ ⟨rfl, hab⟩
  exact .ok ⟨rfl, hab⟩

theorem firstToken_alike (h : Run.ReadsAlike p₁ len r₁ r₂) :
    Agree True (ValueAndRunsAlike p₁ len) (firstToken p₁ fetch₁ r₁) (firstToken p₂ fetch₂ r₂) := by
  refine (runBits_alike hp hfetch h 2).bind ?_
  rintro ⟨t, a⟩ ⟨_, b⟩ ⟨rfl, hab⟩
  by_cases ht : t = 0 ∨ t = 1
  · simp only [if_pos ht]
    refine (payload_alike hp hfetch hab t).bind ?_
    rintro ⟨x, a⟩ ⟨_, b⟩ ⟨rfl, hab⟩
    rw [hab.decompressor]
    exact (putOuts_alike hp (hab.setD _) [x]).bind fun _ _ h' => .ok ⟨rfl, h'⟩
  · simp only [if_neg ht]
    exact .ok ⟨rfl, hab⟩

theorem literalCode_alike (h : Run.ReadsAlike p₁ len r₁ r₂) (n : Nat) :
    Agree True (ValueAndRunsAlike p₁ len) (literalCode p₁ fetch₁ n r₁) (literalCode p₂ fetch₂ n r₂) := by
  by_cases hn : n = 0 ∨ n = 1
  · simp only [literalCode, if_pos hn]
    refine (payload_alike hp hfetch h n).bind ?_
    rintro ⟨x, a⟩ ⟨_, b⟩ ⟨rfl, hab⟩
    rw [hab.decompressor, addEntry_congr hp]
    refine (Agree.refl _).bind ?_
    rintro ⟨k, d⟩ _ rfl
    exact .ok ⟨rfl, hab.setD d⟩
  · simp only [literalCode, if_neg hn]
    exact .ok ⟨rfl, h⟩

theorem decompressStep_alike (h : Run.ReadsAlike p₁ len r₁ r₂) :
    Agree True (ValueAndRunsAlike p₁ len) (decompressStep p₁ fetch₁ r₁) (decompressStep p₂ fetch₂ r₂) := by
  rw [decompressStep, decompressStep, h.reader, h.decompressor]
  split
  · exact .error _
  · refine (runBits_alike hp hfetch h _).bind ?_
    rintro ⟨n, a⟩ ⟨_, b⟩ ⟨rfl, hab⟩
    by_cases hn : n = 2
    · simp only [if_pos hn]
      exact .ok ⟨rfl, hab⟩
    · simp only [if_neg hn]
      refine (literalCode_alike hp hfetch hab n).bind ?_
      rintro ⟨k, a⟩ ⟨_, b⟩ ⟨rfl, hab⟩
      rw [hab.decompressor]
      refine (Agree.refl _).bind ?_
      rintro e _ rfl
      exact (emitEntry_alike hp (hab.setD _)).bind fun _ _ h' => .ok ⟨rfl, h'⟩

theorem decompressLoop_alike (h : Run.ReadsAlike p₁ len r₁ r₂) (n : Nat) :
    Agree True (Run.ReadsAlike p₁ len) (decompressLoop p₁ fetch₁ n r₁) (decompressLoop p₂ fetch₂ n r₂) := by
  induction n generalizing r₁ r₂ with
  | zero => exact .error _
  | succ n ih =>
    refine (decompressStep_alike hp hfetch h).bind ?_
    rintro ⟨goOn, a⟩ ⟨_, b⟩ ⟨rfl, hab⟩
    cases goOn with
    | true => exact ih hab
    | false => exact .ok hab

omit r₁ r₂ in
theorem decompressCore_alike (bpu : Bpu) (r₁ r₂ : Run) :
    Agree True (Run.ReadsAlike p₁ len) (decompressCore p₁ fetch₁ bpu len r₁) (decompressCore p₂ fetch₂ bpu len r₂) := by
  refine (firstToken_alike hp hfetch (decompressInit_readsAlike hfetch bpu r₁ r₂)).bind ?_
  rintro ⟨goOn, a⟩ ⟨_, b⟩ ⟨rfl, hab⟩
  cases goOn with
  | true => exact decompressLoop_alike hp hfetch hab _
  | false => exact .ok hab

end

end Sys2Proof.Machine
end

section
/-! ### A command's result is a function of its input and the parameters R206 names -/

namespace Sys2Proof.Machine

/-! #### The runs -/

/-- The value of a unit depends on the input elements below the length alone (R129). -/
theorem decodeUnit_congr {adp : Adapter} {IN₁ IN₂ : Nat → Elem} {n i : Nat} (hin : ∀ j, j < n → IN₁ j = IN₂ j)
    (hi : i < unitCount adp n) : decodeUnit adp IN₁ i = decodeUnit adp IN₂ i := by
  cases adp with
  | bytes =>
    have hbytes : i < n / 2 := hi
    simp only [decodeUnit, hin (2 * i) (by omega), hin (2 * i + 1) (by omega)]
  | base64 => simp only [decodeUnit, hin i hi]
  | utf16 => simp only [decodeUnit, hin i hi]
  | uri => simp only [decodeUnit, hin i hi]
  | plain => exact hin i hi

theorem runDecompress_sameOut {p₁ p₂ : Params} (hp : SameRunParams p₁ p₂) (adp : Adapter) {IN₁ IN₂ : Nat → Elem}
    {n : Nat} (hin : ∀ j, j < n → IN₁ j = IN₂ j) (r₁ r₂ : Run) :
    Agree True (Run.SameOut p₁) (runDecompress p₁ adp IN₁ n r₁) (runDecompress p₂ adp IN₂ n r₂) := by
  have hfetch : fetchUnit (decodeUnit adp IN₁) (unitCount adp n) = fetchUnit (decodeUnit adp IN₂) (unitCount adp n) := by
    funext i
    unfold fetchUnit
    split
    · next hi => exact decodeUnit_congr hin hi
    · rfl
  unfold runDecompress
  split
  · exact .error _
  · split
    · exact .error _
    · exact (decompressCore_alike hp hfetch adp.bpu r₁ r₂).imp fun _ _ h => h.out

theorem Run.Twin.sameOut {p₁ p₂ : Params} {adp : Adapter} {r₁ r₂ : Run} (h : Run.Twin p₁ p₂ adp adp r₁ r₂) :
    r₁.SameOut p₁ r₂ := by
  obtain ⟨_, hw, ⟨_, hpacks₁⟩, ⟨_, hpacks₂⟩⟩ := h
  obtain ⟨hholds₁, _, hroom⟩ := hpacks₁.holds
  obtain ⟨hholds₂, _⟩ := hpacks₂.holds
  exact ⟨_, hholds₁, hw ▸ hholds₂, hholds₁.1 ▸ hroom⟩

theorem runCompress_sameOut {p₁ p₂ : Params} (hp : SameRunParams p₁ p₂) (adp : Adapter) (v : Str) (r₁ r₂ : Run) :
    Agree True (Run.SameOut p₁) (runCompress p₁ adp v r₁) (runCompress p₂ adp v r₂) := by
  obtain ⟨hok, hstop⟩ := compressCore_twin (adp₁ := adp) hp rfl v r₁ r₂
  refine Agree.bind (R := Run.SameOut p₁) ⟨fun a b ha hb => (hok a b ha hb).sameOut, fun _ => hstop rfl⟩ fun a b h => ?_
  have hlen : a.eng.oLen = b.eng.oLen := by
    obtain ⟨vs, ha, hb, _⟩ := h
    rw [ha.1, hb.1]
  rw [compressFraming_eq_putOuts, compressFraming_eq_putOuts, hlen]
  exact putOuts_sameOut hp h _

/-! #### The commands -/

/-- Two completed commands have the same result: the outcome's fields and the result's elements (R206, R260). -/
def SameResult (t₁ t₂ : State) : Prop :=
  t₁.status.resNull = t₂.status.resNull ∧ t₁.status.err = t₂.status.err ∧ t₁.status.ncause = t₂.status.ncause ∧
    t₁.outLen = t₂.outLen ∧ t₁.resultView = t₂.resultView

/-- Two completions with one outcome that has no element. -/
theorem complete_sameResult {res : Result} (hlen : res.outLen = 0) (s₁ s₂ : State) :
    SameResult (complete res s₁) (complete res s₂) := by
  cases res <;> simp [SameResult, Status.completed, State.resultView, hlen]

theorem endsString_sameResult {t₁ t₂ : State} {v : Str} (h₁ : endsString t₁ v) (h₂ : endsString t₂ v) :
    SameResult t₁ t₂ := by
  obtain ⟨⟨_, _, hnull₁, herr₁, hcause₁, _⟩, hlen₁, hview₁⟩ := h₁
  obtain ⟨⟨_, _, hnull₂, herr₂, hcause₂, _⟩, hlen₂, hview₂⟩ := h₂
  exact ⟨hnull₁.trans hnull₂.symm, herr₁.trans herr₂.symm, hcause₁.trans hcause₂.symm,
    BitVec.eq_of_toNat_eq (hlen₁.trans hlen₂.symm), hview₁.trans hview₂.symm⟩

/-- Commands whose runs put out the same elements, or stop alike, have the same result. -/
theorem finishRun_sameResult {p : Params} {x y : Except Stop Run} (hcap : p.outCap < 2 ^ 32)
    (h : Agree True (Run.SameOut p) x y) (s₁ s₂ : State) : SameResult (finishRun s₁ x) (finishRun s₂ y) := by
  obtain ⟨hok, hstop⟩ := h
  cases x with
  | ok a =>
    cases y with
    | ok b =>
      obtain ⟨vs, ha, hb, hroom⟩ := hok a b rfl rfl
      exact endsString_sameResult (complete_endsString ha (by omega) s₁) (complete_endsString hb (by omega) s₂)
    | error e => exact nomatch (hstop trivial e).mpr rfl
  | error e =>
    obtain rfl := (hstop trivial e).mp rfl
    cases e with
    | null c => exact complete_sameResult rfl s₁ s₂
    | err e => exact complete_sameResult rfl s₁ s₂

theorem execute_sameResult {s₁ s₂ : State} {x y : Except Stop Run} (inNull : Bool) (hcap : s₁.params.outCap < 2 ^ 32)
    (hin : s₁.params.inCap = s₂.params.inCap) (hlen : s₁.latch.len = s₂.latch.len)
    (h : Agree True (Run.SameOut s₁.params) x y) : SameResult (execute inNull x s₁) (execute inNull y s₂) := by
  rw [execute, execute, hin, hlen]
  split
  · exact complete_sameResult rfl s₁ s₂
  · split
    · exact complete_sameResult rfl s₁ s₂
    · exact finishRun_sameResult hcap h s₁ s₂

/-- Settles O40: both runs start afresh, read the same elements and parameters, and stay alike. -/
theorem commandsAreFunctions : Obligations.CommandsAreFunctions := by
  intro s₁ s₂ adp inNull i hwf ⟨hinCap, houtCap, hdictCap, hpast, hflush, hlen, helem⟩ hi
  have hp : SameRunParams s₁.params s₂.params := ⟨houtCap, hdictCap, hpast, hflush⟩
  have hcap : s₁.params.outCap < 2 ^ 32 := by
    obtain ⟨_, hcap⟩ := params_capacities hwf
    omega
  rcases hi with rfl | rfl
  · have hinput : s₁.input = s₂.input := by
      rw [State.input, State.input, ← hlen]
      exact List.map_congr_left fun k hk => helem k (List.mem_range.mp hk)
    refine ⟨_, _, exec_compressOf_eq adp inNull s₁, exec_compressOf_eq adp inNull s₂, ?_⟩
    refine execute_sameResult inNull hcap hinCap hlen ?_
    rw [hinput]
    exact runCompress_sameOut hp adp _ _ _
  · refine ⟨_, _, exec_decompressOf_eq adp inNull s₁, exec_decompressOf_eq adp inNull s₂, ?_⟩
    refine execute_sameResult inNull hcap hinCap hlen ?_
    rw [← hlen]
    exact runDecompress_sameOut hp adp helem _ _

end Sys2Proof.Machine
end

section
/-! ### CTRL writes: IRQ_EN, CLEAR, START and SRESET (R240, R243, R245 to R247) -/

namespace Sys2Proof.Machine

/-! #### What CLEAR and START do to the state, by BUSY -/

theorem clearFlags_of_busy {s : State} (h : s.status.busy = true) :
    clearFlags s = { s with status := { s.status with werr := false } } := by
  rw [clearFlags, Status.cleared, if_pos h]

theorem clearFlags_of_idle {s : State} (h : s.status.busy = false) :
    clearFlags s = { s with status := { s.status with werr := false, done := false, err := .none } } := by
  rw [clearFlags, Status.cleared, if_neg (Bool.eq_false_iff.mp h)]

/-- A second CLEAR finds nothing left to do (R243). -/
theorem clearFlags_clearFlags (s : State) : clearFlags (clearFlags s) = clearFlags s := by
  cases hb : s.status.busy with
  | true => rw [clearFlags_of_busy hb]; exact clearFlags_of_busy (by exact hb)
  | false => rw [clearFlags_of_idle hb]; exact clearFlags_of_idle (by exact hb)

theorem startCommand_of_busy {s : State} (h : s.status.busy = true) :
    startCommand s = { s with status := s.status.dropped } := if_pos h

theorem startCommand_legal {s : State} (hidle : s.status.busy = false) (hopc : s.cmd.opc.toNat < 0xA) :
    startCommand s = accept s := by
  rcases startCommand_cases s with ⟨hbusy, _⟩ | ⟨_, ⟨hle, _⟩ | ⟨_, h⟩⟩
  · rw [hidle] at hbusy; exact nomatch hbusy
  · omega
  · exact h

/-! #### The obligations on one control operation -/

/-- Settles O45: with or without the CLEAR the block is still BUSY, so the START is dropped, and that sets WERR. -/
theorem startWhileBusyOnlySetsWerr : Obligations.StartWhileBusyOnlySetsWerr := by
  intro s irqEn clear hbusy
  have h : (setIrqEn irqEn s).status.busy = true := hbusy
  cases clear with
  | false => exact congrArg _ (startCommand_of_busy h)
  | true =>
    refine congrArg Host.Outcome.next ?_
    rw [if_pos rfl, clearFlags_of_busy h]
    exact startCommand_of_busy (by exact h)

/-- Settles O46: with or without the CLEAR the block is idle and CMD is the same, so START accepts the command. -/
theorem startAcceptsCommand : Obligations.StartAcceptsCommand := by
  intro s irqEn clear hidle hopc
  have h : (setIrqEn irqEn s).status.busy = false := hidle
  cases clear with
  | false =>
    refine congrArg Host.Outcome.next ?_
    rw [Bool.not_false, Bool.and_true]
    exact startCommand_legal h hopc
  | true =>
    refine congrArg Host.Outcome.next ?_
    rw [if_pos rfl, Bool.not_true, Bool.and_false, clearFlags_of_idle h]
    exact startCommand_legal (by exact h) (by exact hopc)

/-- Settles O48: the two values of BUSY are the two cases of CLEAR, and CLEAR is idempotent. -/
theorem clearAcknowledges : Obligations.ClearAcknowledges := by
  intro s irqEn
  refine ⟨_, rfl, fun hbusy => clearFlags_of_busy (s := setIrqEn irqEn s) hbusy, fun hidle => ?_,
    congrArg Host.Outcome.next (clearFlags_clearFlags (setIrqEn irqEn s))⟩
  rw [clearFlags_of_idle (s := setIrqEn irqEn s) hidle]
  exact ⟨rfl, rfl⟩

/-- Settles O49: the soft reset does not look at the word, writes the fields that R245 names, and leaves IN_MEM. -/
theorem softResetState : Obligations.SoftResetState := by
  intro s irqEn start clear
  refine ⟨softReset s, rfl, rfl, ?_⟩
  have hword : Status.zero.word = 0#32 := rfl
  simp [State.irq, hword]

/-! #### The order of the operations of one CTRL write -/

/-- Settles O50: without a pulse the word is IRQCFG. -/
theorem irqEnWrite : Obligations.IrqEnWrite := by
  intro s v hv
  have hpulse : ∀ k < 3, v.getLsbD k = false := fun k hk => by
    have h := Nat.testBit_mod_two_pow v.toNat 3 k
    rw [show v.toNat % 2 ^ 3 = 0 from hv, Nat.zero_testBit, decide_eq_true hk, Bool.true_and] at h
    exact h.symm
  refine ⟨_, ?_, rfl, rfl, rfl⟩
  rw [exec_decodeCtrl, hpulse 2 (by decide), hpulse 0 (by decide), hpulse 1 (by decide)]
  rfl

/-- Settles O51: the states between are those after the IRQ_EN write and after the CLEAR. They have IRQ_EN already,
so writing it again changes nothing. -/
theorem ctrlWriteOrder : Obligations.CtrlWriteOrder := by
  intro s v
  rw [exec_decodeCtrl, BitVec.testBit_toNat, BitVec.testBit_toNat, BitVec.testBit_toNat, BitVec.testBit_toNat]
  refine ⟨fun hreset => ?_, fun hreset => ?_⟩
  · rw [if_pos hreset]; rfl
  · rw [if_neg (Bool.eq_false_iff.mp hreset)]
    generalize v.getLsbD 1 = clear, v.getLsbD 0 = start
    cases clear with
    | true => exact ⟨_, _, rfl, rfl, by cases start <;> rfl⟩
    | false => exact ⟨_, _, rfl, rfl, by cases start <;> rfl⟩

end Sys2Proof.Machine
end

section
/-! ### The state machine of (BUSY, DONE) (R242, R273) -/

namespace Sys2Proof.Machine

/-! #### What each turn does to BUSY -/

/-- A command ends not BUSY and DONE (R262, R266). -/
theorem executeCompress_completes (adp : Adapter) (inNull : Bool) (s : State) :
    (executeCompress adp inNull s).status.busy = false ∧ (executeCompress adp inNull s).status.done = true := by
  rcases executeCompress_cases adp inNull s with ⟨r, n, h, _⟩ | ⟨e, h, _⟩ <;> simp [h]

theorem executeDecompress_completes (adp : Adapter) (inNull : Bool) (s : State) :
    (executeDecompress adp inNull s).status.busy = false ∧ (executeDecompress adp inNull s).status.done = true := by
  rcases executeDecompress_cases adp inNull s with ⟨r, n, h, _⟩ | ⟨c, h, _⟩ | ⟨e, h, _⟩ <;> simp [h]

theorem writeTarget_busy (x : Target) (d : Word) (s : State) :
    (writeTarget x d s).status.busy = s.status.busy := by
  rcases writeTarget_cases x d s with ⟨_, _, h⟩ | ⟨_, ⟨_, h⟩ | ⟨_, h⟩ | ⟨_, _, _, h⟩⟩ | h <;> simp [h]

/-- A CTRL write with SRESET sets BUSY and DONE to 0. Any other keeps BUSY, unless it is the START of an idle block
(R240, R245, R247). -/
theorem ctrl_write_busy {s t : State} {d : Word} (h : exec (decodeCtrl d) s = .next t) :
    (d.getLsbD 2 = true ∧ t.status.busy = false ∧ t.status.done = false) ∨
    d.getLsbD 2 = false ∧ (t.status.busy = s.status.busy ∨ s.status.busy = false ∧ d.getLsbD 0 = true) := by
  rcases ctrl_write_cases h with ⟨hreset, rfl⟩ | ⟨hreset, u, hu, ht⟩
  · exact .inl ⟨hreset, rfl, rfl⟩
  · have hbusy : u.status.busy = s.status.busy := by rcases hu with ⟨_, rfl⟩ | ⟨_, rfl⟩ <;> simp
    refine .inr ⟨hreset, ?_⟩
    rcases ht with ⟨hstart, rfl⟩ | ⟨_, rfl⟩
    · cases hb : u.status.busy with
      | true => rw [startCommand_of_busy hb]; exact .inl hbusy
      | false => exact .inr ⟨hbusy ▸ hb, hstart⟩
    · exact .inl hbusy

/-- What a step does to (BUSY, DONE): BUSY stays; or the engine's turn completes a command; or the host starts
one; or one of the two resets sets both to 0. -/
theorem step_busy_cases {s t : State} (h : step s = .next t) :
    t.status.busy = s.status.busy ∨
    (t.status.busy = false ∧ t.status.done = true ∧ (s.turns = [] ∨ ∃ ts, s.turns = .engine :: ts)) ∨
    (t.status.busy = false ∧ t.status.done = false ∧ ((∃ ts, s.turns = .rst :: ts) ∨
      ∃ a d ts, s.turns = .host (.write a d) :: ts ∧ targetOf s.params a = some (.reg .ctrl) ∧
        d.getLsbD 2 = true)) ∨
    (s.status.busy = false ∧ ∃ a d ts, s.turns = .host (.write a d) :: ts ∧
      targetOf s.params a = some (.reg .ctrl) ∧ d.getLsbD 0 = true ∧ d.getLsbD 2 = false) := by
  obtain ⟨ts, _, ⟨hts, ht⟩ | ⟨a, d, hts, hx, ht⟩ | ⟨a, d, x, _, _, _, rfl⟩ | ⟨a, x, _, _, rfl⟩ | ⟨hts, rfl⟩⟩ :=
    step_cases h
  · have hengine : s.turns = [] ∨ ∃ ts, s.turns = .engine :: ts := hts.imp_right fun h => ⟨ts, h⟩
    rcases ht with ⟨_, rfl⟩ | ⟨_, ⟨adp, n, rfl | rfl⟩ | rfl⟩
    · exact .inl rfl
    · obtain ⟨hbusy, hdone⟩ := executeCompress_completes adp n { s with turns := ts }
      exact .inr (.inl ⟨hbusy, hdone, hengine⟩)
    · obtain ⟨hbusy, hdone⟩ := executeDecompress_completes adp n { s with turns := ts }
      exact .inr (.inl ⟨hbusy, hdone, hengine⟩)
    · exact .inr (.inl ⟨rfl, rfl, hengine⟩)
  · rcases ctrl_write_busy ht with ⟨hreset, hbusy, hdone⟩ | ⟨hreset, hbusy | ⟨hidle, hstart⟩⟩
    · exact .inr (.inr (.inl ⟨hbusy, hdone, .inr ⟨a, d, ts, hts, hx, hreset⟩⟩))
    · exact .inl hbusy
    · exact .inr (.inr (.inr ⟨hidle, a, d, ts, hts, hx, hstart, hreset⟩))
  · exact .inl (writeTarget_busy x d _)
  · exact .inl rfl
  · exact .inr (.inr (.inl ⟨rfl, rfl, .inl ⟨ts, hts⟩⟩))

/-- Settles O53: the next state meets the STATUS invariants, which exclude (1, 1), and `step_busy_cases` names the
turn that changed BUSY. -/
theorem busyStateMachine : Obligations.BusyStateMachine := by
  intro s t hinv hstep
  refine ⟨fun ⟨hbusy, hdone⟩ => ?_, fun hs ht => ?_, fun hs ht => ?_⟩
  · obtain ⟨hrunning, _⟩ := (stepKeepsInvariant s t hinv hstep).status
    obtain ⟨hdone', _⟩ := hrunning hbusy
    rw [hdone] at hdone'; exact nomatch hdone'
  · rcases step_busy_cases hstep with hkeep | ⟨hfall, _⟩ | ⟨hfall, _⟩ | ⟨_, hrise⟩
    · rw [hkeep, hs] at ht; exact nomatch ht
    · rw [hfall] at ht; exact nomatch ht
    · rw [hfall] at ht; exact nomatch ht
    · exact hrise
  · rcases step_busy_cases hstep with hkeep | ⟨_, hdone, hengine⟩ | ⟨_, hdone, hreset⟩ | ⟨hidle, _⟩
    · rw [hkeep, hs] at ht; exact nomatch ht
    · exact .inl ⟨hengine, hdone⟩
    · exact .inr ⟨hdone, hreset⟩
    · rw [hidle] at hs; exact nomatch hs

end Sys2Proof.Machine
end

section
/-! ### An input longer than IN_CAP (R240, R267) -/

namespace Sys2Proof.Machine

/-! #### The command a running engine decodes (R31, R81, R83) -/

/-- A CMD word with a legal OPC is one of the ten commands, with its IN_NULL bit. -/
theorem decode_cmd_of_legal {w : Word} (h : (opcOf w).toNat < 0xA) :
    ∃ adp, decode .cmd w = .ok (compressOf adp (inNullOf w)) ∨ decode .cmd w = .ok (decompressOf adp (inNullOf w)) := by
  rw [decode, decodeCmd]
  split
  · exact ⟨.base64, .inl rfl⟩
  · exact ⟨.base64, .inr rfl⟩
  · exact ⟨.utf16, .inl rfl⟩
  · exact ⟨.utf16, .inr rfl⟩
  · exact ⟨.uri, .inl rfl⟩
  · exact ⟨.uri, .inr rfl⟩
  · exact ⟨.bytes, .inl rfl⟩
  · exact ⟨.bytes, .inr rfl⟩
  · exact ⟨.plain, .inl rfl⟩
  · exact ⟨.plain, .inr rfl⟩
  · interval_cases (opcOf w).toNat <;> contradiction

theorem opcOf_word (c : Cmd) : opcOf c.word = c.opc := by
  have hopc := c.opc.isLt
  have hnull := Bool.toNat_lt c.inNull
  apply BitVec.eq_of_toNat_eq
  rw [toNat_opcOf, Cmd.word_eq_ofNat, BitVec.toNat_ofNat]
  omega

theorem inNullOf_word (c : Cmd) : inNullOf c.word = c.inNull := by
  rw [inNullOf, Cmd.word, BitVec.getLsbD_or, BitVec.getLsbD_setWidth, BitVec.getLsbD_of_ge _ _ (Nat.le_refl 4),
    getLsbD_bitAt]
  simp

/-- The latched command is what a running engine decodes. -/
theorem decode_latch_word {l : Latch} (h : l.opc.toNat < 0xA) :
    ∃ adp, decode .cmd l.word = .ok (compressOf adp l.isNull) ∨
      decode .cmd l.word = .ok (decompressOf adp l.isNull) := by
  have hopc : opcOf l.word = l.opc := opcOf_word _
  have hnull : inNullOf l.word = l.isNull := inNullOf_word _
  rw [← hnull]
  exact decode_cmd_of_legal (hopc ▸ h)

/-! #### The refusal -/

/-- A non-NULL input longer than IN_CAP is refused whatever its run would give (R267). -/
theorem execute_overlong {s : State} (h : s.params.inCap < s.latch.len.toNat) (run : Except Stop Run) :
    endsError (execute false run s) .inLenRange ∧ commandFrame s (execute false run s) := by
  rw [execute, if_neg Bool.false_ne_true, if_pos h]
  exact ⟨complete_endsError _ s, complete_commandFrame _ s s.run⟩

theorem exec_compressOf_overlong {s : State} (h : s.params.inCap < s.latch.len.toNat) (adp : Adapter) :
    ∃ t, exec (compressOf adp false) s = .next t ∧ endsError t .inLenRange ∧ commandFrame s t :=
  ⟨_, exec_compressOf_eq adp false s, execute_overlong h _⟩

theorem exec_decompressOf_overlong {s : State} (h : s.params.inCap < s.latch.len.toNat) (adp : Adapter) :
    ∃ t, exec (decompressOf adp false) s = .next t ∧ endsError t .inLenRange ∧ commandFrame s t :=
  ⟨_, exec_decompressOf_eq adp false s, execute_overlong h _⟩

/-- Settles O60: the length is looked at before any engine runs, and the engine's turn runs the latched command. -/
theorem overlongInputIsRefused : Obligations.OverlongInputIsRefused := by
  intro s adp h
  refine ⟨exec_compressOf_overlong h adp, exec_decompressOf_overlong h adp, fun ts hts hrun hopc hnull => ?_⟩
  have hu : { s with turns := ts }.params.inCap < { s with turns := ts }.latch.len.toNat := h
  obtain ⟨adp', hd⟩ := decode_latch_word hopc
  rw [hnull] at hd
  rcases hd with hd | hd
  · obtain ⟨hstep, _⟩ := stepRunsDecodedInstruction s _ ts
    rw [hstep hrun hd hts]; exact exec_compressOf_overlong hu adp'
  · obtain ⟨hstep, _⟩ := stepRunsDecodedInstruction s _ ts
    rw [hstep hrun hd hts]; exact exec_decompressOf_overlong hu adp'

end Sys2Proof.Machine
end

section
/-! ### What a completion writes, and the outcomes of a command (R260 to R262, R266) -/

namespace Sys2Proof.Machine

/-! #### The two completions -/

theorem complete_completedWith_str (n : Nat) (s : State) :
    completedWith (complete (.str n) s) false .none .none :=
  ⟨rfl, rfl, rfl, rfl, rfl, rfl⟩

theorem complete_outLen_toNat {res : Result} (h : res.outLen < 2 ^ 32) (s : State) :
    (complete res s).outLen.toNat = res.outLen := by
  rw [complete_outLen, BitVec.toNat_ofNat, Nat.mod_eq_of_lt h]

/-- Settles O44: the outcome's fields are each result's own, and WERR and CTRL are not among what a completion
writes. -/
theorem completionWrites : Obligations.CompletionWrites := by
  intro s
  exact ⟨fun n hn => ⟨complete_completedWith_str n s, complete_outLen_toNat (res := .str n) hn s⟩,
    fun c => complete_endsNull c s, fun e => complete_endsError e s,
    fun res => ⟨by simp, complete_irqEn res s⟩⟩

/-! #### What every completion of a command leaves -/

/-- A STRING completion's value is what the result window shows (R220). -/
theorem endsString_resultView {t : State} (h : completedWith t false .none .none) : endsString t t.resultView :=
  ⟨h, by simp [State.resultView], rfl⟩

/-- The OUT_MEM elements at or above OUT_LEN are open after a completion (R65). -/
theorem complete_outMem_open {res : Result} (hlen : res.outLen < 2 ^ 32) (s : State) {j : Nat}
    (hj : (complete res s).outLen.toNat ≤ j) :
    (complete res s).outMem.read j = Config.openElem s.freeCtr j := by
  rw [complete_outLen_toNat hlen] at hj
  rw [complete_outMem]
  exact Mem.read_keepBelow_above _ _ hj

/-! #### The length of a run's result -/

theorem runCompress_oLen_le {p : Params} {adp : Adapter} {v : Str} {r r' : Run}
    (h : runCompress p adp v r = .ok r') : r'.eng.oLen ≤ p.outCap := by
  obtain ⟨hok, _⟩ := runCompress_sameOut (SameRunParams.refl p) adp v r r
  obtain ⟨vs, ⟨hlen, _⟩, _, hroom⟩ := hok r' r' h h
  exact hlen ▸ hroom

theorem runDecompress_oLen_le {p : Params} {adp : Adapter} {IN : Nat → Elem} {n : Nat} {r r' : Run}
    (h : runDecompress p adp IN n r = .ok r') : r'.eng.oLen ≤ p.outCap := by
  obtain ⟨hok, _⟩ := runDecompress_sameOut (SameRunParams.refl p) adp (fun _ _ => rfl) r r
  obtain ⟨vs, ⟨hlen, _⟩, _, hroom⟩ := hok r' r' h h
  exact hlen ▸ hroom

/-! #### The commands -/

/-- The command's next state is a completion with `res`, of the state with OUT_MEM and the engine's registers as
some run left them, and OUT_LEN holds the result's length. -/
def Completes (s t : State) (res : Result) : Prop :=
  res.outLen < 2 ^ 32 ∧ ∃ r : Run, t = complete res { s with engine := r.eng, outMem := r.out }

theorem Completes.frame {s t : State} {res : Result} (h : Completes s t res) : commandFrame s t := by
  obtain ⟨_, r, rfl⟩ := h
  exact complete_commandFrame res s r

theorem Completes.outMem_open {s t : State} {res : Result} (h : Completes s t res) (j : Nat)
    (hj : t.outLen.toNat ≤ j) : t.outMem.read j = Config.openElem s.freeCtr j := by
  obtain ⟨hlen, r, rfl⟩ := h
  exact complete_outMem_open hlen _ hj

theorem Completes.str {s t : State} {n : Nat} (h : Completes s t (.str n)) : ∃ v, endsString t v := by
  obtain ⟨_, r, rfl⟩ := h
  exact ⟨_, endsString_resultView (complete_completedWith_str n _)⟩

theorem Completes.null {s t : State} {c : NCause} (h : Completes s t (.null c)) : endsNull t c := by
  obtain ⟨_, r, rfl⟩ := h
  exact complete_endsNull c _

theorem Completes.error {s t : State} {e : Err} (h : Completes s t (.error e)) : endsError t e := by
  obtain ⟨_, r, rfl⟩ := h
  exact complete_endsError e _

/-- The errors a command can raise, with the condition of IN_LEN_RANGE (R240, R261). -/
def CommandError (s : State) (inNull : Bool) (e : Err) : Prop :=
  e = .dictFull ∨ e = .outFull ∨ e = .inLenRange ∧ inNull = false ∧ s.params.inCap < s.latch.len.toNat

theorem Completes.error_cases {s t : State} {inNull : Bool} {e : Err} (h : Completes s t (.error e))
    (he : CommandError s inNull e) :
    endsError t .dictFull ∨ endsError t .outFull ∨
      inNull = false ∧ s.params.inCap < s.latch.len.toNat ∧ endsError t .inLenRange := by
  rcases he with rfl | rfl | ⟨rfl, hnull, hlong⟩
  · exact .inl h.error
  · exact .inr (.inl h.error)
  · exact .inr (.inr ⟨hnull, hlong, h.error⟩)

/-- A compress command completes with a string or an error, never with NULL. -/
theorem executeCompress_outcome {s : State} (hwf : s.params.wf = true) (adp : Adapter) (inNull : Bool) :
    (∃ n, Completes s (executeCompress adp inNull s) (.str n)) ∨
    ∃ e, Completes s (executeCompress adp inNull s) (.error e) ∧ CommandError s inNull e := by
  obtain ⟨_, hcap⟩ := params_capacities hwf
  rcases executeCompress_cases adp inNull s with ⟨r, n, ht, hn⟩ | ⟨e, ht, he⟩
  · refine .inl ⟨n, ?_, r, ht⟩
    rcases hn with ⟨_, _, rfl⟩ | ⟨_, _, hrun, rfl⟩
    · exact Nat.two_pow_pos 32
    · exact Nat.lt_of_le_of_lt (Nat.le_trans (runCompress_oLen_le hrun) hcap) (by decide)
  · exact .inr ⟨e, ⟨Nat.two_pow_pos 32, s.run, ht⟩, he⟩

/-- A decompress command completes with a string, with NULL and a cause, or with an error. -/
theorem executeDecompress_outcome {s : State} (hwf : s.params.wf = true) (adp : Adapter) (inNull : Bool) :
    (∃ n, Completes s (executeDecompress adp inNull s) (.str n)) ∨
    (∃ c, c ≠ .none ∧ Completes s (executeDecompress adp inNull s) (.null c)) ∨
    ∃ e, Completes s (executeDecompress adp inNull s) (.error e) ∧ CommandError s inNull e := by
  obtain ⟨_, hcap⟩ := params_capacities hwf
  rcases executeDecompress_cases adp inNull s with ⟨r, n, ht, hn⟩ | ⟨c, ht, hc⟩ | ⟨e, ht, he⟩
  · refine .inl ⟨n, ?_, r, ht⟩
    rcases hn with ⟨_, _, rfl⟩ | ⟨_, _, hrun, rfl⟩
    · exact Nat.two_pow_pos 32
    · exact Nat.lt_of_le_of_lt (Nat.le_trans (runDecompress_oLen_le hrun) hcap) (by decide)
  · exact .inr (.inl ⟨c, hc, Nat.two_pow_pos 32, s.run, ht⟩)
  · exact .inr (.inr ⟨e, ⟨Nat.two_pow_pos 32, s.run, ht⟩, he⟩)

/-- Settles O32: the command's next state is one completion, and that alone tells what is left unchanged and what
is open. -/
theorem commandOutcomeAndFrame : Obligations.CommandOutcomeAndFrame := by
  intro s adp inNull hwf
  constructor
  · refine ⟨_, exec_compressOf_eq adp inNull s, ?_⟩
    rcases executeCompress_outcome hwf adp inNull with ⟨n, h⟩ | ⟨e, h, he⟩
    · exact ⟨h.frame, .inl h.str, h.outMem_open⟩
    · exact ⟨h.frame, .inr (h.error_cases he), h.outMem_open⟩
  · refine ⟨_, exec_decompressOf_eq adp inNull s, ?_⟩
    rcases executeDecompress_outcome hwf adp inNull with ⟨n, h⟩ | ⟨c, hc, h⟩ | ⟨e, h, he⟩
    · exact ⟨h.frame, .inl h.str, h.outMem_open⟩
    · exact ⟨h.frame, .inr (.inl ⟨c, hc, h.null⟩), h.outMem_open⟩
    · exact ⟨h.frame, .inr (.inr (h.error_cases he)), h.outMem_open⟩

end Sys2Proof.Machine
end

section
/-! ### The state after reset, and rst (R290, R292, R293) -/

namespace Sys2Proof.Machine

/-! #### The turns of an idle block and of the reset line -/

/-- With no turn left and no command running, the block stays as it is (R292). -/
theorem step_of_idle_silent {s : State} (hidle : s.eng = .idle) (hts : s.turns = []) : step s = .next s := by
  simp only [step, hts, engineTurn, hidle]

theorem step_rst (s : State) (ts : List Turn) :
    step { s with turns := .rst :: ts } = .next (powerOn { s with turns := ts }) := rfl

/-- The power-on reset leaves neither DONE nor IRQ_EN (R30, R290). -/
theorem powerOn_irq (s : State) : (powerOn s).irq = false := by
  rw [State.irq, powerOn_irqEn, Bool.and_false]

/-! #### What holds at reset -/

theorem Status.zero_word : Status.zero.word = 0#32 := rfl

theorem Engine.zero_fits : Engine.zero.fits := by unfold Engine.fits; decide

/-- The reset state is idle, with every register 0 and no element listed in either memory, whatever the parameters. -/
theorem Inv.resetWith {p : Params} (hwf : p.wf = true) : Inv (State.resetWith p) where
  params := hwf
  status := .zero
  engRun := ⟨nofun, nofun⟩
  latch := nofun
  widths := Engine.zero_fits
  outLen := Nat.zero_le _
  inMem := ⟨(Mem.wf_reset p).1, Mem.below_opened 0 _⟩
  outMem := ⟨(Mem.wf_reset p).2, Mem.below_opened 1 _⟩
  fresh := ⟨Nat.zero_lt_two, Nat.one_lt_two⟩

/-! #### The obligations on the resets -/

/-- Settles O56: the fields are 0 by R290, and an idle block with no turn to take does nothing. -/
theorem idleAfterReset : Obligations.IdleAfterReset :=
  fun p => ⟨rfl, Status.zero_word, rfl, step_of_idle_silent (s := State.resetWith p) rfl rfl, rfl⟩

/-- Settles O57: the step is `powerOn`, which writes every field the statement names. -/
theorem powerOnReset : Obligations.PowerOnReset := by
  intro s ts
  exact ⟨_, step_rst s ts, powerOn_eng _, powerOn_status _, powerOn_irq _, powerOn_irqEn _, powerOn_cmd _,
    powerOn_inLen _, powerOn_outLen _, Mem.read_opened _, Mem.read_opened _, powerOn_params _, powerOn_turns _⟩

/-- Settles O58: the parameters are the invariant's one clause that reset does not establish by itself, and those of
`Params.default` are in R7's ranges. -/
theorem resetSatisfiesInvariant : Obligations.ResetSatisfiesInvariant :=
  ⟨fun _ hwf => .resetWith hwf, .resetWith (by decide)⟩

end Sys2Proof.Machine
end
